-- ==== Sys2Proof/Word.lean ====
section
/-!
DEFINITION. The two word types of AIOS-CODEC: the byte of `00_scope.md` R9 and the 32-bit data word of R6 and R11.
Everything computed from them stands in `Sys2Proof/Decode.lean` and `Sys2Proof/Machine/`.
-/

namespace Sys2Proof

/-- A byte, 0..255 (R9). -/
abbrev Byte := BitVec 8

/-- The 32-bit data word: an unsigned integer modulo 2^32 (R6, R11). -/
abbrev Word := BitVec 32

end Sys2Proof
end

