-- ==== Sys2Proof/Syntax.lean ====
section
/-!
DEFINITION. The instructions of AIOS-CODEC: one constructor per row of `spec/opcode_table.json`, in the table's order.
The first eight are the commands of `30_encoding.md` R92, the ninth is every other command word (R95), and the last
three are the data units the ENGINE reads from a coded stream (R99 to R101).
-/

namespace Sys2Proof

inductive Instr where
  /-- `crc32`, CMD = 0x00000001 (R133). -/
  | crc32
  /-- `fnv32`, CMD = 0x00000002 (R135). -/
  | fnv32
  /-- `rle.enc`, CMD = 0x00000010 (R153). -/
  | rleEnc
  /-- `rle.dec`, CMD = 0x00000011 (R154). -/
  | rleDec
  /-- `lzss.enc`, CMD = 0x00000020 (R186). -/
  | lzssEnc
  /-- `lzss.dec`, CMD = 0x00000021 (R187). -/
  | lzssDec
  /-- `frame.fmt codec`, CMD = 0x00000030 | codec << 8 (R93, R217). -/
  | frameFmt (codec : Byte)
  /-- `frame.parse`, CMD = 0x00000031 (R247). -/
  | frameParse
  /-- `(illegal)`: any command word no other row matches, by its three fields (R90, R95). -/
  | illegal (opcode : Byte) (codec : Byte) (rsvd : BitVec 16)
  /-- `lzss.literal`: the two bytes 0x00, `value` (R100). -/
  | lzssLiteral (value : Byte)
  /-- `lzss.match`: the big-endian code LEN[15:12], DIST[11:0] (R101). -/
  | lzssMatch (len : BitVec 4) (dist : BitVec 12)
  /-- `rle.pair`: the two bytes `count`, `value` (R99). -/
  | rlePair (count : Byte) (value : Byte)
  deriving DecidableEq, Repr

end Sys2Proof
end

