-- ==== Sys2Proof/WellFormed.lean ====
section
/-!
DEFINITION. Which terms of `Instr` an encoding of the spec stands for. Two constructors have a side condition: an
`illegal` word is one that no legal row matches (R92, R94, R95), and the first byte of a match token is never 0x00
(R102, R103). Every other term is well formed.
-/

namespace Sys2Proof

/-- The opcodes of R92 that take no CODEC operand. -/
def plainOpcodes : List Byte := [0x01, 0x02, 0x10, 0x11, 0x20, 0x21, 0x31]

/-- R92 and R94: the fields are those of one of the eight legal commands. -/
def legalFields (opcode codec : Byte) (rsvd : BitVec 16) : Bool :=
  rsvd == 0 && (opcode == 0x30 || (codec == 0 && plainOpcodes.contains opcode))

/-- R101, R102: the first byte of the token, `(LEN << 4) | DIST[11:8]`, is not 0x00. -/
def matchFirstByteNonzero (len : BitVec 4) (dist : BitVec 12) : Bool :=
  len != 0 || 256 ≤ dist.toNat

def Instr.wf : Instr → Bool
  | .crc32 => true
  | .fnv32 => true
  | .rleEnc => true
  | .rleDec => true
  | .lzssEnc => true
  | .lzssDec => true
  | .frameFmt _ => true
  | .frameParse => true
  | .illegal opcode codec rsvd => !legalFields opcode codec rsvd
  | .lzssLiteral _ => true
  | .lzssMatch len dist => matchFirstByteNonzero len dist
  | .rlePair _ _ => true

end Sys2Proof
end

