-- ==== Sys2Proof/Decode.lean ====
section
/-!
DEFINITION. From bytes to instructions and back. A command word is decoded with the match/mask rows of
`spec/opcode_table.json`, tried in the table's order (`30_encoding.md` R97). A data unit is two bytes, and which format
they have is known from the stream the ENGINE is reading (R99, R103): the context is an argument. Decoding is total:
bytes that are no whole unit are rejected by name. The byte-order helpers of R9 stand here too.
-/

namespace Sys2Proof

/-- `le32(v)` of R9: the four bytes of `v`, least significant first. -/
def le32 (v : Word) : List Byte :=
  [v.extractLsb' 0 8, v.extractLsb' 8 8, v.extractLsb' 16 8, v.extractLsb' 24 8]

/-- The little-endian value of up to four bytes (R9 `rd_le32`, R62, R63). -/
def composeLe : List Byte → Word
  | [] => 0
  | b :: bs => b.setWidth 32 ||| (composeLe bs <<< 8)

/-- What the bytes to decode are: the word of a CMD write (R90), or the next unit of a coded stream (R98). -/
inductive Context where
  | command
  | rleStream
  | lzssStream
  deriving DecidableEq, Repr

/-- Why bytes decode to nothing. -/
inductive DecodeError where
  /-- Fewer bytes than the unit of the context has (a command word has 4, a data unit 2). -/
  | tooShort
  /-- More bytes than the unit of the context has. -/
  | tooLong
  deriving DecidableEq, Repr

/-- A row of the opcode table for 32-bit command words. -/
structure CommandRow where
  pattern : Word
  mask : Word
  build : Word → Instr

/-- CMD[7:0], CMD[15:8] and CMD[31:16] (R90). -/
def opcodeField (w : Word) : Byte := w.extractLsb' 0 8
def codecField (w : Word) : Byte := w.extractLsb' 8 8
def rsvdField (w : Word) : BitVec 16 := w.extractLsb' 16 16

/-- The word of the three fields of R90. -/
def commandWord (opcode codec : Byte) (rsvd : BitVec 16) : Word :=
  opcode.setWidth 32 ||| (codec.setWidth 32 <<< 8) ||| (rsvd.setWidth 32 <<< 16)

/-- The `(illegal)` row's reading of a word (R95). -/
def illegalOf (w : Word) : Instr := .illegal (opcodeField w) (codecField w) (rsvdField w)

/-- The command rows of `spec/opcode_table.json`, in its order (R92, R97). -/
def commandRows : List CommandRow :=
  [⟨0x00000001, 0xFFFFFFFF, fun _ => .crc32⟩,
   ⟨0x00000002, 0xFFFFFFFF, fun _ => .fnv32⟩,
   ⟨0x00000010, 0xFFFFFFFF, fun _ => .rleEnc⟩,
   ⟨0x00000011, 0xFFFFFFFF, fun _ => .rleDec⟩,
   ⟨0x00000020, 0xFFFFFFFF, fun _ => .lzssEnc⟩,
   ⟨0x00000021, 0xFFFFFFFF, fun _ => .lzssDec⟩,
   ⟨0x00000030, 0xFFFF00FF, fun w => .frameFmt (codecField w)⟩,
   ⟨0x00000031, 0xFFFFFFFF, fun _ => .frameParse⟩,
   ⟨0x00000000, 0x00000000, illegalOf⟩]

/-- R97: the first row whose masked bits match reads the word; a word no row matches is illegal. -/
def decodeWord (w : Word) : Instr :=
  match commandRows.find? (fun r => w &&& r.mask == r.pattern) with
  | some r => r.build w
  | none => illegalOf w

/-- LEN and DIST of the match token with first byte `f` and second byte `g` (R101): `code = (f << 8) | g`, LEN in
code[15:12] and DIST in code[11:0]. -/
def tokenLen (f : Byte) : BitVec 4 := f.extractLsb' 4 4
def tokenDist (f g : Byte) : BitVec 12 := f.extractLsb' 0 4 ++ g

/-- R103: a unit whose first byte is 0x00 is a literal, any other is a match. -/
def decodeLzss (f g : Byte) : Instr :=
  if f = 0 then .lzssLiteral g else .lzssMatch (tokenLen f) (tokenDist f g)

/-- R99: count first, value second. -/
def decodeRle (count value : Byte) : Instr := .rlePair count value

/-- The decoder, total on any bytes. -/
def decodeBytes : Context → List Byte → Except DecodeError Instr
  | .command, [a, b, c, d] => .ok (decodeWord (composeLe [a, b, c, d]))
  | .command, bs => .error (if bs.length < 4 then .tooShort else .tooLong)
  | .rleStream, [c, v] => .ok (decodeRle c v)
  | .rleStream, bs => .error (if bs.length < 2 then .tooShort else .tooLong)
  | .lzssStream, [f, g] => .ok (decodeLzss f g)
  | .lzssStream, bs => .error (if bs.length < 2 then .tooShort else .tooLong)

/-- The two bytes of a match token, high byte first (R75, R101). -/
def matchBytes (len : BitVec 4) (dist : BitVec 12) : List Byte :=
  [len ++ dist.extractLsb' 8 4, dist.extractLsb' 0 8]

/-- The command word of a command (R92, R93); the data units are no commands. -/
def encodeWord : Instr → Option Word
  | .crc32 => some 0x00000001
  | .fnv32 => some 0x00000002
  | .rleEnc => some 0x00000010
  | .rleDec => some 0x00000011
  | .lzssEnc => some 0x00000020
  | .lzssDec => some 0x00000021
  | .frameFmt codec => some (commandWord 0x30 codec 0)
  | .frameParse => some 0x00000031
  | .illegal opcode codec rsvd => some (commandWord opcode codec rsvd)
  | .lzssLiteral _ => none
  | .lzssMatch _ _ => none
  | .rlePair _ _ => none

/-- The context an instruction's bytes are read in. -/
def Instr.context : Instr → Context
  | .lzssLiteral _ => .lzssStream
  | .lzssMatch _ _ => .lzssStream
  | .rlePair _ _ => .rleStream
  | .crc32 => .command
  | .fnv32 => .command
  | .rleEnc => .command
  | .rleDec => .command
  | .lzssEnc => .command
  | .lzssDec => .command
  | .frameFmt _ => .command
  | .frameParse => .command
  | .illegal _ _ _ => .command

/-- The encoder: a command's four bytes as the bus moves them (R62), a data unit's two bytes (R99 to R101). -/
def encode : Instr → List Byte
  | .lzssLiteral value => [0, value]
  | .lzssMatch len dist => matchBytes len dist
  | .rlePair count value => [count, value]
  | i => le32 ((encodeWord i).getD 0)

/-- The two bytes of a 16-bit row of the table: byte 0 is bits 15..8 (R99 to R101). -/
def unitBytes (w : Nat) : List Byte := [BitVec.ofNat 8 (w / 256), BitVec.ofNat 8 w]

/-- The instruction the decoder reads from a word numbered as the opcode table numbers it. A row of 32 bits is a command
word. A row of 16 bits is a data unit, read as an LZSS token: the table's `rle.pair` has the same bits as its two
LZSS rows, and only the stream tells them apart (log 12). -/
def decodeTableWord (nbits w : Nat) : Option Instr :=
  if nbits = 32 then (decodeBytes .command (le32 (BitVec.ofNat 32 w))).toOption
  else if nbits = 16 then (decodeBytes .lzssStream (unitBytes w)).toOption
  else none

end Sys2Proof
end

