-- ==== Sys2Proof/Config.lean ====
section
/-!
DEFINITION. What is fixed for one machine: the constants of `00_scope.md` R6, the OPEN parameters of R6 as one record
of plain data, and the free value every unspecified byte is drawn from (`93_implementation_defined.md` I2, I3, I4).
-/

namespace Sys2Proof.Config

/-- MAX_VERSION, the largest frame version the parser accepts, and the version the formatter writes (R6, R25, R213). -/
def maxVersion : Byte := 2

/-- WINDOW_MAX, the largest legal LZSS window (R6, R170). -/
def windowMax : Nat := 4096

/-- The reset values of LZ_WINDOW, LZ_MINMATCH, LZ_MAXMATCH and LZ_HASHLIMIT (R6, R36 to R39). -/
def defaultWindow : Word := 4096
def defaultMinMatch : Word := 3
def defaultMaxMatch : Word := 18
def defaultHashLimit : Word := 12

/-- FREE VALUE (no body). Byte `index` of the `draw`-th draw of unspecified bytes: InBuf after power-on reset, OutBuf
after any reset and beyond OUT_LEN after a completion, and OutBuf read while BUSY = 1
(`93_implementation_defined.md` I2, I3, I4; R68, R69, R71). Nothing constrains it (log 3). -/
opaque freeByte : Nat → Nat → Byte

/-- The OPEN parameters of R6. They are arguments of the model, not state (R48): no step changes them (log 2). -/
structure Params where
  /-- BASE, the physical address of the block's 4 MiB window. -/
  base : Nat
  /-- IN_CAP, the capacity of the IN buffer in bytes. -/
  inCap : Nat
  /-- OUT_CAP, the capacity of the OUT buffer in bytes. -/
  outCap : Nat
  /-- HASHLIMIT_MAX, the largest legal LZ_HASHLIMIT. -/
  hashLimitMax : Nat
  deriving DecidableEq, Repr

/-- The ranges R6 gives the OPEN parameters. -/
abbrev Params.Legal (p : Params) : Prop :=
  p.base % 0x400000 = 0 ∧ 1 ≤ p.inCap ∧ p.inCap ≤ 0x100000 ∧ 13 ≤ p.outCap ∧ p.outCap ≤ 0x100000 ∧ 12 ≤ p.hashLimitMax

/-- DESIGN CHOICE (log 2): the parameter values `State.reset` is written with. The spec leaves them OPEN; `State.resetWith`
takes any others. -/
def Params.chosen : Params := ⟨0, 0x100000, 0x100000, 4096⟩

end Sys2Proof.Config
end

