-- ==== Sys2Proof/Machine/State.lean ====
section
/-!
DEFINITION. The state of AIOS-CODEC as plain data: its registers (`10_state.md` R23 to R42), the ENGINE's hidden state
(R43, R44), the two buffers (R46), the pins (R22), and the model's own fields (the OPEN parameters, the HOST's
pending accesses, whose turn it is, and the draw counters). `State.reset` is the state right after power-on reset
(`70_reset_and_hazards.md` R290).
-/

namespace Sys2Proof.Machine

/-- Why a step stops. Both are raised by a HOST bus access and leave the access unapplied: safe
(`93_implementation_defined.md` I1: the hardware's response is unspecified, a model faults). -/
inductive Fault where
  /-- Raised by the bus access of a HOST turn: an access of the register region that is not 4 bytes wide at a 4-byte
  aligned offset (R64). Safe. -/
  | registerAccess
  /-- Raised by the bus access of a HOST turn: a misaligned access that reaches InBuf or OutBuf (R66). Safe. -/
  | misalignedBuffer
  deriving DecidableEq, Repr

/-- Why an instruction has no meaning. -/
inductive Refusal where
  /-- Raised by `exec`'s arm of an instruction that has no meaning yet. Safe. No arm raises it. -/
  | notModelled (mnemonic : String)
  deriving DecidableEq, Repr

/-- The status codes of R261. Every other CODE value is never produced. -/
inductive Code where
  | ok
  | emptyInput
  | partialData
  | unknownCodec
  | badMagic
  | unsupportedVersion
  | truncatedHeader
  | wrapped
  | illegalCommand
  | badConfig
  | outOverflow
  | inRange
  deriving DecidableEq, Repr

/-- The soft-failure flags, STATUS[19:16] (R28, R47). -/
structure SoftFlags where
  trunc : Bool
  badref : Bool
  lenmis : Bool
  crcmis : Bool
  deriving DecidableEq, Repr

/-- The values of LZ_WINDOW, LZ_MINMATCH, LZ_MAXMATCH and LZ_HASHLIMIT (R36 to R39, R170). -/
structure LzConfig where
  window : Word
  minMatch : Word
  maxMatch : Word
  hashLimit : Word
  deriving DecidableEq, Repr

/-- What acceptance latches (R43, R91): the command word, IN_LEN, IN and the LZ_* values. -/
structure Latched where
  word : Word
  inLen : Word
  input : List Byte
  lz : LzConfig
  deriving DecidableEq, Repr

/-- The LZSS hash-chain table (R44, R173): from a 2-byte key to its bucket of positions, oldest first. No key stands
twice. -/
abbrev HashTable := List ((Byte × Byte) × List Nat)

/-- The hidden work of the running command (R21, R44): the local variables of its loop, between two iterations. -/
inductive Work where
  /-- No iteration done. -/
  | fresh
  /-- The hash loops of R131 and R134: the next input position and the accumulator. -/
  | hashing (pos : Nat) (acc : Word)
  /-- The RLE encoder's loop (R150): the next input position and the output so far. -/
  | rleEncoding (pos : Nat) (out : List Byte)
  /-- The LZSS encoder's loop (R172): the next input position, the output so far and the hash-chain table. -/
  | lzssEncoding (pos : Nat) (out : List Byte) (table : HashTable)
  /-- The decoders' loops (R151, R180): the next input position, the output so far and the flags so far. -/
  | decoding (pos : Nat) (out : List Byte) (flags : SoftFlags)
  deriving DecidableEq, Repr

/-- A buffer's contents: (index, byte) pairs in one canonical form, indices strictly rising. A byte the list does not hold
has no value here; the accessors give it a free value (log 3). -/
abbrev Memory := List Host.Cell

/-- The canonical form of a buffer's contents. -/
def Memory.wf : Memory → Bool
  | [] => true
  | [_] => true
  | (a, _) :: (b, v) :: rest => decide (a < b) && Memory.wf ((b, v) :: rest)

/-- The size of a bus access: 1, 2 or 4 bytes (R22, R63). -/
inductive Size where
  | one
  | two
  | four
  deriving DecidableEq, Repr

/-- A bus transaction at a 22-bit window offset (R22). -/
inductive BusOp where
  | read (offset : BitVec 22) (size : Size)
  | write (offset : BitVec 22) (size : Size) (data : Word)
  deriving DecidableEq, Repr

/-- What the HOST has still to do: bus accesses, the two statements of R112 that depend on what is read, and `rst_n`. -/
inductive HostOp where
  /-- One bus access. -/
  | bus (op : BusOp)
  /-- `wait` (R112): read STATUS until BUSY reads 0. -/
  | poll
  /-- `copyout` (R112), not begun. -/
  | copyout
  /-- `copyout` with bytes `k` to `n - 1` still to copy, then IN_LEN to write. -/
  | copyFrom (k n : Nat)
  /-- The `rst_n` input driven low or released (R22, R290). -/
  | rstPin (level : Bool)
  deriving DecidableEq, Repr

/-- Who moves in a step (R78, R274). -/
inductive Turn where
  /-- The HOST does its next access. -/
  | host
  /-- The ENGINE completes the running command. -/
  | engine
  /-- The ENGINE does one iteration of the running command's loop. -/
  | engineUnit
  deriving DecidableEq, Repr

structure State where
  /-- The OPEN parameters (R6, R48), the same in every state of a run (log 2). -/
  params : Config.Params
  /-- The level of the `rst_n` input (R22). -/
  rstN : Bool
  /-- CTRL.IE (R26). -/
  ie : Bool
  /-- CMD (R27). -/
  cmd : Word
  /-- STATUS.DONE (R28). -/
  done : Bool
  /-- STATUS.WBUSY (R28). -/
  wbusy : Bool
  /-- STATUS.CODE (R28, R261). -/
  code : Code
  /-- STATUS.TRUNC, BADREF, LENMIS and CRCMIS (R28). -/
  soft : SoftFlags
  /-- IN_LEN (R29). -/
  inLen : Word
  /-- OUT_LEN (R30). -/
  outLen : Word
  /-- RESULT (R31). -/
  result : Word
  /-- FRHDR (R32). -/
  frhdr : Word
  /-- FRLEN (R33). -/
  frlen : Word
  /-- FRCRC (R34). -/
  frcrc : Word
  /-- CALCCRC (R35). -/
  calccrc : Word
  /-- LZ_WINDOW, LZ_MINMATCH, LZ_MAXMATCH and LZ_HASHLIMIT (R36 to R39). -/
  lz : LzConfig
  /-- InBuf (R68), and the draw its unlisted bytes hold (log 3). -/
  inBuf : Memory
  inDraw : Nat
  /-- OutBuf (R69), and the draw its unlisted bytes hold (log 3). -/
  outBuf : Memory
  outDraw : Nat
  /-- The ENGINE's `running`, which STATUS.BUSY mirrors (R43). -/
  running : Bool
  /-- The ENGINE's `latched` (R43). -/
  latched : Option Latched
  /-- The running command's hidden work (R21, R44). -/
  work : Work
  /-- The HOST's pending accesses, oldest first (log 4). -/
  host : List HostOp
  /-- The data of the last bus read (R22) (log 4). -/
  rdata : Option Word
  /-- Who moves in the next steps (log 1). -/
  turns : List Turn
  /-- How many draws of unspecified bytes were made: the number of the next (log 3). -/
  draws : Nat
  deriving DecidableEq, Repr

/-- No soft-failure flag. -/
def SoftFlags.none : SoftFlags := ⟨false, false, false, false⟩

/-- The LZ_* reset values (R36 to R39, R290). -/
def LzConfig.default : LzConfig :=
  ⟨Config.defaultWindow, Config.defaultMinMatch, Config.defaultMaxMatch, Config.defaultHashLimit⟩

/-- The state right after power-on reset (R290) of the block with parameters `p`. The HOST has nothing pending. -/
def State.resetWith (p : Config.Params) : State where
  params := p
  rstN := true
  ie := false
  cmd := 0
  done := false
  wbusy := false
  code := .ok
  soft := SoftFlags.none
  inLen := 0
  outLen := 0
  result := 0
  frhdr := 0
  frlen := 0
  frcrc := 0
  calccrc := 0
  lz := LzConfig.default
  inBuf := []
  inDraw := 0
  outBuf := []
  outDraw := 1
  running := false
  latched := Option.none
  work := .fresh
  host := []
  rdata := Option.none
  turns := []
  draws := 2

/-- The state right after power-on reset (R290), with the parameters of log 2. -/
def State.reset : State := State.resetWith Config.Params.chosen

end Sys2Proof.Machine
end

