-- ==== Sys2Proof/Machine/Flags.lean ====
section
/-!
DEFINITION. STATUS and its flags: the codes of `60_exceptions.md` R261, the layout of `10_state.md` R28, write-1-to-clear,
and the completion interrupt of R45 and R270.
-/

namespace Sys2Proof.Machine

/-- The code's byte in STATUS[15:8] (R261). -/
def Code.toByte : Code → Byte
  | .ok => 0x00
  | .emptyInput => 0x01
  | .partialData => 0x02
  | .unknownCodec => 0x10
  | .badMagic => 0x11
  | .unsupportedVersion => 0x12
  | .truncatedHeader => 0x13
  | .wrapped => 0x14
  | .illegalCommand => 0x20
  | .badConfig => 0x21
  | .outOverflow => 0x22
  | .inRange => 0x23

/-- The class "terminal" of R261. -/
def Code.terminal : Code → Bool
  | .ok => false
  | .emptyInput => false
  | .partialData => false
  | .unknownCodec => true
  | .badMagic => true
  | .unsupportedVersion => true
  | .truncatedHeader => true
  | .wrapped => true
  | .illegalCommand => true
  | .badConfig => true
  | .outOverflow => true
  | .inRange => true

/-- At least one of the four flags is set (R263). -/
def SoftFlags.any (f : SoftFlags) : Bool := f.trunc || f.badref || f.lenmis || f.crcmis

/-- `flags + flags` of the pseudocode: the union of two flag sets (R10). -/
def SoftFlags.union (f g : SoftFlags) : SoftFlags :=
  ⟨f.trunc || g.trunc, f.badref || g.badref, f.lenmis || g.lenmis, f.crcmis || g.crcmis⟩

/-- The sets `{TRUNC}` and `{BADREF}`. -/
def SoftFlags.truncated : SoftFlags := ⟨true, false, false, false⟩
def SoftFlags.badReference : SoftFlags := ⟨false, true, false, false⟩

/-- R263: OK with no flag, PARTIAL with at least one. -/
def codeOfFlags (f : SoftFlags) : Code := if f.any then .partialData else .ok

/-- A flag at its bit of a 32-bit register. -/
def flagAt (b : Bool) (k : Nat) : Word := (BitVec.ofBool b).setWidth 32 <<< k

/-- STATUS as the HOST reads it (R28). BUSY is the ENGINE's `running` (R43); reserved bits read 0. -/
def State.status (s : State) : Word :=
  flagAt s.running 0 ||| flagAt s.done 1 ||| flagAt s.wbusy 2 ||| (s.code.toByte.setWidth 32 <<< 8) |||
    flagAt s.soft.trunc 16 ||| flagAt s.soft.badref 17 ||| flagAt s.soft.lenmis 18 ||| flagAt s.soft.crcmis 19

/-- A write of STATUS changes only DONE and WBUSY, each cleared by a 1 (R28). -/
def State.writeStatus (s : State) (v : Word) : State :=
  { s with done := s.done && !v.getLsbD 1, wbusy := s.wbusy && !v.getLsbD 2 }

/-- A protected write while BUSY = 1 sets WBUSY and nothing else (R24, R272). -/
def State.noteWbusy (s : State) : State := { s with wbusy := true }

/-- The interrupt output, `CTRL.IE & STATUS.DONE` (R45, R270). -/
def State.irq (s : State) : Bool := s.ie && s.done

/-- CTRL as the HOST reads it: IE in bit 0, SRST and the reserved bits 0 (R26). -/
def State.ctrl (s : State) : Word := flagAt s.ie 0

end Sys2Proof.Machine
end

