-- ==== Sys2Proof/Machine/Ops.lean ====
section
/-!
DEFINITION. The operations every meaning is made of: one byte of a buffer read and written, acceptance of a command
(`30_encoding.md` R91, `60_exceptions.md` R260), completion (`finish` and `raise`, R262, the block's only way to report
a failure: it takes no trap, R268), soft reset (`70_reset_and_hazards.md` R292) and the reset the `rst_n` input holds (R290).
-/

namespace Sys2Proof.Machine

/-- The byte the list holds at an index, if it holds one. -/
def Memory.read : Memory → Nat → Option Byte
  | [], _ => none
  | (a, v) :: rest, i => if a = i then some v else Memory.read rest i

/-- The contents with one byte written; keeps the indices strictly rising. -/
def Memory.write : Memory → Nat → Byte → Memory
  | [], i, b => [(i, b)]
  | (a, v) :: rest, i, b =>
    if i < a then (i, b) :: (a, v) :: rest
    else if a = i then (i, b) :: rest
    else (a, v) :: Memory.write rest i b

/-- The contents that hold the byte string `bs` from index `i` on, and nothing else. -/
def Memory.ofBytes : Nat → List Byte → Memory
  | _, [] => []
  | i, b :: bs => (i, b) :: Memory.ofBytes (i + 1) bs

/-- `InBuf[i]`: the byte written there, or the free byte power-on reset left (R68, R290). -/
def State.inByte (s : State) (i : Nat) : Byte := (s.inBuf.read i).getD (Config.freeByte s.inDraw i)

/-- `OutBuf[i]` while BUSY = 0: the byte of the last completion's output, or a free byte (R69). -/
def State.outByte (s : State) (i : Nat) : Byte := (s.outBuf.read i).getD (Config.freeByte s.outDraw i)

/-- `InBuf[i] <- b` (R68). -/
def State.writeInByte (s : State) (i : Nat) (b : Byte) : State := { s with inBuf := s.inBuf.write i b }

/-- `InBuf[0 : IN_LEN]` (R10, R68). Where IN_LEN > IN_CAP there is no such byte string and the command that finds it so
reads none of it (R29): empty (log 11). -/
def State.inBytes (s : State) : List Byte :=
  if s.inLen.toNat ≤ s.params.inCap then (List.range s.inLen.toNat).map s.inByte else []

/-- What acceptance of word `w` latches (R91 step 5). -/
def State.latch (s : State) (w : Word) : Latched := ⟨w, s.inLen, s.inBytes, s.lz⟩

/-- Acceptance of the command word `w` (R91, R260): one atomic step. WBUSY and CTRL are unchanged. -/
def State.accept (s : State) (w : Word) : State :=
  { s with
    cmd := w
    running := true
    done := false
    code := .ok
    soft := SoftFlags.none
    outLen := 0
    result := 0
    frhdr := 0
    frlen := 0
    frcrc := 0
    calccrc := 0
    latched := some (s.latch w)
    work := .fresh }

/-- The result registers a completion names (`regs` of R10 and R262); a register not named keeps its value. -/
structure ResultRegs where
  result : Option Word := none
  frhdr : Option Word := none
  frlen : Option Word := none
  frcrc : Option Word := none
  calccrc : Option Word := none
  deriving DecidableEq, Repr

/-- No register named. -/
def ResultRegs.none : ResultRegs := {}

/-- Completion, `finish(CODE, out, regs)` with flags (R262): one atomic step. OutBuf holds `out`, and every byte of it
beyond is a fresh draw (R69). The ENGINE stops running and holds nothing (R43). -/
def State.finish (s : State) (code : Code) (out : List Byte) (flags : SoftFlags) (regs : ResultRegs) : State :=
  { s with
    outBuf := Memory.ofBytes 0 out
    outDraw := s.draws
    draws := s.draws + 1
    outLen := BitVec.ofNat 32 out.length
    result := regs.result.getD s.result
    frhdr := regs.frhdr.getD s.frhdr
    frlen := regs.frlen.getD s.frlen
    frcrc := regs.frcrc.getD s.frcrc
    calccrc := regs.calccrc.getD s.calccrc
    code := code
    soft := flags
    running := false
    latched := Option.none
    work := .fresh
    done := true }

/-- `raise CODE` (R10): completion with no output, no register and no flag. -/
def State.raise (s : State) (code : Code) : State := s.finish code [] SoftFlags.none ResultRegs.none

/-- The end of every command that has an output: OUT_OVERFLOW with nothing returned where it exceeds OUT_CAP (R265),
else completion with it. `early` are the registers named in either case (R246), `late` those named with the output. -/
def State.deliver (s : State) (out : List Byte) (flags : SoftFlags) (early late : ResultRegs) : State :=
  if s.params.outCap < out.length then s.finish .outOverflow [] SoftFlags.none early
  else s.finish (codeOfFlags flags) out flags late

/-- Soft reset (R292): every register at its R290 value, a running command aborted, OutBuf a fresh draw, InBuf kept. -/
def State.softReset (s : State) : State :=
  { State.resetWith s.params with
    rstN := s.rstN
    inBuf := s.inBuf
    inDraw := s.inDraw
    outDraw := s.draws
    draws := s.draws + 1
    host := s.host
    rdata := s.rdata
    turns := s.turns }

/-- Power-on reset (R290): as soft reset, and InBuf too is a fresh draw. -/
def State.powerOn (s : State) : State :=
  { State.resetWith s.params with
    rstN := s.rstN
    inDraw := s.draws
    outDraw := s.draws + 1
    draws := s.draws + 2
    host := s.host
    rdata := s.rdata
    turns := s.turns }

/-- The `rst_n` input (R22): driven low it puts the block into the reset state; released, the block stays there until
the first HOST access (R290). -/
def State.driveReset (s : State) (level : Bool) : State :=
  if level then { s with rstN := true } else { s.powerOn with rstN := false }

end Sys2Proof.Machine
end

