-- ==== Sys2Proof/Machine/Operands.lean ====
section
/-!
DEFINITION. Where a command's operands come from: what acceptance latched (`10_state.md` R43), the checks every command
begins with (`60_exceptions.md` R266), and the byte-string helpers of `00_scope.md` R9.
-/

namespace Sys2Proof.Machine

/-- The operands of the running command (R43). With nothing latched there is no running command; then they are what
acceptance would latch now (log 9). -/
def State.operands (s : State) : Latched := s.latched.getD (s.latch s.cmd)

/-- IN, the byte string a command reads (R10). -/
def State.input (s : State) : List Byte := s.operands.input

/-- The first check of every legal command: IN_LEN > IN_CAP is IN_RANGE (R29, R266). -/
def State.rangeStop (s : State) : Option Code :=
  if s.params.inCap < s.operands.inLen.toNat then some .inRange else none

/-- The empty-input check (R264). -/
def State.emptyStop (s : State) : Option Code := if s.input = [] then some .emptyInput else none

/-- R170, computed in unbounded integers. -/
def LzConfig.legal (c : LzConfig) (hashLimitMax : Nat) : Bool :=
  1 ≤ c.window.toNat && c.window.toNat ≤ Config.windowMax &&
    (1 ≤ c.minMatch.toNat && c.minMatch.toNat ≤ c.maxMatch.toNat && c.maxMatch.toNat ≤ c.minMatch.toNat + 15) &&
    (1 ≤ c.hashLimit.toNat && c.hashLimit.toNat ≤ hashLimitMax)

/-- The legality of the latched LZ_* values (R170, R171). -/
def State.lzLegal (s : State) : Bool := s.operands.lz.legal s.params.hashLimitMax

/-- The configuration check (R170, R266). -/
def State.configStop (s : State) : Option Code := if s.lzLegal then none else some .badConfig

/-- The code a hash command completes with before its work (R266). -/
def State.hashStop (s : State) : Option Code := s.rangeStop

/-- The code an RLE command completes with before its work: IN_RANGE, EMPTY_INPUT (R266). -/
def State.rleStop (s : State) : Option Code := s.rangeStop.or s.emptyStop

/-- The code an LZSS command completes with before its work: IN_RANGE, BAD_CONFIG, EMPTY_INPUT (R266). -/
def State.lzssStop (s : State) : Option Code := s.rangeStop.or (s.configStop.or s.emptyStop)

/-- The codecIds with an encoder and a decoder: none, rle and lzss (R107). -/
def knownCodec (codec : Byte) : Bool := codec == 0 || codec == 1 || codec == 2

/-- UNKNOWN_CODEC of the formatter (R93, R210). -/
def codecStop (codec : Byte) : Option Code := if knownCodec codec then none else some .unknownCodec

/-- The code FRAME_FMT completes with before its work: IN_RANGE, EMPTY_INPUT, UNKNOWN_CODEC, and for codec 2
BAD_CONFIG (R210, R215, R266). DEDUCED: the vectors Z27 to Z34 want BAD_CONFIG of codec 2 on an empty IN too; the order of
the rules is followed (log 23). -/
def State.formatStop (s : State) (codec : Byte) : Option Code :=
  s.rangeStop.or (s.emptyStop.or ((codecStop codec).or (if codec = 2 then s.configStop else none)))

/-- The latched minMatch, as a number (R181). -/
def State.minMatch (s : State) : Nat := s.operands.lz.minMatch.toNat

/-- Where a hash loop stands: position and accumulator; `init` before its first iteration (R131, R134). -/
def State.hashWork (s : State) (init : Word) : Nat × Word :=
  match s.work with
  | .hashing pos acc => (pos, acc)
  | _ => (0, init)

/-- Where the RLE encoder's loop stands (R150). -/
def State.rleEncWork (s : State) : Nat × List Byte :=
  match s.work with
  | .rleEncoding pos out => (pos, out)
  | _ => (0, [])

/-- Where the LZSS encoder's loop stands (R172); the table is created empty (R44). -/
def State.lzssEncWork (s : State) : Nat × List Byte × HashTable :=
  match s.work with
  | .lzssEncoding pos out table => (pos, out, table)
  | _ => (0, [], [])

/-- Where a decoder's loop stands (R151, R180); `start` is where the coded stream begins in IN. -/
def State.decodeWork (s : State) (start : Nat) : Nat × List Byte × SoftFlags :=
  match s.work with
  | .decoding pos out flags => (pos, out, flags)
  | _ => (start, [], SoftFlags.none)

/-- The effect of a whole data unit on a decoder: its two bytes consumed, its bytes appended, its flags added. -/
def State.decoded (s : State) (out : List Byte) (flags : SoftFlags) : State :=
  { s with work := .decoding ((s.decodeWork 0).1 + 2) out ((s.decodeWork 0).2.2.union flags) }

/-- `rd_le32(s, i)` (R9). -/
def rdLe32 (b : List Byte) (i : Nat) : Word := composeLe ((b.drop i).take 4)

/-- The byte at index `i` of a byte string (R9). -/
def byteAt (b : List Byte) (i : Nat) : Byte := b.getD i 0

end Sys2Proof.Machine
end

