-- ==== Sys2Proof/Machine/Bus.lean ====
section
/-!
DEFINITION. The HOST's side: the address map (`20_memory.md` R61), the registers as the bus reads and writes them
(`10_state.md` R23 to R42), one bus access of 1, 2 or 4 bytes (R62 to R71), and the HOST program statements of
`30_encoding.md` R111 and R112.
-/

namespace Sys2Proof.Machine

/-- Where the four regions of R61 begin. -/
def reservedStart : Nat := 0x001000
def inStart : Nat := 0x100000
def outStart : Nat := 0x200000
def highStart : Nat := 0x300000

/-- What stands at a window offset (R61). -/
inductive Place where
  | register
  | inBuf (i : Nat)
  | outBuf (i : Nat)
  /-- Reserved, or beyond the end of a buffer: reads 0, writes ignored (R67). -/
  | reserved
  deriving DecidableEq, Repr

/-- R61. Offsets past the window, reached only by a misaligned access at its very end, are as reserved (log 7). -/
def placeOf (p : Config.Params) (a : Nat) : Place :=
  if a < reservedStart then .register
  else if a < inStart then .reserved
  else if a < outStart then (if a - inStart < p.inCap then .inBuf (a - inStart) else .reserved)
  else if a < highStart then (if a - outStart < p.outCap then .outBuf (a - outStart) else .reserved)
  else .reserved

/-- The registers of R23, reserved offsets apart. -/
inductive Reg where
  | maxver | ctrl | cmd | status | inLen | outLen | result | frhdr | frlen | frcrc | calccrc
  | lzWindow | lzMinMatch | lzMaxMatch | lzHashLimit | incap | outcap
  deriving DecidableEq, Repr

/-- The offsets of R23. -/
def Reg.offset : Reg → Nat
  | .maxver => 0x000
  | .ctrl => 0x004
  | .cmd => 0x008
  | .status => 0x00C
  | .inLen => 0x010
  | .outLen => 0x014
  | .result => 0x018
  | .frhdr => 0x01C
  | .frlen => 0x020
  | .frcrc => 0x024
  | .calccrc => 0x028
  | .lzWindow => 0x030
  | .lzMinMatch => 0x034
  | .lzMaxMatch => 0x038
  | .lzHashLimit => 0x03C
  | .incap => 0x040
  | .outcap => 0x044

def allRegs : List Reg :=
  [.maxver, .ctrl, .cmd, .status, .inLen, .outLen, .result, .frhdr, .frlen, .frcrc, .calccrc,
   .lzWindow, .lzMinMatch, .lzMaxMatch, .lzHashLimit, .incap, .outcap]

/-- The register at an offset; none at the reserved offsets (R42). -/
def regAt (a : Nat) : Option Reg := allRegs.find? (fun r => r.offset == a)

/-- A register as the HOST reads it (R25 to R41). -/
def State.readReg (s : State) : Reg → Word
  | .maxver => Config.maxVersion.setWidth 32
  | .ctrl => s.ctrl
  | .cmd => s.cmd
  | .status => s.status
  | .inLen => s.inLen
  | .outLen => s.outLen
  | .result => s.result
  | .frhdr => s.frhdr
  | .frlen => s.frlen
  | .frcrc => s.frcrc
  | .calccrc => s.calccrc
  | .lzWindow => s.lz.window
  | .lzMinMatch => s.lz.minMatch
  | .lzMaxMatch => s.lz.maxMatch
  | .lzHashLimit => s.lz.hashLimit
  | .incap => BitVec.ofNat 32 s.params.inCap
  | .outcap => BitVec.ofNat 32 s.params.outCap

/-- A write of CTRL: SRST = 1 is the soft reset and leaves IE = 0, otherwise IE takes bit 0 (R26). -/
def State.writeCtrl (s : State) (v : Word) : State :=
  if v.getLsbD 1 then s.softReset else { s with ie := v.getLsbD 0 }

/-- A register as the HOST writes it. CMD, IN_LEN and LZ_* are protected while BUSY = 1 (R24); a write of CMD while
BUSY = 0 is accepted whatever its word (R27, R91); read-only registers ignore writes (R23). -/
def State.writeReg (s : State) (r : Reg) (v : Word) : State :=
  match r with
  | .ctrl => s.writeCtrl v
  | .status => s.writeStatus v
  | .cmd => if s.running then s.noteWbusy else s.accept v
  | .inLen => if s.running then s.noteWbusy else { s with inLen := v }
  | .lzWindow => if s.running then s.noteWbusy else { s with lz := { s.lz with window := v } }
  | .lzMinMatch => if s.running then s.noteWbusy else { s with lz := { s.lz with minMatch := v } }
  | .lzMaxMatch => if s.running then s.noteWbusy else { s with lz := { s.lz with maxMatch := v } }
  | .lzHashLimit => if s.running then s.noteWbusy else { s with lz := { s.lz with hashLimit := v } }
  | .maxver => s
  | .outLen => s
  | .result => s
  | .frhdr => s
  | .frlen => s
  | .frcrc => s
  | .calccrc => s
  | .incap => s
  | .outcap => s

def Size.bytes : Size → Nat
  | .one => 1
  | .two => 2
  | .four => 4

/-- The access is one that faults: in the register region but not an aligned 4-byte access (R64), or misaligned and
reaching a byte of a buffer (R66) (log 6, log 7). -/
def accessFault (p : Config.Params) (a : Nat) (size : Size) : Option Fault :=
  let places := (List.range size.bytes).map (fun k => placeOf p (a + k))
  if places.any (· == .register) && (size != .four || a % 4 != 0) then some .registerAccess
  else if a % size.bytes != 0 && places.any (fun q => q != .register && q != .reserved) then some .misalignedBuffer
  else none

/-- `byte_at(a)` of R63 as the HOST reads it. While BUSY = 1 a byte of OutBuf is a byte of the next draw (R71). -/
def State.byteRead (s : State) (a : Nat) : Byte :=
  match placeOf s.params a with
  | .inBuf i => s.inByte i
  | .outBuf i => if s.running then Config.freeByte s.draws i else s.outByte i
  | .register => 0
  | .reserved => 0

/-- `MemRead(a, n)` of a legal access (R62, R63); reserved register offsets read 0 (R42). -/
def State.memRead (s : State) (a : Nat) (size : Size) : Word :=
  if a < reservedStart then
    match regAt a with
    | some r => s.readReg r
    | none => 0
  else composeLe ((List.range size.bytes).map (fun k => s.byteRead (a + k)))

/-- `byte_at(a) <- b`: InBuf takes it while BUSY = 0 and sets WBUSY while BUSY = 1 (R68, R70); OutBuf and the reserved
offsets ignore it (R67, R69). -/
def State.byteWrite (s : State) (a : Nat) (b : Byte) : State :=
  match placeOf s.params a with
  | .inBuf i => if s.running then s.noteWbusy else s.writeInByte i b
  | .outBuf _ => s
  | .register => s
  | .reserved => s

/-- The bytes `a`, `a+1`, ... written in one atomic access (R63, R73). -/
def State.bytesWrite : State → Nat → List Byte → State
  | s, _, [] => s
  | s, a, b :: bs => State.bytesWrite (s.byteWrite a b) (a + 1) bs

/-- `MemWrite(a, n, v)` of a legal access (R63); reserved register offsets ignore it (R42). -/
def State.memWrite (s : State) (a : Nat) (size : Size) (v : Word) : State :=
  if a < reservedStart then
    match regAt a with
    | some r => s.writeReg r v
    | none => s
  else s.bytesWrite a ((le32 v).take size.bytes)

/-- The draw an access uses up: a read of OutBuf while BUSY = 1 takes one (R71, log 15). -/
def State.readDraws (s : State) (a : Nat) (size : Size) : Nat :=
  if s.running && (List.range size.bytes).any (fun k =>
      match placeOf s.params (a + k) with
      | .outBuf _ => true
      | .inBuf _ => false
      | .register => false
      | .reserved => false)
  then 1 else 0

/-- The state after a legal read: only the data returned to the HOST is new (R73). -/
def State.busRead (s : State) (a : Nat) (size : Size) : State :=
  { s with rdata := some (s.memRead a size), draws := s.draws + s.readDraws a size }

/-- The state after a legal write. While `rst_n` is low the block is held in the reset state (R22, log 5). -/
def State.busWrite (s : State) (a : Nat) (size : Size) (v : Word) : State :=
  if s.rstN then s.memWrite a size v else s

/-- One bus access: it faults and is not applied (R64, R66), or completes (R22). -/
def State.busAccess (s : State) : BusOp → Host.Outcome State Fault Refusal
  | .read offset size =>
    match accessFault s.params offset.toNat size with
    | some f => .fault f
    | none => .next (s.busRead offset.toNat size)
  | .write offset size v =>
    match accessFault s.params offset.toNat size with
    | some f => .fault f
    | none => .next (s.busWrite offset.toNat size v)

/-- The offset of a physical address in the block's window at BASE (R6, R60). -/
def windowOffset (p : Config.Params) (address : Nat) : Option (BitVec 22) :=
  if p.base ≤ address ∧ address < p.base + 0x400000 then some (BitVec.ofNat 22 (address - p.base)) else none

/-- `rd REG` and `wr REG, imm32` as bus transactions (R111). -/
def rdOp (r : Reg) : BusOp := .read (BitVec.ofNat 22 r.offset) .four
def wrOp (r : Reg) (v : Word) : BusOp := .write (BitVec.ofNat 22 r.offset) .four v

/-- `sb`, `sw`, `lb` and `lw` as bus transactions (R111). DESIGN CHOICE: R111 does not bound `off`, and the port carries 22
bits (R22); an access offset past the window, which a store at `off` 0x300000 or above or a load at 0x200000 or above has,
is taken modulo 2^22. R111 wants `off` of `sw` and `lw` divisible by 4; another one is the misaligned access it gives
(R64, R66) (log 22). -/
def sbOp (off : Nat) (b : Byte) : BusOp := .write (BitVec.ofNat 22 (inStart + off)) .one (b.setWidth 32)
def swOp (off : Nat) (v : Word) : BusOp := .write (BitVec.ofNat 22 (inStart + off)) .four v
def lbOp (off : Nat) : BusOp := .read (BitVec.ofNat 22 (outStart + off)) .one
def lwOp (off : Nat) : BusOp := .read (BitVec.ofNat 22 (outStart + off)) .four

/-- The HOST program statements of R111 and R112. -/
inductive HostStmt where
  | wr (r : Reg) (v : Word)
  | rd (r : Reg)
  | sb (off : Nat) (b : Byte)
  | sw (off : Nat) (v : Word)
  | lb (off : Nat)
  | lw (off : Nat)
  /-- A command mnemonic. -/
  | command (i : Instr)
  /-- `frame.fmt` without an operand: lzss. -/
  | frameFmtDefault
  | load (bytes : List Byte)
  | wait
  | ack
  | ackw
  | ie (on : Bool)
  | srst
  | copyout
  | poke (off : Nat) (b : Byte)
  deriving DecidableEq, Repr

/-- The stores of `load`: `sb 0, b0; sb 1, b1; ...` (R112); past 0x300000 bytes the offs wrap as those of `sb` (log 22). -/
def loadOps : Nat → List Byte → List HostOp
  | _, [] => []
  | k, b :: bs => .bus (sbOp k b) :: loadOps (k + 1) bs

/-- The expansion of a statement (R111, R112). A data unit is no command and issues nothing. -/
def HostStmt.expand : HostStmt → List HostOp
  | .wr r v => [.bus (wrOp r v)]
  | .rd r => [.bus (rdOp r)]
  | .sb off b => [.bus (sbOp off b)]
  | .sw off v => [.bus (swOp off v)]
  | .lb off => [.bus (lbOp off)]
  | .lw off => [.bus (lwOp off)]
  | .command i =>
    match encodeWord i with
    | some w => [.bus (wrOp .cmd w)]
    | none => []
  | .frameFmtDefault => [.bus (wrOp .cmd 0x00000230)]
  | .load bytes => loadOps 0 bytes ++ [.bus (wrOp .inLen (BitVec.ofNat 32 bytes.length))]
  | .wait => [.poll]
  | .ack => [.bus (wrOp .status 0x00000002)]
  | .ackw => [.bus (wrOp .status 0x00000004)]
  | .ie on => [.bus (wrOp .ctrl (flagAt on 0))]
  | .srst => [.bus (wrOp .ctrl 0x00000002)]
  | .copyout => [.copyout]
  | .poke off b => [.bus (sbOp off b)]

/-- A HOST program as pending accesses (R111). -/
def assemble (program : List HostStmt) : List HostOp := program.flatMap HostStmt.expand

/-- What `copyout` does after byte `k` of `n`: the next byte, or the write of IN_LEN (R112). -/
def copyNext (k n : Nat) : List HostOp :=
  if k < n then [.copyFrom k n] else [.bus (wrOp .inLen (BitVec.ofNat 32 n))]

/-- One HOST turn: its next access, if any is pending. `wait` reads STATUS and stays pending while BUSY reads 1; `copyout`
reads OUT_LEN, then reads a byte of OutBuf and has it stored in InBuf, byte by byte (R112, log 14). -/
def State.hostTurn (s : State) : Host.Outcome State Fault Refusal :=
  match s.host with
  | [] => .next s
  | .bus op :: rest => { s with host := rest }.busAccess op
  | .poll :: rest =>
    let s' := s.busRead Reg.status.offset .four
    .next { s' with host := if s.running then s.host else rest }
  | .copyout :: rest =>
    let s' := s.busRead Reg.outLen.offset .four
    .next { s' with host := copyNext 0 s.outLen.toNat ++ rest }
  | .copyFrom k n :: rest =>
    let s' := s.busRead (outStart + k) .one
    .next { s' with host := .bus (sbOp k (s.byteRead (outStart + k))) :: (copyNext (k + 1) n ++ rest) }
  | .rstPin level :: rest => .next ({ s with host := rest }.driveReset level)

end Sys2Proof.Machine
end

