-- ==== Sys2Proof/Machine/Bits.lean ====
section
/-!
DEFINITION. The 32-bit primitives of BitOps the block uses (`00_scope.md` R11): results are masked to 32 bits, and a
shift amount is 0..31, so the shifts the spec gives no result for (`93_implementation_defined.md` I5) cannot be
written.
-/

namespace Sys2Proof.Machine

def and32 (a b : Word) : Word := a &&& b
def or32 (a b : Word) : Word := a ||| b
def xor32 (a b : Word) : Word := a ^^^ b

/-- `not32(x) = 0xFFFFFFFF ^ x`. -/
def not32 (x : Word) : Word := 0xFFFFFFFF ^^^ x

/-- `(x << k) mod 2^32`. -/
def shiftLeft32 (x : Word) (k : Fin 32) : Word := x <<< k.val

/-- The logical right shift. -/
def shiftRight32 (x : Word) (k : Fin 32) : Word := x >>> k.val

/-- `(a * b) mod 2^32` (R11, R134). -/
def mul32 (a b : Word) : Word := a * b

end Sys2Proof.Machine
end

