-- ==== Sys2Proof/Machine/Hash.lean ====
section
/-!
DEFINITION. The hash commands (`40_hash.md`): CRC-32 (R130 to R133) and FNV-1a (R134, R135).
-/

namespace Sys2Proof.Machine

/-- One of the eight steps of R130. -/
def crcBit (c : Word) : Word :=
  if c.getLsbD 0 then xor32 (shiftRight32 c 1) 0xEDB88320 else shiftRight32 c 1

def crcBits : Nat → Word → Word
  | 0, c => c
  | k + 1, c => crcBits k (crcBit c)

/-- `CRC_TABLE[i]` (R130). -/
def crcTable (i : Byte) : Word := crcBits 8 (i.setWidth 32)

def crcInit : Word := 0xFFFFFFFF

/-- One table lookup per byte (R131). -/
def crcStep (c : Word) (b : Byte) : Word :=
  xor32 (crcTable ((and32 (xor32 c (b.setWidth 32)) 0xFF).setWidth 8)) (shiftRight32 c 8)

/-- The loop of R131 over the rest of the input, from accumulator `c`, and the final XOR. -/
def crcFrom (c : Word) (s : List Byte) : Word := xor32 (s.foldl crcStep c) 0xFFFFFFFF

/-- `crc32(s)` (R131). -/
def crc32 (s : List Byte) : Word := crcFrom crcInit s

def fnvInit : Word := 0x811C9DC5

/-- XOR the byte, then multiply by the prime (R134). -/
def fnvStep (h : Word) (b : Byte) : Word := mul32 (xor32 h (b.setWidth 32)) 0x01000193

/-- The loop of R134 over the rest of the input, from accumulator `h`. -/
def fnvFrom (h : Word) (s : List Byte) : Word := s.foldl fnvStep h

/-- `fnv32(s)` (R134). -/
def fnv32 (s : List Byte) : Word := fnvFrom fnvInit s

/-- CRC32 command (R133). -/
def execCrc32 (s : State) : Host.Outcome State Fault Refusal :=
  match s.hashStop with
  | some code => .next (s.raise code)
  | none =>
    let (pos, c) := s.hashWork crcInit
    .next (s.finish .ok [] SoftFlags.none { result := some (crcFrom c (s.input.drop pos)) })

/-- FNV32 command (R135). -/
def execFnv32 (s : State) : Host.Outcome State Fault Refusal :=
  match s.hashStop with
  | some code => .next (s.raise code)
  | none =>
    let (pos, h) := s.hashWork fnvInit
    .next (s.finish .ok [] SoftFlags.none { result := some (fnvFrom h (s.input.drop pos)) })

/-- One iteration of a hash loop, held in the hidden work (R21); nothing past the end of IN. -/
def State.hashIter (s : State) (init : Word) (update : Word → Byte → Word) : State :=
  let (pos, acc) := s.hashWork init
  match s.input.drop pos with
  | [] => s
  | b :: _ => { s with work := .hashing (pos + 1) (update acc b) }

end Sys2Proof.Machine
end

