-- ==== Sys2Proof/Machine/Lzss.lean ====
section
/-!
DEFINITION. The LZSS commands (`42_lzss.md`): the encoder with its hash-chain table (R172 to R178, R186), the decoder
(R180 to R184, R187) and its two data units (R100, R101). The periodic prune of R179 removes nothing and is not modelled.
-/

namespace Sys2Proof.Machine

/-- The bucket of a key: positions, oldest first (R173). -/
def HashTable.bucket : HashTable → Byte × Byte → List Nat
  | [], _ => []
  | (k, b) :: rest, key => if k = key then b else HashTable.bucket rest key

/-- A bucket with a position appended, its oldest dropped when it exceeds hashLimit (R174). -/
def pruned (hashLimit : Nat) (bucket : List Nat) : List Nat :=
  if hashLimit < bucket.length then bucket.drop 1 else bucket

/-- The table with position `p` in the bucket of `key` (R174). -/
def HashTable.insert (hashLimit : Nat) : HashTable → Byte × Byte → Nat → HashTable
  | [], key, p => [(key, pruned hashLimit [p])]
  | (k, b) :: rest, key, p =>
    if k = key then (k, pruned hashLimit (b ++ [p])) :: rest else (k, b) :: HashTable.insert hashLimit rest key p

/-- The match length L of R177 between the input from a candidate on and from the current position on: at most
maxMatch, at most to the end of the input, as far as the bytes agree. -/
def matchLength : Nat → List Byte → List Byte → Nat
  | 0, _, _ => 0
  | _ + 1, [], _ => 0
  | _ + 1, _, [] => 0
  | maxMatch + 1, x :: xs, y :: ys => if x = y then matchLength maxMatch xs ys + 1 else 0

/-- One candidate of the scan (R175, R176): within the window, and strictly longer replaces the best (length, distance). -/
def scanCandidate (cfg : LzConfig) (s : List Byte) (p : Nat) (best : Nat × Nat) (c : Nat) : Nat × Nat :=
  if 1 ≤ p - c ∧ p - c ≤ cfg.window.toNat ∧ best.1 < matchLength cfg.maxMatch.toNat (s.drop c) (s.drop p) then
    (matchLength cfg.maxMatch.toNat (s.drop c) (s.drop p), p - c)
  else best

/-- The hash key at position `p`, which exists only when p + 1 < n (R173). -/
def hashKey (s : List Byte) (p : Nat) : Option (Byte × Byte) :=
  if p + 1 < s.length then some (byteAt s p, byteAt s (p + 1)) else none

/-- The best (length, distance) at position `p`, candidates oldest first (R172, R175). -/
def bestMatch (cfg : LzConfig) (s : List Byte) (p : Nat) (table : HashTable) : Nat × Nat :=
  match hashKey s p with
  | some key => (table.bucket key).foldl (scanCandidate cfg s p) (0, 0)
  | none => (0, 0)

/-- R178: a match token is emitted when it is long enough and its first byte is not 0x00. -/
def emitsMatch (minMatch : Nat) (best : Nat × Nat) : Bool :=
  minMatch ≤ best.1 && (((best.1 - minMatch) <<< 4) ||| ((best.2 - 1) >>> 8)) != 0

/-- The token at position `p` and how many input bytes it consumes (R172, R178). -/
def tokenAt (cfg : LzConfig) (s : List Byte) (p : Nat) (table : HashTable) : List Byte × Nat :=
  let best := bestMatch cfg s p table
  if emitsMatch cfg.minMatch.toNat best then
    (matchBytes (BitVec.ofNat 4 (best.1 - cfg.minMatch.toNat)) (BitVec.ofNat 12 (best.2 - 1)), best.1)
  else ([0x00, byteAt s p], 1)

/-- The table after the token at position `p`: `p` is inserted if it has a key (R174). -/
def tableAfter (cfg : LzConfig) (s : List Byte) (p : Nat) (table : HashTable) : HashTable :=
  match hashKey s p with
  | some key => table.insert cfg.hashLimit.toNat key p
  | none => table

/-- The loop of R172 from position `p`; an iteration consumes at least one byte, so the length of the input left is fuel
enough. -/
def lzssEncLoop (cfg : LzConfig) (s : List Byte) : Nat → Nat → List Byte → HashTable → List Byte
  | 0, _, out, _ => out
  | fuel + 1, p, out, table =>
    if p < s.length then
      lzssEncLoop cfg s fuel (p + (tokenAt cfg s p table).2) (out ++ (tokenAt cfg s p table).1) (tableAfter cfg s p table)
    else out

/-- `lzss_enc(cfg, s)` (R172). -/
def lzssEnc (cfg : LzConfig) (s : List Byte) : List Byte := lzssEncLoop cfg s s.length 0 [] []

/-- The overlapping copy of R183: one byte at a time, each from `distance` before the current end. -/
def copyBack (distance : Nat) : Nat → List Byte → List Byte
  | 0, out => out
  | length + 1, out => copyBack distance length (out ++ [byteAt out (out.length - distance)])

/-- The output after a match token, or nothing where its distance reaches before the output's start (R181, R182). -/
def matchUnit (minMatch : Nat) (out : List Byte) (len : BitVec 4) (dist : BitVec 12) : Option (List Byte) :=
  if out.length < dist.toNat + 1 then none else some (copyBack (dist.toNat + 1) (len.toNat + minMatch) out)

/-- The loop of R180 over the rest of the input, from output `out`. -/
def lzssDecFrom (minMatch : Nat) : List Byte → List Byte → List Byte × SoftFlags
  | out, [] => (out, SoftFlags.none)
  | out, [_] => (out, SoftFlags.truncated)
  | out, f :: g :: rest =>
    if f = 0x00 then lzssDecFrom minMatch (out ++ [g]) rest
    else
      match matchUnit minMatch out (tokenLen f) (tokenDist f g) with
      | some out' => lzssDecFrom minMatch out' rest
      | none => (out, SoftFlags.badReference)

/-- `lzss_dec(minMatch, s)` (R180). -/
def lzssDec (minMatch : Nat) (s : List Byte) : List Byte × SoftFlags := lzssDecFrom minMatch [] s

/-- The LZSS decoder's result for the running command, from where its loop stands; after a bad reference nothing more
is decoded (R182). -/
def State.lzssDecResult (s : State) (start : Nat) : List Byte × SoftFlags :=
  let (pos, out, flags) := s.decodeWork start
  if flags.badref then (out, flags)
  else
    let (dec, more) := lzssDecFrom s.minMatch out (s.input.drop pos)
    (dec, flags.union more)

/-- The LZSS encoder's result for the running command, from where its loop stands. -/
def State.lzssEncResult (s : State) : List Byte :=
  let (pos, out, table) := s.lzssEncWork
  lzssEncLoop s.operands.lz s.input (s.input.length - pos) pos out table

/-- LZSS.ENC command (R186). -/
def execLzssEnc (s : State) : Host.Outcome State Fault Refusal :=
  match s.lzssStop with
  | some code => .next (s.raise code)
  | none => .next (s.deliver s.lzssEncResult SoftFlags.none ResultRegs.none ResultRegs.none)

/-- LZSS.DEC command (R187). -/
def execLzssDec (s : State) : Host.Outcome State Fault Refusal :=
  match s.lzssStop with
  | some code => .next (s.raise code)
  | none =>
    let (dec, flags) := s.lzssDecResult 0
    .next (s.deliver dec flags ResultRegs.none ResultRegs.none)

/-- `lzss.literal`: the ENGINE's decoder reads one literal token (R100, R180) (log 10). -/
def execLzssLiteral (value : Byte) (s : State) : Host.Outcome State Fault Refusal :=
  .next (s.decoded ((s.decodeWork 0).2.1 ++ [value]) SoftFlags.none)

/-- `lzss.match`: the ENGINE's decoder reads one match token (R101, R181 to R183) (log 10). A bad reference copies nothing
and sets BADREF (R182). -/
def execLzssMatch (len : BitVec 4) (dist : BitVec 12) (s : State) : Host.Outcome State Fault Refusal :=
  let out := (s.decodeWork 0).2.1
  .next
    (match matchUnit s.minMatch out len dist with
    | some out' => s.decoded out' SoftFlags.none
    | none => s.decoded out SoftFlags.badReference)

/-- One iteration of the encoder's loop, held in the hidden work (R21, R44); nothing past the end of IN. -/
def State.lzssEncIter (s : State) : State :=
  let (p, out, table) := s.lzssEncWork
  let cfg := s.operands.lz
  if p < s.input.length then
    { s with
      work := .lzssEncoding (p + (tokenAt cfg s.input p table).2) (out ++ (tokenAt cfg s.input p table).1)
        (tableAfter cfg s.input p table) }
  else s

end Sys2Proof.Machine
end

