-- ==== Sys2Proof/Machine/Rle.lean ====
section
/-!
DEFINITION. The RLE commands (`41_rle.md`): the encoder (R150, R153), the decoder (R151, R154) and its data unit (R99).
-/

namespace Sys2Proof.Machine

/-- How many bytes at the front of the input equal `b`, at most `limit` (the inner loop of R150). -/
def runLength (b : Byte) : Nat → List Byte → Nat
  | 0, _ => 0
  | _ + 1, [] => 0
  | limit + 1, x :: xs => if x = b then runLength b limit xs + 1 else 0

/-- The pair of the run at the front of `b :: rest`, and what is left after it: runs are split at 255 (R99, R150). -/
def rlePairOf (b : Byte) (rest : List Byte) : List Byte × List Byte :=
  ([BitVec.ofNat 8 (runLength b 254 rest + 1), b], rest.drop (runLength b 254 rest))

/-- The loop of R150 over the rest of the input, from output `out`; an iteration consumes at least one byte, so its length
is fuel enough. -/
def rleEncLoop : Nat → List Byte → List Byte → List Byte
  | 0, out, _ => out
  | _ + 1, out, [] => out
  | fuel + 1, out, b :: rest => rleEncLoop fuel (out ++ (rlePairOf b rest).1) (rlePairOf b rest).2

def rleEncFrom (out s : List Byte) : List Byte := rleEncLoop s.length out s

/-- `rle_enc(s)` (R150). -/
def rleEnc (s : List Byte) : List Byte := rleEncFrom [] s

/-- The output after one pair (R99, R151): count 0 appends nothing. -/
def rleUnit (out : List Byte) (count value : Byte) : List Byte := out ++ List.replicate count.toNat value

/-- The loop of R151 over the rest of the input, from output `out`. -/
def rleDecFrom : List Byte → List Byte → List Byte × SoftFlags
  | out, [] => (out, SoftFlags.none)
  | out, [_] => (out, SoftFlags.truncated)
  | out, count :: value :: rest => rleDecFrom (rleUnit out count value) rest

/-- `rle_dec(s)` (R151). -/
def rleDec (s : List Byte) : List Byte × SoftFlags := rleDecFrom [] s

/-- The RLE decoder's result for the running command, from where its loop stands. -/
def State.rleDecResult (s : State) (start : Nat) : List Byte × SoftFlags :=
  let (pos, out, flags) := s.decodeWork start
  let (dec, more) := rleDecFrom out (s.input.drop pos)
  (dec, flags.union more)

/-- The RLE encoder's result for the running command, from where its loop stands. -/
def State.rleEncResult (s : State) : List Byte :=
  let (pos, out) := s.rleEncWork
  rleEncFrom out (s.input.drop pos)

/-- RLE.ENC command (R153). -/
def execRleEnc (s : State) : Host.Outcome State Fault Refusal :=
  match s.rleStop with
  | some code => .next (s.raise code)
  | none => .next (s.deliver s.rleEncResult SoftFlags.none ResultRegs.none ResultRegs.none)

/-- RLE.DEC command (R154). -/
def execRleDec (s : State) : Host.Outcome State Fault Refusal :=
  match s.rleStop with
  | some code => .next (s.raise code)
  | none =>
    let (dec, flags) := s.rleDecResult 0
    .next (s.deliver dec flags ResultRegs.none ResultRegs.none)

/-- `rle.pair`: the ENGINE's decoder reads one pair (R99, R151) (log 10). -/
def execRlePair (count value : Byte) (s : State) : Host.Outcome State Fault Refusal :=
  .next (s.decoded (rleUnit (s.decodeWork 0).2.1 count value) SoftFlags.none)

/-- One iteration of the encoder's loop, held in the hidden work (R21); nothing past the end of IN. -/
def State.rleEncIter (s : State) : State :=
  let (pos, out) := s.rleEncWork
  match s.input.drop pos with
  | [] => s
  | b :: rest => { s with work := .rleEncoding (pos + 1 + runLength b 254 rest) (out ++ (rlePairOf b rest).1) }

end Sys2Proof.Machine
end

