-- ==== Sys2Proof/Machine/Frame.lean ====
section
/-!
DEFINITION. The frame commands (`43_frame.md`): the formatter (R210 to R217) and the parser (R230 to R247). The header
layouts are those of `30_encoding.md` R104 and R105.
-/

namespace Sys2Proof.Machine

/-- "AC2", "AC1", "AC2B" and "AC1B" (R104 to R106). -/
def magicCurrent : List Byte := [0x41, 0x43, 0x32]
def magicLegacy : List Byte := [0x41, 0x43, 0x31]
def prefixCurrent : List Byte := [0x41, 0x43, 0x32, 0x42]
def prefixLegacy : List Byte := [0x41, 0x43, 0x31, 0x42]

/-- The current frame of `original` with a given payload (R104, R213). -/
def frameBytes (codec : Byte) (original payload : List Byte) : List Byte :=
  magicCurrent ++ [Config.maxVersion] ++ [codec] ++ le32 (BitVec.ofNat 32 original.length) ++ le32 (crc32 original) ++ payload

/-- The payload per codec (R211). -/
def payloadOf (cfg : LzConfig) (codec : Byte) (s : List Byte) : List Byte :=
  if codec = 0 then s else if codec = 1 then rleEnc s else lzssEnc cfg s

/-- `frame_fmt(cfg, codec, s)` (R210), with the legality of cfg as an argument: the code and the frame. The order of the
checks is R210's (log 23). -/
def frameFmt (cfg : LzConfig) (lzLegal : Bool) (codec : Byte) (s : List Byte) : Code × List Byte :=
  if s = [] then (.emptyInput, [])
  else if knownCodec codec = false then (.unknownCodec, [])
  else if codec = 2 ∧ lzLegal = false then (.badConfig, [])
  else (.ok, frameBytes codec s (payloadOf cfg codec s))

/-- FRHDR's layout (R32): LEGACY in bit 16, CODEC in [15:8], VERSION in [7:0]. -/
def frhdrWord (legacy : Bool) (codec version : Byte) : Word :=
  flagAt legacy 16 ||| (codec.setWidth 32 <<< 8) ||| version.setWidth 32

/-- The payload of the running FRAME_FMT, from where its encoder's loop stands (R211). -/
def State.payloadResult (s : State) (codec : Byte) : List Byte :=
  if codec = 0 then s.input else if codec = 1 then s.rleEncResult else s.lzssEncResult

/-- FRHDR, FRLEN, FRCRC and CALCCRC of a frame made from `original` (R217). -/
def formatRegs (codec : Byte) (original : List Byte) : ResultRegs :=
  { frhdr := some (frhdrWord false codec Config.maxVersion)
    frlen := some (BitVec.ofNat 32 original.length)
    frcrc := some (crc32 original)
    calccrc := some (crc32 original) }

/-- FRAME_FMT command (R210, R217). -/
def execFrameFmt (codec : Byte) (s : State) : Host.Outcome State Fault Refusal :=
  match s.formatStop codec with
  | some code => .next (s.raise code)
  | none =>
    .next (s.deliver (frameBytes codec s.input (s.payloadResult codec)) SoftFlags.none ResultRegs.none
      (formatRegs codec s.input))

/-- A frame's header fields, `hdr` of R230. -/
structure FrameHeader where
  ver : Byte
  cid : Byte
  legacy : Bool
  olen : Word
  ocrc : Word
  deriving DecidableEq, Repr

/-- The length of the header: 13 bytes current, 12 legacy (R104, R105). -/
def headerLength (legacy : Bool) : Nat := if legacy then 12 else 13

/-- The header fields of a blob long enough for them (R239). -/
def readHeader (legacy : Bool) (b : List Byte) : FrameHeader :=
  if legacy then ⟨1, byteAt b 3, true, rdLe32 b 4, rdLe32 b 8⟩
  else ⟨byteAt b 3, byteAt b 4, false, rdLe32 b 5, rdLe32 b 9⟩

/-- Steps 1 to 6 of R230, in its order: the header of a frame whose payload is to be decoded, or the code the parser
stops with and the header if one was read. -/
def frameHead (lzLegal : Bool) (b : List Byte) : Except (Code × Option FrameHeader) FrameHeader :=
  if b = [] then .error (.emptyInput, none)
  else if 4 ≤ b.length ∧ (b.take 4 = prefixCurrent ∨ b.take 4 = prefixLegacy) then .error (.wrapped, none)
  else if b.length < 3 ∨ (b.take 3 ≠ magicCurrent ∧ b.take 3 ≠ magicLegacy) then .error (.badMagic, none)
  else
    let legacy := decide (b.take 3 = magicLegacy)
    if b.length < headerLength legacy then .error (.truncatedHeader, none)
    else
      let hdr := readHeader legacy b
      if hdr.ver = 0 ∨ Config.maxVersion < hdr.ver then .error (.unsupportedVersion, some hdr)
      else if knownCodec hdr.cid = false then .error (.unknownCodec, some hdr)
      else if hdr.cid = 2 ∧ lzLegal = false then .error (.badConfig, some hdr)
      else .ok hdr

/-- The decoded payload and the decoder's flags (R242), as a pure function of the payload. -/
def decodePayload (minMatch : Nat) (codec : Byte) (payload : List Byte) : List Byte × SoftFlags :=
  if codec = 0 then (payload, SoftFlags.none) else if codec = 1 then rleDec payload else lzssDec minMatch payload

/-- LENMIS and CRCMIS of a decoded payload (R245): both checks are always made. -/
def verifyFlags (hdr : FrameHeader) (dec : List Byte) : SoftFlags :=
  ⟨false, false, decide (dec.length ≠ hdr.olen.toNat), decide (crc32 dec ≠ hdr.ocrc)⟩

/-- The result `(CODE, dec, flags, hdr)` of R230. -/
structure ParseResult where
  code : Code
  dec : List Byte
  flags : SoftFlags
  hdr : Option FrameHeader
  deriving DecidableEq, Repr

/-- `frame_parse(cfg, b)` (R230), with the legality of cfg and its minMatch as arguments. -/
def frameParse (lzLegal : Bool) (minMatch : Nat) (b : List Byte) : ParseResult :=
  match frameHead lzLegal b with
  | .error (code, hdr) => ⟨code, [], SoftFlags.none, hdr⟩
  | .ok hdr =>
    let (dec, flags) := decodePayload minMatch hdr.cid (b.drop (headerLength hdr.legacy))
    let all := flags.union (verifyFlags hdr dec)
    ⟨codeOfFlags all, dec, all, some hdr⟩

/-- FRHDR, FRLEN and FRCRC, once a complete header has been read (R246). -/
def headerRegs (hdr : FrameHeader) : ResultRegs :=
  { frhdr := some (frhdrWord hdr.legacy hdr.cid hdr.ver), frlen := some hdr.olen, frcrc := some hdr.ocrc }

def headerRegsOf : Option FrameHeader → ResultRegs
  | none => ResultRegs.none
  | some hdr => headerRegs hdr

/-- The decoded payload of the running FRAME_PARSE, from where its decoder's loop stands (R242). -/
def State.decodeResult (s : State) (hdr : FrameHeader) : List Byte × SoftFlags :=
  let start := headerLength hdr.legacy
  if hdr.cid = 0 then (s.input.drop start, SoftFlags.none)
  else if hdr.cid = 1 then s.rleDecResult start
  else s.lzssDecResult start

/-- FRAME_PARSE command (R230, R247). -/
def execFrameParse (s : State) : Host.Outcome State Fault Refusal :=
  match s.rangeStop with
  | some code => .next (s.raise code)
  | none =>
    match frameHead s.lzLegal s.input with
    | .error (code, hdr) => .next (s.finish code [] SoftFlags.none (headerRegsOf hdr))
    | .ok hdr =>
      let (dec, flags) := s.decodeResult hdr
      .next (s.deliver dec (flags.union (verifyFlags hdr dec)) (headerRegs hdr)
        { headerRegs hdr with calccrc := some (crc32 dec) })

end Sys2Proof.Machine
end

