-- ==== Sys2Proof/Machine/System.lean ====
section
/-!
DEFINITION. The command words that are no command (`30_encoding.md` R94, R95).
-/

namespace Sys2Proof.Machine

/-- An illegal word does nothing but complete with ILLEGAL_COMMAND, before any other check (R94, R95, R266). The fields
do not matter. -/
def execIllegal (_opcode _codec : Byte) (_rsvd : BitVec 16) (s : State) : Host.Outcome State Fault Refusal :=
  .next (s.raise .illegalCommand)

end Sys2Proof.Machine
end

