-- ==== Sys2Proof/Machine/Dispatch.lean ====
section
/-!
DEFINITION. From an instruction to its meaning: one arm per constructor of `Instr`.
-/

namespace Sys2Proof.Machine

def exec (i : Instr) (s : State) : Host.Outcome State Fault Refusal :=
  match i with
  | .crc32 => Sys2Proof.Machine.execCrc32 s
  | .fnv32 => Sys2Proof.Machine.execFnv32 s
  | .rleEnc => Sys2Proof.Machine.execRleEnc s
  | .rleDec => Sys2Proof.Machine.execRleDec s
  | .lzssEnc => Sys2Proof.Machine.execLzssEnc s
  | .lzssDec => Sys2Proof.Machine.execLzssDec s
  | .frameFmt codec => Sys2Proof.Machine.execFrameFmt codec s
  | .frameParse => Sys2Proof.Machine.execFrameParse s
  | .illegal opcode codec rsvd => Sys2Proof.Machine.execIllegal opcode codec rsvd s
  | .lzssLiteral value => Sys2Proof.Machine.execLzssLiteral value s
  | .lzssMatch len dist => Sys2Proof.Machine.execLzssMatch len dist s
  | .rlePair count value => Sys2Proof.Machine.execRlePair count value s

end Sys2Proof.Machine
end

