-- ==== Sys2Proof/Machine/Progress.lean ====
section
/-!
DEFINITION. The ENGINE before it completes: one iteration of the running command's loop (`10_state.md` R21, R43, R44;
`60_exceptions.md` R274). Nothing of it is observable (`20_memory.md` R78): it changes only the hidden work. A decoder's
iteration reads one data unit, which is fetched and decoded here and executed by `exec`.
-/

namespace Sys2Proof.Machine

/-- The word the ENGINE executes (R43). -/
def State.currentInstr (s : State) : Instr := decodeWord s.operands.word

/-- A coded stream the running command decodes: its format, and where it begins in IN. None for a command that decodes
none, and for one that will complete with a code before decoding (R151, R180, R242). -/
def State.codedStream (s : State) : Option (Context × Nat) :=
  match s.currentInstr with
  | .rleDec => if s.rleStop = none then some (.rleStream, 0) else none
  | .lzssDec => if s.lzssStop = none then some (.lzssStream, 0) else none
  | .frameParse =>
    match s.rangeStop, frameHead s.lzLegal s.input with
    | none, .ok hdr =>
      if hdr.cid = 1 then some (.rleStream, headerLength hdr.legacy)
      else if hdr.cid = 2 then some (.lzssStream, headerLength hdr.legacy)
      else none
    | _, _ => none
  | _ => none

/-- The next data unit of the running decoder: the two bytes at its input position (R99, R103). None before it has begun,
where fewer than two bytes are left (R151, R184), and after a bad reference (R182). -/
def State.nextUnit (s : State) : Option Instr :=
  match s.codedStream, s.work with
  | some (ctx, _), .decoding pos _ flags =>
    if flags.badref then none else (decodeBytes ctx ((s.input.drop pos).take 2)).toOption
  | _, _ => none

/-- A decoder that has not begun takes its position at the start of its stream; one that has begun is left as it is. -/
def State.beginDecode (s : State) (start : Nat) : State :=
  match s.work with
  | .decoding _ _ _ => s
  | _ => { s with work := .decoding start [] SoftFlags.none }

/-- One iteration of a loop that reads no data unit: a byte hashed (R131, R134), a pair or a token emitted (R150,
R172), or a decoder begun. A command that will complete with a code has none. -/
def State.progress (s : State) : State :=
  match s.currentInstr with
  | .crc32 => if s.hashStop = none then s.hashIter crcInit crcStep else s
  | .fnv32 => if s.hashStop = none then s.hashIter fnvInit fnvStep else s
  | .rleEnc => if s.rleStop = none then s.rleEncIter else s
  | .lzssEnc => if s.lzssStop = none then s.lzssEncIter else s
  | .frameFmt codec =>
    if s.formatStop codec = none then
      (if codec = 1 then s.rleEncIter else if codec = 2 then s.lzssEncIter else s)
    else s
  | _ =>
    match s.codedStream with
    | some (_, start) => s.beginDecode start
    | none => s

end Sys2Proof.Machine
end

