-- ==== Sys2Proof/Machine/Step.lean ====
section
/-!
DEFINITION. One step of the block with its HOST (`20_memory.md` R73, R77, R78; `60_exceptions.md` R274): the agent whose turn
it is does one access, completes its command, or does one iteration of its loop.
-/

namespace Sys2Proof.Machine

/-- Whose turn it is, and the state with that turn taken. Where the list says nothing, a running command completes and
otherwise the HOST moves (log 1). -/
def State.takeTurn (s : State) : Turn × State :=
  match s.turns with
  | t :: rest => (t, { s with turns := rest })
  | [] => (if s.running then .engine else .host, s)

/-- The ENGINE's completion of the running command, one step (R78). -/
def State.engineTurn (s : State) : Host.Outcome State Fault Refusal :=
  if s.running then exec s.currentInstr s else .next s

/-- One iteration of the running command's loop (R78): a decoder's data unit, or an iteration of another loop. -/
def State.unitTurn (s : State) : Host.Outcome State Fault Refusal :=
  if s.running then
    match s.nextUnit with
    | some i => exec i s
    | none => .next s.progress
  else .next s

def step (s : State) : Host.Outcome State Fault Refusal :=
  match s.takeTurn with
  | (.host, s') => s'.hostTurn
  | (.engine, s') => s'.engineTurn
  | (.engineUnit, s') => s'.unitTurn

/-- A data unit placed where the ENGINE reads its next one: it is the whole of IN, and an `lzss.dec` of it has been
accepted and begun (log 12). -/
def State.withDataUnit (s : State) (unit : List Byte) : State :=
  let placed :=
    { (s.writeInByte 0 (byteAt unit 0)).writeInByte 1 (byteAt unit 1) with
      rstN := true, inLen := 2, lz := LzConfig.default }
  { placed.accept 0x00000021 with work := .decoding 0 [] SoftFlags.none }

/-- The state whose very next step runs the instruction with word `w` (log 13). A 32-bit row is a command: its word is
accepted as a CMD write accepts it (R91). A 16-bit row is a data unit. The turn is the ENGINE's. -/
def State.withFetchWord (s : State) (nbits w : Nat) : State :=
  if nbits = 16 then { s.withDataUnit (unitBytes w) with turns := .engineUnit :: s.turns }
  else { s.accept (BitVec.ofNat 32 w) with rstN := true, turns := .engine :: s.turns }

end Sys2Proof.Machine
end

