-- ==== Sys2Proof/Safety.lean ====
section
/-!
DEFINITION. The terms the statements are written in: what a completion is (`60_exceptions.md` R262), what a data unit may
change, which HOST accesses are legal (`20_memory.md` R64 to R66), and the invariant of the block.
-/

namespace Sys2Proof.Machine

/-- `t` is `s` after a completion with `code`, `out`, `flags` and `regs` (R262): what it writes, what it leaves as it was,
and every byte of both buffers. Bytes of OutBuf beyond `out` are those of a fresh draw (R69, log 3). -/
structure Completes (s t : State) (code : Code) (out : List Byte) (flags : SoftFlags) (regs : ResultRegs) : Prop where
  out_bytes : ∀ i, i < out.length → t.outByte i = byteAt out i
  out_rest : ∀ i, out.length ≤ i → t.outByte i = Config.freeByte s.draws i
  out_len : t.outLen = BitVec.ofNat 32 out.length
  result : t.result = regs.result.getD s.result
  frhdr : t.frhdr = regs.frhdr.getD s.frhdr
  frlen : t.frlen = regs.frlen.getD s.frlen
  frcrc : t.frcrc = regs.frcrc.getD s.frcrc
  calccrc : t.calccrc = regs.calccrc.getD s.calccrc
  code : t.code = code
  soft : t.soft = flags
  running : t.running = false
  latched : t.latched = none
  done : t.done = true
  in_bytes : ∀ i, t.inByte i = s.inByte i
  cmd : t.cmd = s.cmd
  in_len : t.inLen = s.inLen
  ie : t.ie = s.ie
  lz : t.lz = s.lz
  wbusy : t.wbusy = s.wbusy
  params : t.params = s.params
  pins : t.rstN = s.rstN
  host : t.host = s.host
  rdata : t.rdata = s.rdata

/-- The output bytes a HOST reads after a completion: `OutBuf[0 : OUT_LEN]` (R69, R72). -/
def State.outBytes (s : State) : List Byte := (List.range s.outLen.toNat).map s.outByte

/-- The bytes of a current and of a legacy frame with the given header fields (R104, R105). -/
def currentFrame (ver cid : Byte) (olen ocrc : Word) (payload : List Byte) : List Byte :=
  [0x41, 0x43, 0x32, ver, cid] ++ le32 olen ++ le32 ocrc ++ payload
def legacyFrame (cid : Byte) (olen ocrc : Word) (payload : List Byte) : List Byte :=
  [0x41, 0x43, 0x31, cid] ++ le32 olen ++ le32 ocrc ++ payload

/-- `t` is `s` but for the hidden work of the running command (R21, R44, R78). -/
def OnlyWorkDiffers (s t : State) : Prop := t = { s with work := t.work }

/-- The eight legal commands (R92). -/
def isCommand : Instr → Bool
  | .crc32 => true
  | .fnv32 => true
  | .rleEnc => true
  | .rleDec => true
  | .lzssEnc => true
  | .lzssDec => true
  | .frameFmt _ => true
  | .frameParse => true
  | .illegal _ _ _ => false
  | .lzssLiteral _ => false
  | .lzssMatch _ _ => false
  | .rlePair _ _ => false

/-- The access does not fault (R64, R66). -/
def BusOp.legal (p : Config.Params) : BusOp → Bool
  | .read offset size => accessFault p offset.toNat size == none
  | .write offset size _ => accessFault p offset.toNat size == none

/-- The HOST's next access does not fault: a safe step is one that is not a fault. -/
def State.nextAccessLegal (s : State) : Bool :=
  match s.host with
  | .bus op :: _ => op.legal s.params
  | _ => true

/-- Every index of a buffer's contents is below its capacity. -/
def Memory.below (cap : Nat) (m : Memory) : Bool := m.all (fun cell => decide (cell.1 < cap))

/-- What holds at reset and is kept by every step. -/
structure State.Inv (s : State) : Prop where
  /-- The parameters are in their ranges (R6). -/
  params : s.params.Legal
  /-- Both buffers are in canonical form and inside their capacities (R46). -/
  in_wf : s.inBuf.wf = true
  out_wf : s.outBuf.wf = true
  in_below : s.inBuf.below s.params.inCap = true
  out_below : s.outBuf.below s.params.outCap = true
  /-- Something is latched exactly while a command runs, and the latched values equal the registers' (R43). -/
  idle_latched : s.running = false → s.latched = none
  busy_latched : s.running = true → s.latched = some (s.latch s.cmd)
  /-- No work outlives its command (R44). -/
  idle_work : s.running = false → s.work = .fresh
  /-- What the HOST reads while a command runs are the acceptance values (R260, R71). -/
  busy_done : s.running = true → s.done = false ∧ s.code = .ok ∧ s.soft = SoftFlags.none
  busy_results : s.running = true → s.outLen = 0 ∧ s.result = 0 ∧ s.frhdr = 0 ∧ s.frlen = 0 ∧ s.frcrc = 0 ∧ s.calccrc = 0
  /-- OUT_LEN never exceeds OUT_CAP (R30). -/
  out_len : s.outLen.toNat ≤ s.params.outCap
  /-- CODE = PARTIAL exactly when a soft-failure flag is set (R263). -/
  partial_iff : s.code = .partialData ↔ s.soft.any = true
  /-- A terminal code comes with OUT_LEN = 0 (R261). -/
  terminal : s.code.terminal = true → s.outLen = 0
  /-- While `rst_n` is low the block is in the reset state (R22, R290). -/
  held : s.rstN = false →
    s = { State.resetWith s.params with
      rstN := false, inDraw := s.inDraw, outDraw := s.outDraw, host := s.host, rdata := s.rdata, turns := s.turns,
      draws := s.draws }
  /-- The buffers' draws are draws already made, and not the same one (log 3). -/
  draws : s.inDraw < s.draws ∧ s.outDraw < s.draws ∧ s.inDraw ≠ s.outDraw

end Sys2Proof.Machine
end

