-- ==== Sys2Proof/Certificates/Slice0/Obligations.lean ====
section
/-!
DEFINITION. The statements about the model, for the provers. Each docstring says which rule of the spec it formalises, and
which clause, if any, is the model's own choice.
-/

open Sys2Proof Sys2Proof.Machine

/-! ## Encoding -/

/-- Decode and encode agree, with every operand at every value the encoding admits (`30_encoding.md` sections 1 and 2). -/
def Obligations.DecodeOfEncodeIsIdentity : Prop :=
  ∀ i : Instr, i.wf = true → decodeBytes i.context (encode i) = .ok i

/-- R96: every command word is one of the eight legal commands, and then it is that command's word, or it is illegal. -/
def Obligations.EveryWordIsLegalOrIllegal : Prop :=
  ∀ w : Word,
    (isCommand (decodeWord w) = true ∧ encodeWord (decodeWord w) = some w ∧
      legalFields (opcodeField w) (codecField w) (rsvdField w) = true) ∨
    (decodeWord w = .illegal (opcodeField w) (codecField w) (rsvdField w) ∧
      legalFields (opcodeField w) (codecField w) (rsvdField w) = false)

/-- R103, with the fields of R101: a unit is two bytes; first byte 0x00 is a literal; any other is a match whose LEN is
`code >> 12` and whose DIST is `code & 0xFFF` for `code = (byte0 << 8) | byte1`. -/
def Obligations.FirstByteTellsLiteralFromMatch : Prop :=
  (∀ bs i, decodeBytes .lzssStream bs = .ok i → bs.length = 2) ∧
  (∀ g : Byte, decodeBytes .lzssStream [0x00, g] = .ok (.lzssLiteral g)) ∧
  (∀ f g : Byte, f ≠ 0x00 → ∃ len dist, decodeBytes .lzssStream [f, g] = .ok (.lzssMatch len dist) ∧
    len.toNat = (f.toNat * 256 + g.toNat) / 4096 ∧ dist.toNat = (f.toNat * 256 + g.toNat) % 4096)

/-- Words of `opcode_table.json` written out from the spec's encodings. -/
def Obligations.WordsOfTheTableDecode : Prop :=
  decodeWord 0x00000001 = .crc32 ∧ decodeWord 0x00000011 = .rleDec ∧ decodeWord 0x00000020 = .lzssEnc ∧
  decodeWord 0x00000230 = .frameFmt 2 ∧ decodeWord 0x00000031 = .frameParse ∧
  decodeWord 0x00010030 = .illegal 0x30 0x00 0x0001 ∧ decodeLzss 0x10 0x03 = .lzssMatch 1 3

/-! ## Completion of each instruction -/

/-- R133, with the update of R131 written out: RESULT is the CRC-32 of IN, with no output and no flag. That `Completes`
also makes every byte of OutBuf a fresh draw is the model's reading of R69 and I4 over R136's "nor writes OutBuf" (log 16,
DEDUCED). -/
def Obligations.Crc32CommandReturnsTheCrc : Prop :=
  ∀ s : State, s.work = .fresh → s.operands.inLen.toNat ≤ s.params.inCap →
    ∃ t, exec .crc32 s = .next t ∧
      Completes s t .ok [] SoftFlags.none
        { result := some ((s.input.foldl
            (fun (c : Word) (b : Byte) => crcTable ((c ^^^ b.setWidth 32).setWidth 8) ^^^ (c >>> 8))
            (0xFFFFFFFF : Word)) ^^^ 0xFFFFFFFF) }

/-- R130: the table computed by the loop is the table the spec prints. -/
def Obligations.CrcTableIsThePrintedTable : Prop :=
  (List.range 256).map (fun i => crcTable (BitVec.ofNat 8 i)) =
    ([0x00000000, 0x77073096, 0xEE0E612C, 0x990951BA, 0x076DC419, 0x706AF48F, 0xE963A535, 0x9E6495A3,
      0x0EDB8832, 0x79DCB8A4, 0xE0D5E91E, 0x97D2D988, 0x09B64C2B, 0x7EB17CBD, 0xE7B82D07, 0x90BF1D91,
      0x1DB71064, 0x6AB020F2, 0xF3B97148, 0x84BE41DE, 0x1ADAD47D, 0x6DDDE4EB, 0xF4D4B551, 0x83D385C7,
      0x136C9856, 0x646BA8C0, 0xFD62F97A, 0x8A65C9EC, 0x14015C4F, 0x63066CD9, 0xFA0F3D63, 0x8D080DF5] : List Word) ++
    ([0x3B6E20C8, 0x4C69105E, 0xD56041E4, 0xA2677172, 0x3C03E4D1, 0x4B04D447, 0xD20D85FD, 0xA50AB56B,
      0x35B5A8FA, 0x42B2986C, 0xDBBBC9D6, 0xACBCF940, 0x32D86CE3, 0x45DF5C75, 0xDCD60DCF, 0xABD13D59,
      0x26D930AC, 0x51DE003A, 0xC8D75180, 0xBFD06116, 0x21B4F4B5, 0x56B3C423, 0xCFBA9599, 0xB8BDA50F,
      0x2802B89E, 0x5F058808, 0xC60CD9B2, 0xB10BE924, 0x2F6F7C87, 0x58684C11, 0xC1611DAB, 0xB6662D3D] : List Word) ++
    ([0x76DC4190, 0x01DB7106, 0x98D220BC, 0xEFD5102A, 0x71B18589, 0x06B6B51F, 0x9FBFE4A5, 0xE8B8D433,
      0x7807C9A2, 0x0F00F934, 0x9609A88E, 0xE10E9818, 0x7F6A0DBB, 0x086D3D2D, 0x91646C97, 0xE6635C01,
      0x6B6B51F4, 0x1C6C6162, 0x856530D8, 0xF262004E, 0x6C0695ED, 0x1B01A57B, 0x8208F4C1, 0xF50FC457,
      0x65B0D9C6, 0x12B7E950, 0x8BBEB8EA, 0xFCB9887C, 0x62DD1DDF, 0x15DA2D49, 0x8CD37CF3, 0xFBD44C65] : List Word) ++
    ([0x4DB26158, 0x3AB551CE, 0xA3BC0074, 0xD4BB30E2, 0x4ADFA541, 0x3DD895D7, 0xA4D1C46D, 0xD3D6F4FB,
      0x4369E96A, 0x346ED9FC, 0xAD678846, 0xDA60B8D0, 0x44042D73, 0x33031DE5, 0xAA0A4C5F, 0xDD0D7CC9,
      0x5005713C, 0x270241AA, 0xBE0B1010, 0xC90C2086, 0x5768B525, 0x206F85B3, 0xB966D409, 0xCE61E49F,
      0x5EDEF90E, 0x29D9C998, 0xB0D09822, 0xC7D7A8B4, 0x59B33D17, 0x2EB40D81, 0xB7BD5C3B, 0xC0BA6CAD] : List Word) ++
    ([0xEDB88320, 0x9ABFB3B6, 0x03B6E20C, 0x74B1D29A, 0xEAD54739, 0x9DD277AF, 0x04DB2615, 0x73DC1683,
      0xE3630B12, 0x94643B84, 0x0D6D6A3E, 0x7A6A5AA8, 0xE40ECF0B, 0x9309FF9D, 0x0A00AE27, 0x7D079EB1,
      0xF00F9344, 0x8708A3D2, 0x1E01F268, 0x6906C2FE, 0xF762575D, 0x806567CB, 0x196C3671, 0x6E6B06E7,
      0xFED41B76, 0x89D32BE0, 0x10DA7A5A, 0x67DD4ACC, 0xF9B9DF6F, 0x8EBEEFF9, 0x17B7BE43, 0x60B08ED5] : List Word) ++
    ([0xD6D6A3E8, 0xA1D1937E, 0x38D8C2C4, 0x4FDFF252, 0xD1BB67F1, 0xA6BC5767, 0x3FB506DD, 0x48B2364B,
      0xD80D2BDA, 0xAF0A1B4C, 0x36034AF6, 0x41047A60, 0xDF60EFC3, 0xA867DF55, 0x316E8EEF, 0x4669BE79,
      0xCB61B38C, 0xBC66831A, 0x256FD2A0, 0x5268E236, 0xCC0C7795, 0xBB0B4703, 0x220216B9, 0x5505262F,
      0xC5BA3BBE, 0xB2BD0B28, 0x2BB45A92, 0x5CB36A04, 0xC2D7FFA7, 0xB5D0CF31, 0x2CD99E8B, 0x5BDEAE1D] : List Word) ++
    ([0x9B64C2B0, 0xEC63F226, 0x756AA39C, 0x026D930A, 0x9C0906A9, 0xEB0E363F, 0x72076785, 0x05005713,
      0x95BF4A82, 0xE2B87A14, 0x7BB12BAE, 0x0CB61B38, 0x92D28E9B, 0xE5D5BE0D, 0x7CDCEFB7, 0x0BDBDF21,
      0x86D3D2D4, 0xF1D4E242, 0x68DDB3F8, 0x1FDA836E, 0x81BE16CD, 0xF6B9265B, 0x6FB077E1, 0x18B74777,
      0x88085AE6, 0xFF0F6A70, 0x66063BCA, 0x11010B5C, 0x8F659EFF, 0xF862AE69, 0x616BFFD3, 0x166CCF45] : List Word) ++
    ([0xA00AE278, 0xD70DD2EE, 0x4E048354, 0x3903B3C2, 0xA7672661, 0xD06016F7, 0x4969474D, 0x3E6E77DB,
      0xAED16A4A, 0xD9D65ADC, 0x40DF0B66, 0x37D83BF0, 0xA9BCAE53, 0xDEBB9EC5, 0x47B2CF7F, 0x30B5FFE9,
      0xBDBDF21C, 0xCABAC28A, 0x53B39330, 0x24B4A3A6, 0xBAD03605, 0xCDD70693, 0x54DE5729, 0x23D967BF,
      0xB3667A2E, 0xC4614AB8, 0x5D681B02, 0x2A6F2B94, 0xB40BBE37, 0xC30C8EA1, 0x5A05DF1B, 0x2D02EF8D] : List Word)

/-- R135, with the update of R134 written out: RESULT is the FNV-1a hash of IN, with no output and no flag. That
`Completes` also makes every byte of OutBuf a fresh draw is the model's reading of R69 and I4 over R136's "nor writes
OutBuf" (log 16, DEDUCED). -/
def Obligations.Fnv32CommandReturnsTheHash : Prop :=
  ∀ s : State, s.work = .fresh → s.operands.inLen.toNat ≤ s.params.inCap →
    ∃ t, exec .fnv32 s = .next t ∧
      Completes s t .ok [] SoftFlags.none
        { result := some (s.input.foldl (fun (h : Word) (b : Byte) => (h ^^^ b.setWidth 32) * 0x01000193)
            (0x811C9DC5 : Word)) }

/-- R153: a non-empty IN whose encoding fits is encoded. -/
def Obligations.RleEncodeCommandDelivers : Prop :=
  ∀ s : State, s.work = .fresh → s.operands.inLen.toNat ≤ s.params.inCap → s.input ≠ [] →
    (rleEnc s.input).length ≤ s.params.outCap →
    ∃ t, exec .rleEnc s = .next t ∧ Completes s t .ok (rleEnc s.input) SoftFlags.none ResultRegs.none

/-- R154: a non-empty IN whose decoding fits is decoded, with OK or PARTIAL as its flags say. -/
def Obligations.RleDecodeCommandDelivers : Prop :=
  ∀ s : State, s.work = .fresh → s.operands.inLen.toNat ≤ s.params.inCap → s.input ≠ [] →
    (rleDec s.input).1.length ≤ s.params.outCap →
    ∃ t, exec .rleDec s = .next t ∧
      Completes s t (if (rleDec s.input).2 = SoftFlags.none then .ok else .partialData) (rleDec s.input).1
        (rleDec s.input).2 ResultRegs.none

/-- R186: under a legal configuration a non-empty IN whose encoding fits is encoded. -/
def Obligations.LzssEncodeCommandDelivers : Prop :=
  ∀ s : State, s.work = .fresh → s.operands.inLen.toNat ≤ s.params.inCap → s.lzLegal = true → s.input ≠ [] →
    (lzssEnc s.operands.lz s.input).length ≤ s.params.outCap →
    ∃ t, exec .lzssEnc s = .next t ∧
      Completes s t .ok (lzssEnc s.operands.lz s.input) SoftFlags.none ResultRegs.none

/-- R187: under a legal configuration a non-empty IN whose decoding fits is decoded, with OK or PARTIAL as its flags
say. -/
def Obligations.LzssDecodeCommandDelivers : Prop :=
  ∀ s : State, s.work = .fresh → s.operands.inLen.toNat ≤ s.params.inCap → s.lzLegal = true → s.input ≠ [] →
    (lzssDec s.minMatch s.input).1.length ≤ s.params.outCap →
    ∃ t, exec .lzssDec s = .next t ∧
      Completes s t (if (lzssDec s.minMatch s.input).2 = SoftFlags.none then .ok else .partialData)
        (lzssDec s.minMatch s.input).1 (lzssDec s.minMatch s.input).2 ResultRegs.none

/-- R217 with R210, R211 and R213 written out: the frame's bytes and the four FR registers. -/
def Obligations.FrameFormatCommandDelivers : Prop :=
  ∀ (s : State) (codec : Byte) (payload : List Byte), s.work = .fresh → s.operands.inLen.toNat ≤ s.params.inCap →
    s.input ≠ [] →
    ((codec = 0 ∧ payload = s.input) ∨ (codec = 1 ∧ payload = rleEnc s.input) ∨
      (codec = 2 ∧ s.lzLegal = true ∧ payload = lzssEnc s.operands.lz s.input)) →
    13 + payload.length ≤ s.params.outCap →
    ∃ t, exec (.frameFmt codec) s = .next t ∧
      Completes s t .ok
        ([0x41, 0x43, 0x32, 0x02, codec] ++ le32 (BitVec.ofNat 32 s.input.length) ++ le32 (crc32 s.input) ++ payload)
        SoftFlags.none
        { frhdr := some ((codec.setWidth 32 <<< 8) ||| 0x00000002)
          frlen := some (BitVec.ofNat 32 s.input.length)
          frcrc := some (crc32 s.input)
          calccrc := some (crc32 s.input) }

/-- R247 with R246: FRAME_PARSE completes with the result of `frame_parse` (R230); FRHDR, FRLEN and FRCRC are set once a
header was read, CALCCRC only on OK and PARTIAL, and a decoded payload that does not fit is OUT_OVERFLOW. -/
def Obligations.FrameParseCommandDelivers : Prop :=
  ∀ s : State, s.work = .fresh → s.operands.inLen.toNat ≤ s.params.inCap →
    ∃ t, exec .frameParse s = .next t ∧
      (let r := frameParse s.lzLegal s.minMatch s.input
       let regs := headerRegsOf r.hdr
       if r.code ≠ .ok ∧ r.code ≠ .partialData then Completes s t r.code [] SoftFlags.none regs
       else if s.params.outCap < r.dec.length then Completes s t .outOverflow [] SoftFlags.none regs
       else Completes s t r.code r.dec r.flags { regs with calccrc := some (crc32 r.dec) })

/-- R94 and R95. A word with CMD[31:16] != 0, or with CMD[15:8] != 0 for an OPCODE other than 0x30, and a word with an
unlisted OPCODE is illegal; an illegal word does nothing but complete with ILLEGAL_COMMAND (0x20), whatever IN_LEN, with no
output, and every result register 0, as its acceptance left them. -/
def Obligations.IllegalWordsCompleteWithIllegalCommand : Prop :=
  ∀ (s : State) (w : Word),
    (rsvdField w ≠ 0 ∨ (codecField w ≠ 0 ∧ opcodeField w ≠ 0x30) ∨
      opcodeField w ∉ [0x01, 0x02, 0x10, 0x11, 0x20, 0x21, 0x30, 0x31]) →
    ∃ t, exec (decodeWord w) (s.accept w) = .next t ∧
      Completes (s.accept w) t .illegalCommand [] SoftFlags.none ResultRegs.none ∧ t.code.toByte = 0x20 ∧
      t.outLen = 0 ∧ t.result = 0 ∧ t.frhdr = 0 ∧ t.frlen = 0 ∧ t.frcrc = 0 ∧ t.calccrc = 0

/-- R99, R100, R101, R151, R180 to R183: what a data unit does to a decoder in the middle of its stream. Its two bytes are
consumed, its bytes are appended, and nothing else of the state changes. That a data unit is executed by itself is the
model's reading of the table's last three rows (log 10). -/
def Obligations.DataUnitsExtendTheDecodedOutput : Prop :=
  ∀ (s : State) (pos : Nat) (out : List Byte) (flags : SoftFlags), s.work = .decoding pos out flags →
    (∀ count value : Byte, exec (.rlePair count value) s =
      .next { s with work := .decoding (pos + 2) (out ++ List.replicate count.toNat value) flags }) ∧
    (∀ b : Byte, exec (.lzssLiteral b) s = .next { s with work := .decoding (pos + 2) (out ++ [b]) flags }) ∧
    (∀ (len : BitVec 4) (dist : BitVec 12), dist.toNat + 1 ≤ out.length →
      ∃ copied : List Byte, exec (.lzssMatch len dist) s =
          .next { s with work := .decoding (pos + 2) (out ++ copied) flags } ∧
        copied.length = len.toNat + s.minMatch ∧
        ∀ k, k < copied.length →
          byteAt copied k = byteAt (out ++ copied) (out.length + k - (dist.toNat + 1))) ∧
    (∀ (len : BitVec 4) (dist : BitVec 12), out.length < dist.toNat + 1 →
      exec (.lzssMatch len dist) s =
        .next { s with work := .decoding (pos + 2) out { flags with badref := true } })

/-! ## Completions with a code -/

/-- R29 and R266: IN_LEN > IN_CAP completes every legal command with IN_RANGE, before its own checks. -/
def Obligations.InputOutOfRangeStopsEveryCommand : Prop :=
  ∀ (i : Instr) (s : State), isCommand i = true → s.params.inCap < s.operands.inLen.toNat →
    ∃ t, exec i s = .next t ∧ Completes s t .inRange [] SoftFlags.none ResultRegs.none

/-- R264, in the order of R266: an empty IN. BAD_CONFIG comes before it for the LZSS commands, and it comes before
UNKNOWN_CODEC and BAD_CONFIG for FRAME_FMT (R210, R215). That FRAME_FMT of codec 2 under an illegal configuration reports
EMPTY_INPUT follows these rules against the vectors Z27 to Z34 (log 23, DEDUCED). -/
def Obligations.EmptyInputIsReported : Prop :=
  ∀ (i : Instr) (s : State), s.operands.inLen.toNat ≤ s.params.inCap → s.input = [] →
    (i = .rleEnc ∨ i = .rleDec ∨ ((i = .lzssEnc ∨ i = .lzssDec) ∧ s.lzLegal = true) ∨ (∃ codec, i = .frameFmt codec) ∨
      i = .frameParse) →
    ∃ t, exec i s = .next t ∧ Completes s t .emptyInput [] SoftFlags.none ResultRegs.none

/-- R170, computed in unbounded integers, and R266: an illegal LZSS configuration completes the commands that read it with
BAD_CONFIG: the LZSS commands whatever IN, FRAME_FMT with codec 2 on a non-empty IN. (On an empty IN it reports EMPTY_INPUT,
by R210 and R266 against the vectors Z27 to Z34 (log 23, DEDUCED): `EmptyInputIsReported`. FRAME_PARSE of codecId 2 is in
`ParserRejectsAfterTheHeader`.) -/
def Obligations.IllegalConfigurationIsReported : Prop :=
  ∀ (i : Instr) (s : State), s.operands.inLen.toNat ≤ s.params.inCap →
    ¬((1 ≤ s.operands.lz.window.toNat ∧ s.operands.lz.window.toNat ≤ 4096) ∧
      (1 ≤ s.operands.lz.minMatch.toNat ∧ s.operands.lz.minMatch.toNat ≤ s.operands.lz.maxMatch.toNat ∧
        s.operands.lz.maxMatch.toNat ≤ s.operands.lz.minMatch.toNat + 15) ∧
      (1 ≤ s.operands.lz.hashLimit.toNat ∧ s.operands.lz.hashLimit.toNat ≤ s.params.hashLimitMax)) →
    (i = .lzssEnc ∨ i = .lzssDec ∨ (i = .frameFmt 2 ∧ s.input ≠ [])) →
    ∃ t, exec i s = .next t ∧ Completes s t .badConfig [] SoftFlags.none ResultRegs.none

/-- R93: FRAME_FMT with a codec id of 3 to 255 completes a non-empty IN with UNKNOWN_CODEC. -/
def Obligations.UnknownCodecIsReported : Prop :=
  ∀ (s : State) (codec : Byte), s.operands.inLen.toNat ≤ s.params.inCap → s.input ≠ [] → 3 ≤ codec.toNat →
    ∃ t, exec (.frameFmt codec) s = .next t ∧ Completes s t .unknownCodec [] SoftFlags.none ResultRegs.none

/-- R265 and R266: an output longer than OUT_CAP is discarded whole, with OUT_OVERFLOW, for each command that has an output
(FRAME_PARSE is in `FrameParseCommandDelivers`). -/
def Obligations.OverflowingOutputIsDiscarded : Prop :=
  ∀ (i : Instr) (s : State), s.work = .fresh → s.operands.inLen.toNat ≤ s.params.inCap → s.input ≠ [] →
    ((i = .rleEnc ∧ s.params.outCap < (rleEnc s.input).length) ∨
      (i = .rleDec ∧ s.params.outCap < (rleDec s.input).1.length) ∨
      (i = .lzssEnc ∧ s.lzLegal = true ∧ s.params.outCap < (lzssEnc s.operands.lz s.input).length) ∨
      (i = .lzssDec ∧ s.lzLegal = true ∧ s.params.outCap < (lzssDec s.minMatch s.input).1.length) ∨
      (i = .frameFmt 0 ∧ s.params.outCap < 13 + s.input.length) ∨
      (i = .frameFmt 1 ∧ s.params.outCap < 13 + (rleEnc s.input).length) ∨
      (i = .frameFmt 2 ∧ s.lzLegal = true ∧ s.params.outCap < 13 + (lzssEnc s.operands.lz s.input).length)) →
    ∃ t, exec i s = .next t ∧ Completes s t .outOverflow [] SoftFlags.none ResultRegs.none

/-! ## The RLE codec -/

/-- R150: nothing encodes to nothing, and a maximal run of L bytes becomes floor(L/255) pairs `[255, b]`, then one pair
`[L mod 255, b]` if L mod 255 is not 0, and then comes the encoding of the rest. -/
def Obligations.RleEncodesMaximalRuns : Prop :=
  rleEnc [] = [] ∧ ∀ (b : Byte) (runLen : Nat) (rest : List Byte), 0 < runLen → rest.head? ≠ some b →
    rleEnc (List.replicate runLen b ++ rest) =
      (List.replicate (runLen / 255) [(255 : Byte), b]).flatten ++
        (if runLen % 255 = 0 then [] else [BitVec.ofNat 8 (runLen % 255), b]) ++ rleEnc rest

/-- R151: a pair gives its byte count times, count 0 no byte; TRUNC is reported exactly on an odd length, and then the lone
last byte is dropped; and decoding an encoding gives the input back, with no flag. -/
def Obligations.RleDecoderInvertsAndReportsTruncation : Prop :=
  ∀ s : List Byte, rleDec (rleEnc s) = (s, SoftFlags.none) ∧
    (∀ count value : Byte,
      rleDec (count :: value :: s) = (List.replicate count.toNat value ++ (rleDec s).1, (rleDec s).2)) ∧
    (rleDec s).2 = (if s.length % 2 = 1 then SoftFlags.truncated else SoftFlags.none) ∧
    (∀ b : Byte, s.length % 2 = 0 → (rleDec (s ++ [b])).1 = (rleDec s).1)

/-- R152: the size bounds. -/
def Obligations.RleSizeBounds : Prop :=
  ∀ s : List Byte,
    (rleEnc s).length ≤ 2 * s.length ∧
    ((∀ i, i + 1 < s.length → byteAt s i ≠ byteAt s (i + 1)) → (rleEnc s).length = 2 * s.length) ∧
    (s ≠ [] → 2 * ((s.length + 254) / 255) ≤ (rleEnc s).length) ∧
    (rleDec s).1.length ≤ 255 * (s.length / 2)

/-! ## The LZSS codec -/

/-- R185: round trip and size bound, under every legal configuration. A stream with no match token is one whose tokens all
begin with 0x00. -/
def Obligations.LzssRoundTrip : Prop :=
  ∀ (cfg : LzConfig) (limit : Nat) (s : List Byte), cfg.legal limit = true →
    lzssDec cfg.minMatch.toNat (lzssEnc cfg s) = (s, SoftFlags.none) ∧
    (lzssEnc cfg s).length ≤ 2 * s.length ∧
    ((∀ k, 2 * k < (lzssEnc cfg s).length → byteAt (lzssEnc cfg s) (2 * k) = 0x00) →
      (lzssEnc cfg s).length = 2 * s.length)

/-- R178: the token emitted at a position. A match token only when the best match has at least minMatch bytes and its first
byte is not 0x00, which it is exactly when the length is minMatch and the distance at most 256; else one literal. -/
def Obligations.TokenChoiceAvoidsAZeroFirstByte : Prop :=
  ∀ (cfg : LzConfig) (limit : Nat) (s : List Byte) (p : Nat) (table : HashTable), cfg.legal limit = true →
    let best := bestMatch cfg s p table
    if cfg.minMatch.toNat ≤ best.1 ∧ ¬(best.1 = cfg.minMatch.toNat ∧ best.2 ≤ 256) then
      ∃ f g : Byte, tokenAt cfg s p table = ([f, g], best.1) ∧ f ≠ 0x00 ∧
        f.toNat * 256 + g.toNat = (best.1 - cfg.minMatch.toNat) * 4096 + (best.2 - 1)
    else tokenAt cfg s p table = ([0x00, byteAt s p], 1)

/-- R173, R175, R176 and R177. The match length at a candidate is the length to which the input agrees with itself, bounded
by maxMatch and by the end of the input, and no less. Where the position has a key, of that key's candidates in the window,
scanned oldest first, the longest wins and among equally long ones the oldest; where it has none there is no match. -/
def Obligations.LongestMatchOldestFirst : Prop :=
  ∀ (cfg : LzConfig) (s : List Byte) (p : Nat) (table : HashTable),
    let best := bestMatch cfg s p table
    let cands := (table.bucket (byteAt s p, byteAt s (p + 1))).filter
      (fun c => decide (1 ≤ p - c ∧ p - c ≤ cfg.window.toNat))
    let len := fun c => matchLength cfg.maxMatch.toNat (s.drop c) (s.drop p)
    (∀ c, c < p → p < s.length →
      len c ≤ cfg.maxMatch.toNat ∧ p + len c ≤ s.length ∧ (∀ i, i < len c → byteAt s (c + i) = byteAt s (p + i)) ∧
      (len c = cfg.maxMatch.toNat ∨ p + len c = s.length ∨ byteAt s (c + len c) ≠ byteAt s (p + len c))) ∧
    (p + 1 < s.length →
      (∀ c ∈ cands, len c ≤ best.1) ∧
      (0 < best.1 → ∃ before c after, cands = before ++ c :: after ∧ best = (len c, p - c) ∧
        ∀ c' ∈ before, len c' < len c)) ∧
    (s.length ≤ p + 1 → best = (0, 0))

/-- R172, R173, R174 and R301. An insertion: no bucket ever holds more than hashLimit positions, no key stands twice, the
key's bucket takes the position and drops its oldest when it was full, and the buckets of other keys are unchanged. The
encoder: it goes through the input from position 0 with an empty table; the stream is that of its tokens; after each token
its start position is inserted if it has a key, and the next token starts where the token's bytes end, until the input is
used up. So before a token the bucket of a key is the newest hashLimit of the earlier tokens' starts that have that key, and
no other position. -/
def Obligations.BucketsStayWithinHashLimit : Prop :=
  (∀ (limit : Nat) (table : HashTable) (key : Byte × Byte) (p : Nat), 1 ≤ limit →
    (∀ entry ∈ table, entry.2.length ≤ limit) → (table.map Prod.fst).Nodup →
    (∀ entry ∈ table.insert limit key p, entry.2.length ≤ limit) ∧ ((table.insert limit key p).map Prod.fst).Nodup ∧
    (table.insert limit key p).bucket key =
      (if table.bucket key = [] then [p]
      else if (table.bucket key).length < limit then table.bucket key ++ [p] else (table.bucket key).drop 1 ++ [p]) ∧
    ∀ other, other ≠ key → (table.insert limit key p).bucket other = table.bucket other) ∧
  (∀ (cfg : LzConfig) (limit : Nat) (s : List Byte), cfg.legal limit = true →
    ∃ walk : List (Nat × HashTable),
      lzssEnc cfg s = (walk.map (fun w => (tokenAt cfg s w.1 w.2).1)).flatten ∧
      walk[0]? = (if s = [] then none else some (0, [])) ∧
      ∀ k p table, walk[k]? = some (p, table) →
        p < s.length ∧ p + (tokenAt cfg s p table).2 ≤ s.length ∧
        walk[k + 1]? =
          (if p + (tokenAt cfg s p table).2 < s.length then
            some (p + (tokenAt cfg s p table).2,
              if p + 1 < s.length then table.insert cfg.hashLimit.toNat (byteAt s p, byteAt s (p + 1)) p else table)
          else none) ∧
        ∀ key,
          let starts := ((walk.take k).map Prod.fst).filter
            (fun q => decide (q + 1 < s.length ∧ (byteAt s q, byteAt s (q + 1)) = key))
          table.bucket key = starts.drop (starts.length - cfg.hashLimit.toNat))

/-- R180 to R184: what one more unit adds to a stream that decodes without a flag. A literal appends its byte; a match
copies LEN + minMatch bytes, each from `distance` before the end of the output as it then stands (R183); a match whose
distance exceeds the output so far stops decoding there with BADREF, whatever follows (R182); one byte left where a token
should start stops it with TRUNC (R184). -/
def Obligations.LzssDecoderReadsTokens : Prop :=
  (∀ minMatch : Nat, lzssDec minMatch [] = ([], SoftFlags.none)) ∧
  ∀ (minMatch : Nat) (tokens out : List Byte), lzssDec minMatch tokens = (out, SoftFlags.none) →
    (∀ g : Byte, lzssDec minMatch (tokens ++ [0x00, g]) = (out ++ [g], SoftFlags.none)) ∧
    (∀ f g : Byte, f ≠ 0x00 → (f.toNat * 256 + g.toNat) % 4096 + 1 ≤ out.length →
      ∃ copied : List Byte, lzssDec minMatch (tokens ++ [f, g]) = (out ++ copied, SoftFlags.none) ∧
        copied.length = (f.toNat * 256 + g.toNat) / 4096 + minMatch ∧
        ∀ k, k < copied.length →
          byteAt copied k = byteAt (out ++ copied) (out.length + k - ((f.toNat * 256 + g.toNat) % 4096 + 1))) ∧
    (∀ (f g : Byte) (rest : List Byte), f ≠ 0x00 → out.length < (f.toNat * 256 + g.toNat) % 4096 + 1 →
      lzssDec minMatch (tokens ++ f :: g :: rest) = (out, SoftFlags.badReference)) ∧
    (∀ f : Byte, lzssDec minMatch (tokens ++ [f]) = (out, SoftFlags.truncated))

/-! ## Frames -/

/-- R212: the length of a frame. Only codec 2 reads the configuration, so only its bound asks for a legal one. -/
def Obligations.FrameLengthBounds : Prop :=
  ∀ (cfg : LzConfig) (codec : Byte) (s : List Byte),
    (frameBytes codec s (payloadOf cfg codec s)).length = 13 + (payloadOf cfg codec s).length ∧
    (codec = 0 → (frameBytes codec s (payloadOf cfg codec s)).length = 13 + s.length) ∧
    (codec = 1 → (frameBytes codec s (payloadOf cfg codec s)).length ≤ 13 + 2 * s.length) ∧
    (∀ limit : Nat, codec = 2 → cfg.legal limit = true →
      (frameBytes codec s (payloadOf cfg codec s)).length ≤ 13 + 2 * s.length)

/-- R236, R237 and R238: the blobs the parser rejects before it has read a header: a text-safe wrapper, a bad magic, a
header cut short (13 bytes current, 12 legacy). -/
def Obligations.ParserRejectsBlobsWithoutAHeader : Prop :=
  ∀ (lzLegal : Bool) (minMatch : Nat) (b : List Byte),
    (4 ≤ b.length → (b.take 4 = [0x41, 0x43, 0x32, 0x42] ∨ b.take 4 = [0x41, 0x43, 0x31, 0x42]) →
      frameParse lzLegal minMatch b = ⟨.wrapped, [], SoftFlags.none, none⟩) ∧
    (b ≠ [] → (b.length < 3 ∨ (b.take 3 ≠ [0x41, 0x43, 0x32] ∧ b.take 3 ≠ [0x41, 0x43, 0x31])) →
      frameParse lzLegal minMatch b = ⟨.badMagic, [], SoftFlags.none, none⟩) ∧
    (b.take 3 = [0x41, 0x43, 0x32] → b.take 4 ≠ [0x41, 0x43, 0x32, 0x42] → b.length < 13 →
      frameParse lzLegal minMatch b = ⟨.truncatedHeader, [], SoftFlags.none, none⟩) ∧
    (b.take 3 = [0x41, 0x43, 0x31] → b.take 4 ≠ [0x41, 0x43, 0x31, 0x42] → b.length < 12 →
      frameParse lzLegal minMatch b = ⟨.truncatedHeader, [], SoftFlags.none, none⟩)

/-- R240 and R241, in this order: a stored version of 0 or above 2 is UNSUPPORTED_VERSION; with version 1 or 2 an unknown
codecId is UNKNOWN_CODEC, and codecId 2 under an illegal configuration is BAD_CONFIG; the header is reported and no bytes
are. A version byte of 0x42 makes the blob a wrapped one (R236) and is not reached. -/
def Obligations.ParserRejectsAfterTheHeader : Prop :=
  ∀ (lzLegal : Bool) (minMatch : Nat) (ver cid : Byte) (olen ocrc : Word) (payload : List Byte),
    (ver ≠ 0x42 → (ver = 0 ∨ 2 < ver.toNat) →
      frameParse lzLegal minMatch (currentFrame ver cid olen ocrc payload) =
        ⟨.unsupportedVersion, [], SoftFlags.none, some ⟨ver, cid, false, olen, ocrc⟩⟩) ∧
    ((ver = 1 ∨ ver = 2) → 3 ≤ cid.toNat →
      frameParse lzLegal minMatch (currentFrame ver cid olen ocrc payload) =
        ⟨.unknownCodec, [], SoftFlags.none, some ⟨ver, cid, false, olen, ocrc⟩⟩) ∧
    ((ver = 1 ∨ ver = 2) →
      frameParse false minMatch (currentFrame ver 2 olen ocrc payload) =
        ⟨.badConfig, [], SoftFlags.none, some ⟨ver, 2, false, olen, ocrc⟩⟩)

/-- R242, R243 and R245: an accepted frame's payload, current or legacy, is decoded by its codec; LENMIS and CRCMIS are set
each by its own check, together with the decoder's flags; the bytes are returned in every case, with OK exactly when no flag
is set. A legacy frame's codecId is its fourth byte. -/
def Obligations.ParserDecodesAndVerifies : Prop :=
  ∀ (lzLegal : Bool) (minMatch : Nat) (legacy : Bool) (ver cid : Byte) (olen ocrc : Word) (payload dec : List Byte)
    (flags : SoftFlags),
    (ver = 1 ∨ (ver = 2 ∧ legacy = false)) →
    ((cid = 0 ∧ (dec, flags) = (payload, SoftFlags.none)) ∨ (cid = 1 ∧ (dec, flags) = rleDec payload) ∨
      (cid = 2 ∧ lzLegal = true ∧ (dec, flags) = lzssDec minMatch payload)) →
    let frame := if legacy then legacyFrame cid olen ocrc payload else currentFrame ver cid olen ocrc payload
    let all : SoftFlags := ⟨flags.trunc, flags.badref, decide (dec.length ≠ olen.toNat), decide (crc32 dec ≠ ocrc)⟩
    frameParse lzLegal minMatch frame =
      ⟨if all = SoftFlags.none then .ok else .partialData, dec, all, some ⟨ver, cid, legacy, olen, ocrc⟩⟩

/-- R249: a legacy frame decodes like the current frame with the same fields. A codecId of 0x42 is left out: with it the
legacy frame begins "AC1B" and is a wrapped one (R236). -/
def Obligations.LegacyFramesDecodeLikeCurrentOnes : Prop :=
  ∀ (lzLegal : Bool) (minMatch : Nat) (cid : Byte) (olen ocrc : Word) (payload : List Byte), cid ≠ 0x42 →
    let old := frameParse lzLegal minMatch (legacyFrame cid olen ocrc payload)
    let new := frameParse lzLegal minMatch (currentFrame 2 cid olen ocrc payload)
    old.code = new.code ∧ old.dec = new.dec ∧ old.flags = new.flags ∧
      old.hdr = some ⟨1, cid, true, olen, ocrc⟩ ∧ new.hdr = some ⟨2, cid, false, olen, ocrc⟩

/-- R248: FRAME_FMT on a non-empty byte string, then FRAME_PARSE on the bytes it left in OutBuf, gives the byte string back
with OK and no flag, for each of the three codecs under the same legal configuration, where the capacities suffice. -/
def Obligations.FrameRoundTrip : Prop :=
  ∀ (s t : State) (codec : Byte), s.work = .fresh → t.work = .fresh → s.input ≠ [] → s.lzLegal = true →
    s.params.Legal → t.params = s.params → t.operands.lz = s.operands.lz →
    s.operands.inLen.toNat ≤ s.params.inCap → t.operands.inLen.toNat ≤ t.params.inCap →
    (codec = 0 ∨ codec = 1 ∨ codec = 2) → 13 + 2 * s.input.length ≤ s.params.outCap →
    ∃ s', exec (.frameFmt codec) s = .next s' ∧ s'.code = .ok ∧
      (t.input = s'.outBytes →
        ∃ t', exec .frameParse t = .next t' ∧ t'.code = .ok ∧ t'.soft = SoftFlags.none ∧ t'.outBytes = s.input)

/-- R250, its codec 0 and codec 1 parts; codec 2 is left out. Changing one payload byte of a frame FRAME_FMT made with
codec 0 is always flagged CRCMIS, with the changed bytes returned: this rests on the passage R250 marks as general
knowledge (G4 of `93_implementation_defined.md`). Changing one byte of an RLE encoding changes what it decodes to. -/
def Obligations.ChangedPayloadByteChangesTheResult : Prop :=
  (∀ (lzLegal : Bool) (minMatch : Nat) (before after : List Byte) (x y : Byte), x ≠ y →
    (before ++ x :: after).length < 2 ^ 32 →
    let original := before ++ x :: after
    let changed := before ++ y :: after
    frameParse lzLegal minMatch
        (currentFrame 2 0 (BitVec.ofNat 32 original.length) (crc32 original) changed) =
      ⟨.partialData, changed, ⟨false, false, false, true⟩,
        some ⟨2, 0, false, BitVec.ofNat 32 original.length, crc32 original⟩⟩) ∧
  (∀ (s before after : List Byte) (x y : Byte), rleEnc s = before ++ x :: after → x ≠ y →
    (rleDec (before ++ y :: after)).1 ≠ s)

/-! ## Reset, acceptance, the interrupt -/

/-- R290: the state right after power-on reset, while `rst_n` is low, and after it rises until the first HOST access, for
every choice of the OPEN parameters. Each byte of either buffer is any value: a free value of the model (log 3). The ENGINE
executes nothing. -/
def Obligations.ResetLeavesTheListedValues : Prop :=
  ∀ (p : Config.Params) (s : State),
    (s = State.resetWith p ∨
      ∃ s₀ : State, s₀.params = p ∧ (s = s₀.driveReset false ∨ s = (s₀.driveReset false).driveReset true)) →
    s.readReg .maxver = 0x00000002 ∧ s.readReg .ctrl = 0 ∧ s.readReg .cmd = 0 ∧ s.readReg .status = 0 ∧
    s.readReg .inLen = 0 ∧ s.readReg .outLen = 0 ∧ s.readReg .result = 0 ∧ s.readReg .frhdr = 0 ∧
    s.readReg .frlen = 0 ∧ s.readReg .frcrc = 0 ∧ s.readReg .calccrc = 0 ∧
    s.readReg .lzWindow = 4096 ∧ s.readReg .lzMinMatch = 3 ∧ s.readReg .lzMaxMatch = 18 ∧ s.readReg .lzHashLimit = 12 ∧
    s.readReg .incap = BitVec.ofNat 32 p.inCap ∧ s.readReg .outcap = BitVec.ofNat 32 p.outCap ∧
    s.running = false ∧ s.latched = none ∧ s.work = .fresh ∧ s.irq = false ∧
    (∀ i, s.inByte i = Config.freeByte s.inDraw i) ∧ (∀ i, s.outByte i = Config.freeByte s.outDraw i) ∧
    s.inDraw ≠ s.outDraw ∧ s.engineTurn = .next s ∧ s.unitTurn = .next s

/-- R292: a write of CTRL with SRST = 1, whether BUSY is 0 or 1: every register at its reset value, the running command
gone, OutBuf a fresh draw, InBuf kept, `irq` 0. -/
def Obligations.SoftResetAbortsAndResets : Prop :=
  ∀ (s : State) (v : Word), s.rstN = true → v.getLsbD 1 = true →
    ∃ t, s.busAccess (wrOp .ctrl v) = .next t ∧ (∀ r, t.readReg r = (State.resetWith s.params).readReg r) ∧
      t.running = false ∧ t.latched = none ∧ t.work = .fresh ∧ t.done = false ∧ t.irq = false ∧
      t.engineTurn = .next t ∧ t.unitTurn = .next t ∧
      (∀ i, t.inByte i = s.inByte i) ∧ (∀ i, t.outByte i = Config.freeByte s.draws i)

/-- R22 and R290: `rst_n` driven low puts the block into the reset state, both buffers fresh draws, and while it is low no
HOST write changes anything (the model's reading of "held in the reset state", log 5). -/
def Obligations.ResetPinHoldsTheBlock : Prop :=
  (∀ s : State,
    let t := s.driveReset false
    (∀ r, t.readReg r = (State.resetWith s.params).readReg r) ∧ t.running = false ∧ t.latched = none ∧ t.irq = false ∧
      (∀ i, t.inByte i = Config.freeByte s.draws i) ∧ (∀ i, t.outByte i = Config.freeByte (s.draws + 1) i)) ∧
  (∀ (s : State) (offset : BitVec 22) (size : Size) (v : Word), s.rstN = false →
    accessFault s.params offset.toNat size = none → s.busAccess (.write offset size v) = .next s)

/-- R91 and R260: acceptance of a word written to CMD while BUSY = 0. -/
def Obligations.AcceptanceClearsAndLatches : Prop :=
  ∀ (s : State) (w : Word), s.rstN = true → s.running = false →
    ∃ t, s.busAccess (wrOp .cmd w) = .next t ∧ t.cmd = w ∧ t.running = true ∧ t.done = false ∧ t.code.toByte = 0x00 ∧
      t.soft = SoftFlags.none ∧ t.outLen = 0 ∧ t.result = 0 ∧ t.frhdr = 0 ∧ t.frlen = 0 ∧ t.frcrc = 0 ∧ t.calccrc = 0 ∧
      t.latched = some ⟨w, s.inLen, s.inBytes, s.lz⟩ ∧ t.work = .fresh ∧ t.wbusy = s.wbusy ∧ t.ie = s.ie ∧
      t.inLen = s.inLen ∧ t.lz = s.lz ∧ (∀ i, t.inByte i = s.inByte i)

/-- R45 and R270: `irq` is IE and DONE; a completion with IE = 1 raises it, setting IE while DONE = 1 raises it, and
clearing DONE, accepting a command or clearing IE lowers it. -/
def Obligations.InterruptFollowsEnableAndDone : Prop :=
  ∀ s : State, (s.irq = true ↔ s.ie = true ∧ s.done = true) ∧
    (∀ code out flags regs, s.ie = true → (s.finish code out flags regs).irq = true) ∧
    (s.done = true → (s.writeReg .ctrl 0x00000001).irq = true) ∧
    (s.writeReg .status 0x00000002).irq = false ∧ (s.writeReg .ctrl 0x00000000).irq = false ∧
    (∀ w, s.running = false → (s.writeReg .cmd w).irq = false)

/-! ## The bus -/

/-- R24 and R272: a write of a protected register, or of a byte of InBuf, while BUSY = 1 sets WBUSY and changes nothing
else. -/
def Obligations.ProtectedWritesWhileBusySetOnlyWbusy : Prop :=
  ∀ (s : State) (v : Word), s.rstN = true → s.running = true →
    (∀ r, r ∈ [Reg.cmd, .inLen, .lzWindow, .lzMinMatch, .lzMaxMatch, .lzHashLimit] →
      s.busAccess (wrOp r v) = .next { s with wbusy := true }) ∧
    (∀ (offset : BitVec 22) (size : Size), offset.toNat % size.bytes = 0 → inStart ≤ offset.toNat →
      offset.toNat < inStart + s.params.inCap → offset.toNat < outStart →
      s.busAccess (.write offset size v) = .next { s with wbusy := true })

/-- R28, R261: the layout of STATUS as the HOST reads it: BUSY, DONE, WBUSY, CODE and the four flags, every other bit 0; and
the byte that CODE is for each of the twelve codes of R261's table, which are all the codes there are. -/
def Obligations.StatusRegisterLayout : Prop :=
  ∀ s : State,
    (s.readReg .status).getLsbD 0 = s.running ∧ (s.readReg .status).getLsbD 1 = s.done ∧
    (s.readReg .status).getLsbD 2 = s.wbusy ∧ (s.readReg .status).extractLsb' 8 8 = s.code.toByte ∧
    (s.readReg .status).getLsbD 16 = s.soft.trunc ∧ (s.readReg .status).getLsbD 17 = s.soft.badref ∧
    (s.readReg .status).getLsbD 18 = s.soft.lenmis ∧ (s.readReg .status).getLsbD 19 = s.soft.crcmis ∧
    (∀ k, (3 ≤ k ∧ k < 8) ∨ 20 ≤ k → (s.readReg .status).getLsbD k = false) ∧
    (s.code, (s.readReg .status).extractLsb' 8 8) ∈
      ([(.ok, 0x00), (.emptyInput, 0x01), (.partialData, 0x02), (.unknownCodec, 0x10), (.badMagic, 0x11),
        (.unsupportedVersion, 0x12), (.truncatedHeader, 0x13), (.wrapped, 0x14), (.illegalCommand, 0x20),
        (.badConfig, 0x21), (.outOverflow, 0x22), (.inRange, 0x23)] : List (Code × Byte))

/-- R28: a write of STATUS changes only DONE and WBUSY, each cleared by a 1. -/
def Obligations.StatusWritesClearByOne : Prop :=
  ∀ (s : State) (v : Word), s.rstN = true →
    s.busAccess (wrOp .status v) =
      .next { s with
        done := if v.getLsbD 1 then false else s.done
        wbusy := if v.getLsbD 2 then false else s.wbusy }

/-- R22, R64 and R66: exactly which accesses the model faults: in the register region every access but an aligned 4-byte
one, elsewhere a misaligned access that reaches a byte of a buffer. A fault is the whole outcome, so nothing is applied,
and every other access completes. That a narrow access to a reserved register offset faults too is the model's reading
(log 6), and so is a misaligned access that only in part reaches a buffer (log 7). -/
def Obligations.FaultingAccessesAreTheUnspecifiedOnes : Prop :=
  (∀ (p : Config.Params) (offset : BitVec 22) (size : Size),
    (offset.toNat < reservedStart →
      accessFault p offset.toNat size = if size = .four ∧ offset.toNat % 4 = 0 then none else some .registerAccess) ∧
    (reservedStart ≤ offset.toNat →
      accessFault p offset.toNat size ≠ some .registerAccess ∧
      (accessFault p offset.toNat size = some .misalignedBuffer ↔
        offset.toNat % size.bytes ≠ 0 ∧
          ∃ k i, k < size.bytes ∧ (placeOf p (offset.toNat + k) = .inBuf i ∨ placeOf p (offset.toNat + k) = .outBuf i)))) ∧
  (∀ (s : State) (offset : BitVec 22) (size : Size) (v : Word),
    (∀ f, accessFault s.params offset.toNat size = some f →
      s.busAccess (.read offset size) = .fault f ∧ s.busAccess (.write offset size v) = .fault f) ∧
    (accessFault s.params offset.toNat size = none →
      (∃ t, s.busAccess (.read offset size) = .next t) ∧ ∃ t, s.busAccess (.write offset size v) = .next t))

/-- R62, R63, R65, R66 and R83. An aligned write that begins inside InBuf, while BUSY = 0, puts byte k of the value at index
a + k for every k of its width that is inside the buffer; the bytes past IN_CAP are ignored, and every other byte and the
rest of the block are as they were. A read of any width that begins in the InBuf range composes the bytes little-endian,
with 0 for a byte past IN_CAP, whatever BUSY is (R70). That the bits above the width read 0 is the model's choice
(log 20). -/
def Obligations.InBufWritesThenReads : Prop :=
  (∀ (s : State) (offset : BitVec 22) (size : Size) (v : Word), s.rstN = true → s.running = false →
    offset.toNat % size.bytes = 0 → inStart ≤ offset.toNat → offset.toNat < inStart + s.params.inCap →
    offset.toNat < outStart →
    ∃ t, s.busAccess (.write offset size v) = .next t ∧
      (∀ k, k < size.bytes → offset.toNat - inStart + k < s.params.inCap →
        t.inByte (offset.toNat - inStart + k) = byteAt (le32 v) k) ∧
      (∀ i, i < offset.toNat - inStart ∨ offset.toNat - inStart + size.bytes ≤ i ∨ s.params.inCap ≤ i →
        t.inByte i = s.inByte i) ∧
      t = { s with inBuf := t.inBuf } ∧
      (∀ k, k < 4 → byteAt (le32 (t.memRead offset.toNat size)) k =
        if k < size.bytes ∧ offset.toNat - inStart + k < s.params.inCap then byteAt (le32 v) k else 0) ∧
      (∀ k, k < size.bytes → t.memRead (offset.toNat + k) .one =
        (if offset.toNat - inStart + k < s.params.inCap then byteAt (le32 v) k else 0).setWidth 32)) ∧
  (∀ (s : State) (offset : BitVec 22) (size : Size), offset.toNat % size.bytes = 0 → inStart ≤ offset.toNat →
    offset.toNat < outStart →
    ∃ t w, s.busAccess (.read offset size) = .next t ∧ t.rdata = some w ∧
      ∀ k, k < 4 → byteAt (le32 w) k =
        if k < size.bytes ∧ offset.toNat - inStart + k < s.params.inCap then s.inByte (offset.toNat - inStart + k) else 0)

/-- R73: a read changes nothing of the block: only the data returned to the HOST is new, and the number of draws made
where OutBuf is read while BUSY = 1 (log 15). -/
def Obligations.ReadsHaveNoSideEffects : Prop :=
  ∀ (s t : State) (offset : BitVec 22) (size : Size), s.busAccess (.read offset size) = .next t →
    t = { s with rdata := some (s.memRead offset.toNat size), draws := t.draws } ∧
    (s.running = false → t.draws = s.draws) ∧ (∀ r, t.readReg r = s.readReg r) ∧
    (s.running = false → ∀ a, t.byteRead a = s.byteRead a)

/-- R23, R42, R67 and R69: what ignores writes, whatever BUSY is, and sets no flag: read-only registers and reserved
register offsets; aligned writes to OutBuf and to offsets beyond a buffer's end; and, at any width and alignment, writes
that reach only reserved offsets or offsets beyond IN_CAP or OUT_CAP. That a misaligned write beyond a buffer's end is under
R67 and not under R66, and that a write reaching past the window's end is ignored, is the model's reading (log 7,
DEDUCED). -/
def Obligations.IgnoredWritesChangeNothing : Prop :=
  ∀ (s : State) (offset : BitVec 22) (v : Word),
    (offset.toNat % 4 = 0 →
      (offset.toNat = 0x000 ∨ (0x014 ≤ offset.toNat ∧ offset.toNat ≤ 0x02C) ∨
        (0x040 ≤ offset.toNat ∧ offset.toNat ≤ 0xFFC)) →
      s.busAccess (.write offset .four v) = .next s) ∧
    (∀ size : Size,
      ((offset.toNat % size.bytes = 0 ∧ inStart + s.params.inCap ≤ offset.toNat) ∨
        (reservedStart ≤ offset.toNat ∧ offset.toNat + size.bytes ≤ inStart) ∨
        (inStart + s.params.inCap ≤ offset.toNat ∧ offset.toNat + size.bytes ≤ outStart) ∨
        outStart + s.params.outCap ≤ offset.toNat ∨ highStart ≤ offset.toNat) →
      s.busAccess (.write offset size v) = .next s)

/-- R67: a read that reaches only reserved offsets, or offsets beyond IN_CAP or OUT_CAP, reads 0 at any width and
alignment. That a misaligned read beyond a buffer's end is under R67 and not under R66, and that a read reaching past the
window's end reads 0, is the model's reading (log 7, DEDUCED). -/
def Obligations.ReservedOffsetsReadZero : Prop :=
  ∀ (s : State) (offset : BitVec 22) (size : Size),
    ((reservedStart ≤ offset.toNat ∧ offset.toNat + size.bytes ≤ inStart) ∨
      (inStart + s.params.inCap ≤ offset.toNat ∧ offset.toNat + size.bytes ≤ outStart) ∨
      outStart + s.params.outCap ≤ offset.toNat ∨ highStart ≤ offset.toNat) →
    ∃ t, s.busAccess (.read offset size) = .next t ∧ t.rdata = some 0

/-- R63, R66, R69 and R71: OutBuf as the HOST reads it, at any width. An aligned read that begins in the OutBuf range
composes its bytes little-endian: while BUSY = 1 each byte is a free value of the next draw, else the byte the last
completion left; a byte past OUT_CAP is 0. That the bits above the width read 0 is the model's choice (log 20). -/
def Obligations.OutBufReads : Prop :=
  ∀ (s : State) (offset : BitVec 22) (size : Size), offset.toNat % size.bytes = 0 → outStart ≤ offset.toNat →
    offset.toNat < highStart →
    ∃ t w, s.busAccess (.read offset size) = .next t ∧ t.rdata = some w ∧
      ∀ k, k < 4 → byteAt (le32 w) k =
        if k < size.bytes ∧ offset.toNat - outStart + k < s.params.outCap then
          (if s.running then Config.freeByte s.draws (offset.toNat - outStart + k)
          else s.outByte (offset.toNat - outStart + k))
        else 0

/-- R111 and R112: the bus accesses of every HOST program statement, at every register, at every off whose access offset is
inside the 22-bit window (log 22 says what stands beyond), and for every command; a program is its statements in order; and
one HOST turn of `wait` reads STATUS and stays pending while BUSY reads 1. R111 has `sw` and `lw` at an off divisible
by 4 only: what they are at another off is the model's choice (log 22, DESIGN CHOICE). That `wait` is one read a HOST turn, and that it
and `copyout` (`CopyoutMovesTheOutput`) are expanded by the HOST's turns, is the model's choice (log 14). -/
def Obligations.HostStatementsAreBusAccesses : Prop :=
  (∀ (r : Reg) (a : BitVec 22) (v : Word), a.toNat = r.offset →
    HostStmt.expand (.wr r v) = [.bus (.write a .four v)] ∧ HostStmt.expand (.rd r) = [.bus (.read a .four)]) ∧
  (∀ (off : Nat) (a : BitVec 22), a.toNat = 0x100000 + off →
    (∀ b : Byte, HostStmt.expand (.sb off b) = [.bus (.write a .one (b.setWidth 32))] ∧
      HostStmt.expand (.poke off b) = [.bus (.write a .one (b.setWidth 32))]) ∧
    ∀ v : Word, HostStmt.expand (.sw off v) = [.bus (.write a .four v)]) ∧
  (∀ (off : Nat) (a : BitVec 22), a.toNat = 0x200000 + off →
    HostStmt.expand (.lb off) = [.bus (.read a .one)] ∧ HostStmt.expand (.lw off) = [.bus (.read a .four)]) ∧
  HostStmt.expand (.command .crc32) = [.bus (.write 0x000008 .four 0x00000001)] ∧
  HostStmt.expand (.command .fnv32) = [.bus (.write 0x000008 .four 0x00000002)] ∧
  HostStmt.expand (.command .rleEnc) = [.bus (.write 0x000008 .four 0x00000010)] ∧
  HostStmt.expand (.command .rleDec) = [.bus (.write 0x000008 .four 0x00000011)] ∧
  HostStmt.expand (.command .lzssEnc) = [.bus (.write 0x000008 .four 0x00000020)] ∧
  HostStmt.expand (.command .lzssDec) = [.bus (.write 0x000008 .four 0x00000021)] ∧
  (∀ codec : Byte, HostStmt.expand (.command (.frameFmt codec)) =
    [.bus (.write 0x000008 .four (0x00000030 ||| (codec.setWidth 32 <<< 8)))]) ∧
  HostStmt.expand .frameFmtDefault = [.bus (.write 0x000008 .four 0x00000230)] ∧
  HostStmt.expand (.command .frameParse) = [.bus (.write 0x000008 .four 0x00000031)] ∧
  (∀ bytes : List Byte, HostStmt.expand (.load bytes) =
    (List.range bytes.length).flatMap (fun k => HostStmt.expand (.sb k (byteAt bytes k))) ++
      [.bus (.write 0x000010 .four (BitVec.ofNat 32 bytes.length))]) ∧
  HostStmt.expand .ack = [.bus (.write 0x00000C .four 0x00000002)] ∧
  HostStmt.expand .ackw = [.bus (.write 0x00000C .four 0x00000004)] ∧
  HostStmt.expand (.ie true) = [.bus (.write 0x000004 .four 0x00000001)] ∧
  HostStmt.expand (.ie false) = [.bus (.write 0x000004 .four 0x00000000)] ∧
  HostStmt.expand .srst = [.bus (.write 0x000004 .four 0x00000002)] ∧
  HostStmt.expand .wait = [.poll] ∧ HostStmt.expand .copyout = [.copyout] ∧
  (∀ (stmt : HostStmt) (program : List HostStmt), assemble (stmt :: program) = stmt.expand ++ assemble program) ∧
  (∀ (s : State) (rest : List HostOp), s.host = .poll :: rest →
    s.hostTurn = .next { s with rdata := some s.status, host := if s.running then s.host else rest })

/-! ## The whole machine -/

/-- The invariant holds right after reset, for all parameters in their ranges. -/
def Obligations.InvariantAtReset : Prop :=
  (∀ p : Config.Params, p.Legal → (State.resetWith p).Inv) ∧ State.reset.Inv

/-- Every step keeps the invariant. -/
def Obligations.InvariantIsKept : Prop := ∀ s t : State, s.Inv → step s = .next t → t.Inv

/-- A step runs what is decoded. When the turn is the ENGINE's and a command runs, a step executes the instruction its
latched word decodes to, at the state with that turn taken; where nothing says whose turn it is, a running command's turn
has come. When the turn is the ENGINE's for one iteration and the two bytes at the running decoder's position decode to
a data unit, a step executes it. When the turn is the HOST's, or nothing says whose turn it is and nothing runs, a step
performs the HOST's next bus access, if it has one. Whose turn it is, is the model's plain data (log 1, DESIGN CHOICE); that
the ENGINE may move by single iterations is log 8 (DESIGN CHOICE), and that one of a decoder executes a data unit is log 10
(DEDUCED). -/
def Obligations.StepRunsTheDecodedInstruction : Prop :=
  (∀ (s : State) (l : Latched) (i : Instr), s.running = true → s.latched = some l →
    decodeBytes .command (le32 l.word) = .ok i →
    (∀ rest, s.turns = .engine :: rest → step s = exec i { s with turns := rest }) ∧ (s.turns = [] → step s = exec i s)) ∧
  (∀ (s : State) (rest : List Turn) (ctx : Context) (start pos : Nat) (out : List Byte) (flags : SoftFlags) (i : Instr),
    s.running = true → s.turns = .engineUnit :: rest → s.codedStream = some (ctx, start) →
    s.work = .decoding pos out flags → flags.badref = false →
    decodeBytes ctx ((s.input.drop pos).take 2) = .ok i → step s = exec i { s with turns := rest }) ∧
  (∀ (s : State) (op : BusOp) (rest : List HostOp), s.host = .bus op :: rest →
    (∀ turns, s.turns = .host :: turns → step s = ({ s with turns := turns, host := rest } : State).busAccess op) ∧
    (s.running = false → s.turns = [] → step s = ({ s with host := rest } : State).busAccess op)) ∧
  (∀ s : State, s.running = false → s.turns = [] → s.host = [] → step s = .next s)

/-- R78: nothing the ENGINE does between acceptance and completion is observable: an iteration of the loop changes only the
hidden work, and leaves the completion to come exactly as it was. -/
def Obligations.ProgressIsInvisible : Prop :=
  ∀ s t : State, s.running = true → s.unitTurn = .next t →
    OnlyWorkDiffers s t ∧ exec t.currentInstr t = exec s.currentInstr s

/-- R91 and R274: a running command, legal or not, reaches completion, and then nothing runs. That one ENGINE step
suffices is the model's choice, which R78 allows (log 1, DESIGN CHOICE). -/
def Obligations.RunningCommandCompletes : Prop :=
  ∀ s : State, s.running = true → s.turns = [] →
    ∃ t code out flags regs, step s = .next t ∧ Completes s t code out flags regs ∧ t.running = false ∧ t.done = true ∧
      out.length ≤ s.params.outCap

/-- R72 and R112: `copyout`, run by the HOST's turns, leaves OutBuf[0 : OUT_LEN] in InBuf and OUT_LEN in IN_LEN, and the
rest of InBuf as it was. That it takes 2 * OUT_LEN + 2 accesses is the model's expansion (log 14). -/
def Obligations.CopyoutMovesTheOutput : Prop :=
  ∀ s : State, s.params.Legal → s.rstN = true → s.running = false → s.turns = [] → s.host = [.copyout] →
    s.outLen.toNat ≤ s.params.inCap → s.outLen.toNat ≤ s.params.outCap →
    ∃ t, Host.Core.run Sys2Proof.core (2 * s.outLen.toNat + 2) s = .next t ∧ t.host = [] ∧ t.inLen = s.outLen ∧
      (∀ k, k < s.outLen.toNat → t.inByte k = s.outByte k) ∧ (∀ k, s.outLen.toNat ≤ k → t.inByte k = s.inByte k)

/-- R262, R267 and R292: BUSY falls only by a completion of the running command, by a soft reset, or by `rst_n`. -/
def Obligations.BusyEndsByCompletionOrReset : Prop :=
  ∀ s t : State, step s = .next t → s.running = true → t.running = false →
    (∃ s' code out flags regs, s.takeTurn = (.engine, s') ∧ t = s'.finish code out flags regs) ∨
    (∃ s' rest offset v, s.takeTurn = (.host, s') ∧ s'.host = .bus (.write offset .four v) :: rest ∧
      offset = BitVec.ofNat 22 Reg.ctrl.offset ∧ v.getLsbD 1 = true) ∨
    (∃ s' rest, s.takeTurn = (.host, s') ∧ s'.host = .rstPin false :: rest)

/-- R68, R70 and R46: no ENGINE step changes a byte of InBuf, and a HOST step changes byte i only by `rst_n`, or while
BUSY = 0 by a write one of whose bytes stands at index i, and then byte i is that byte of the value. -/
def Obligations.InBufChangesOnlyByHostWrites : Prop :=
  ∀ (s t : State) (i : Nat), step s = .next t → t.inByte i ≠ s.inByte i →
    ∃ s', s.takeTurn = (.host, s') ∧
      ((s.running = false ∧ ∃ rest offset size v k, s'.host = .bus (.write offset size v) :: rest ∧ k < size.bytes ∧
          placeOf s.params (offset.toNat + k) = .inBuf i ∧ t.inByte i = byteAt (le32 v) k) ∨
        ∃ rest, s'.host = .rstPin false :: rest)

/-- R48 and R268: a step never changes the parameters, and it never ends in a refusal, nor in a fault but for a HOST access
of the kinds R64 and R66 name. -/
def Obligations.OnlyAHostAccessCanFault : Prop :=
  ∀ s : State,
    (∀ t, step s = .next t → t.params = s.params) ∧
    (∀ r, step s ≠ .refused r) ∧
    (∀ f, step s = .fault f → ∃ s' op rest, s.takeTurn = (.host, s') ∧ s'.host = .bus op :: rest ∧
      op.legal s.params = false)

/-- R23, R25 to R42: the register map, in every state. A 4-byte read at each register's offset returns that register and at
each reserved register offset 0; `rd` and `wr` use these offsets. While BUSY = 0 a write of IN_LEN or of an LZ_* register
sets that register to the value and nothing else, and a write of CMD is an acceptance (R91); whatever BUSY is, a write of
CTRL with SRST = 0 sets IE to bit 0 and nothing else. (STATUS: `StatusRegisterLayout` and `StatusWritesClearByOne`; SRST:
`SoftResetAbortsAndResets`; protected writes while BUSY = 1 and ignored writes: their own statements.) -/
def Obligations.RegistersReadAndWriteAtTheirOffsets : Prop :=
  ∀ (s : State) (v : Word),
    (∀ r : Reg, ∃ (a : BitVec 22) (w : Word),
      (r, a, w) ∈ ([(.maxver, 0x000, 0x00000002), (.ctrl, 0x004, if s.ie then 1 else 0), (.cmd, 0x008, s.cmd),
        (.status, 0x00C, s.status), (.inLen, 0x010, s.inLen), (.outLen, 0x014, s.outLen), (.result, 0x018, s.result),
        (.frhdr, 0x01C, s.frhdr), (.frlen, 0x020, s.frlen), (.frcrc, 0x024, s.frcrc), (.calccrc, 0x028, s.calccrc),
        (.lzWindow, 0x030, s.lz.window), (.lzMinMatch, 0x034, s.lz.minMatch), (.lzMaxMatch, 0x038, s.lz.maxMatch),
        (.lzHashLimit, 0x03C, s.lz.hashLimit), (.incap, 0x040, BitVec.ofNat 32 s.params.inCap),
        (.outcap, 0x044, BitVec.ofNat 32 s.params.outCap)] : List (Reg × BitVec 22 × Word)) ∧
      rdOp r = .read a .four ∧ wrOp r v = .write a .four v ∧ r.offset = a.toNat ∧ s.readReg r = w ∧
      ∃ t, s.busAccess (.read a .four) = .next t ∧ t.rdata = some w) ∧
    (∀ a : BitVec 22, a.toNat % 4 = 0 → (a.toNat = 0x02C ∨ (0x048 ≤ a.toNat ∧ a.toNat ≤ 0xFFC)) →
      ∃ t, s.busAccess (.read a .four) = .next t ∧ t.rdata = some 0) ∧
    (s.rstN = true → s.running = false →
      s.busAccess (.write 0x008 .four v) = .next (s.accept v) ∧
      s.busAccess (.write 0x010 .four v) = .next { s with inLen := v } ∧
      s.busAccess (.write 0x030 .four v) = .next { s with lz := { s.lz with window := v } } ∧
      s.busAccess (.write 0x034 .four v) = .next { s with lz := { s.lz with minMatch := v } } ∧
      s.busAccess (.write 0x038 .four v) = .next { s with lz := { s.lz with maxMatch := v } } ∧
      s.busAccess (.write 0x03C .four v) = .next { s with lz := { s.lz with hashLimit := v } }) ∧
    (s.rstN = true → v.getLsbD 1 = false → s.busAccess (.write 0x004 .four v) = .next { s with ie := v.getLsbD 0 })
end

