-- ==== Sys2Proof/Laws/Decode.lean ====
section
/-!
SUPPORT. What the decoder's pieces give as numbers, and the table search as a chain of comparisons.
-/

namespace Sys2Proof

/-- Composing the four bytes of a word gives the word (R9, R62). -/
theorem composeLe_le32 (w : Word) : composeLe (le32 w) = w := by
  apply BitVec.eq_of_getLsbD_eq
  intro i hi
  simp only [le32, composeLe, BitVec.getLsbD_or, BitVec.getLsbD_shiftLeft, BitVec.getLsbD_setWidth,
    BitVec.getLsbD_extractLsb']
  rcases (by omega : i < 8 ∨ 8 ≤ i ∧ i < 16 ∨ 16 ≤ i ∧ i < 24 ∨ 24 ≤ i) with h | ⟨h1, h2⟩ | ⟨h1, h2⟩ | h
  · simp [h, hi]
  · obtain ⟨k, rfl⟩ : ∃ k, i = 8 + k := ⟨i - 8, by omega⟩
    simp [hi, show k < 8 by omega, show k < 32 by omega]
  · obtain ⟨k, rfl⟩ : ∃ k, i = 16 + k := ⟨i - 16, by omega⟩
    simp [hi, show k < 8 by omega, show k < 32 by omega, show 16 + k - 8 = 8 + k by omega, show 8 + k < 32 by omega, show ¬ 16 + k < 8 by omega]
  · obtain ⟨k, rfl⟩ : ∃ k, i = 24 + k := ⟨i - 24, by omega⟩
    simp [hi, show k < 8 by omega, show k < 32 by omega, show 24 + k - 8 = 16 + k by omega,
      show ¬ 24 + k < 8 by omega, show ¬ 16 + k < 8 by omega, show 16 + k < 32 by omega,
      show 16 + k - 8 = 8 + k by omega, show 8 + k < 32 by omega]
/-- The table search of R97 as a chain of comparisons. -/
theorem decodeWord_eq (w : Word) :
    decodeWord w =
      if w = 0x01 then .crc32 else if w = 0x02 then .fnv32
      else if w = 0x10 then .rleEnc else if w = 0x11 then .rleDec
      else if w = 0x20 then .lzssEnc else if w = 0x21 then .lzssDec
      else if w &&& 0xFFFF00FF = 0x30 then .frameFmt (codecField w)
      else if w = 0x31 then .frameParse else illegalOf w := by
  have hm : ∀ p : Word, (w &&& 0xFFFFFFFF == p) = decide (w = p) := by
    intro p
    have : w &&& 0xFFFFFFFF = w := BitVec.and_allOnes
    rw [this]; rfl
  have hz : ∀ v : Word, (v &&& 0 == 0) = true := by intro v; simp
  have hb : ∀ p : Word, (w &&& 0xFFFF00FF == p) = decide (w &&& 0xFFFF00FF = p) := fun _ => rfl
  unfold decodeWord commandRows
  simp only [List.find?_cons, hm, hz, hb]
  by_cases h1 : w = 0x01
  · simp [h1]
  by_cases h2 : w = 0x02
  · simp [h2]
  by_cases h3 : w = 0x10
  · simp [h3]
  by_cases h4 : w = 0x11
  · simp [h4]
  by_cases h5 : w = 0x20
  · simp [h5]
  by_cases h6 : w = 0x21
  · simp [h6]
  by_cases h7 : w &&& 0xFFFF00FF = 0x30
  · simp only [h1, h2, h3, h4, h5, h6, h7, decide_false, decide_true, if_true, if_false]
  by_cases h8 : w = 0x31
  · simp [h8]
  · simp only [h1, h2, h3, h4, h5, h6, h7, h8, decide_false, if_false]

/-- Every command word decodes to a command or to an illegal word, never to a data unit (R95, R97). -/
theorem decodeWord_context (w : Word) : (decodeWord w).context = .command := by
  rw [decodeWord_eq]
  repeat' split
  all_goals rfl

/-- Two nibbles make a byte. -/
theorem toNat_append_nibbles (a b : BitVec 4) : (a ++ b : BitVec 8).toNat = a.toNat * 16 + b.toNat := by
  have h := BitVec.toNat_append a b
  rw [← Nat.shiftLeft_add_eq_or_of_lt b.isLt, Nat.shiftLeft_eq] at h
  exact h

/-- A nibble and a byte make 12 bits. -/
theorem toNat_append_nibble_byte (a : BitVec 4) (b : Byte) : (a ++ b : BitVec 12).toNat = a.toNat * 256 + b.toNat := by
  have h := BitVec.toNat_append a b
  rw [← Nat.shiftLeft_add_eq_or_of_lt b.isLt, Nat.shiftLeft_eq] at h
  exact h

/-- LEN is the high nibble of the first byte (R101). -/
theorem tokenLen_toNat (f : Byte) : (tokenLen f).toNat = f.toNat / 16 := by
  have hf := f.isLt
  simp only [tokenLen, BitVec.extractLsb'_toNat, Nat.shiftRight_eq_div_pow]
  omega

/-- DIST is the low nibble of the first byte, then the second byte (R101). -/
theorem tokenDist_toNat (f g : Byte) : (tokenDist f g).toNat = f.toNat % 16 * 256 + g.toNat := by
  rw [tokenDist, toNat_append_nibble_byte]
  simp

/-- The bytes of a match token as numbers (R75, R101). -/
theorem matchBytes_toNat (len : BitVec 4) (dist : BitVec 12) :
    (matchBytes len dist).map BitVec.toNat = [len.toNat * 16 + dist.toNat / 256, dist.toNat % 256] := by
  have hd := dist.isLt
  simp only [matchBytes, List.map_cons, List.map_nil, toNat_append_nibbles, BitVec.extractLsb'_toNat,
    Nat.shiftRight_eq_div_pow, Nat.reducePow, Nat.div_one]
  congr 2
  omega

end Sys2Proof
end

