-- ==== Sys2Proof/Laws/Codecs.lean ====
section
/-!
SUPPORT. The pieces of the codecs, said once each: a run's length, one step of the RLE encoder, the LZSS match length and
best match, the legality of a configuration, and that the loops' fuel and accumulated output do not matter.
-/

namespace Sys2Proof.Machine

/-! ## RLE -/

theorem runLength_le (b : Byte) (k : Nat) (l : List Byte) : runLength b k l ≤ k ∧ runLength b k l ≤ l.length := by
  induction k generalizing l with
  | zero => simp [runLength]
  | succ k ih =>
    cases l with
    | nil => simp [runLength]
    | cons x xs =>
      have h := ih xs
      simp only [runLength, List.length_cons]
      split <;> omega

/-- The run's bytes are all `b`, and what is left follows them. -/
theorem runLength_split (b : Byte) (k : Nat) (l : List Byte) :
    l = List.replicate (runLength b k l) b ++ l.drop (runLength b k l) := by
  induction k generalizing l with
  | zero => simp [runLength]
  | succ k ih =>
    cases l with
    | nil => simp [runLength]
    | cons x xs =>
      simp only [runLength]
      split
      · next h => subst h; simpa [List.replicate_succ] using ih xs
      · simp

/-- A run that ends after `n` bytes, counted up to `k`. -/
theorem runLength_replicate {b : Byte} {rest : List Byte} (h : rest.head? ≠ some b) (k n : Nat) :
    runLength b k (List.replicate n b ++ rest) = min k n := by
  induction k generalizing n with
  | zero => simp [runLength]
  | succ k ih =>
    cases n with
    | zero =>
      cases rest with
      | nil => simp [runLength]
      | cons x xs =>
        have hx : x ≠ b := by simpa using h
        simp [runLength, hx]
    | succ n => simp [List.replicate_succ, runLength, ih]

/-- Fuel beyond the input's length changes nothing. -/
theorem rleEncLoop_fuel (f g : Nat) (out l : List Byte) (hf : l.length ≤ f) (hg : l.length ≤ g) :
    rleEncLoop f out l = rleEncLoop g out l := by
  induction f generalizing g out l with
  | zero =>
    have hl : l = [] := List.length_eq_zero_iff.mp (by omega)
    subst hl
    cases g <;> rfl
  | succ f ih =>
    cases l with
    | nil => cases g <;> rfl
    | cons x xs =>
      cases g with
      | zero => simp at hg
      | succ g =>
        simp only [List.length_cons] at hf hg
        simp only [rleEncLoop]
        refine ih g _ _ ?_ ?_ <;> simp only [rlePairOf, List.length_drop] <;> omega

/-- The output so far is only carried along. -/
theorem rleEncLoop_out (f : Nat) (out l : List Byte) : rleEncLoop f out l = out ++ rleEncLoop f [] l := by
  induction f generalizing out l with
  | zero => simp [rleEncLoop]
  | succ f ih =>
    cases l with
    | nil => simp [rleEncLoop]
    | cons x xs =>
      simp only [rleEncLoop]
      rw [ih (out ++ _), ih ([] ++ _)]
      simp

/-- One pair, then the encoding of what is left (R150). -/
theorem rleEnc_cons (b : Byte) (l : List Byte) :
    rleEnc (b :: l) = BitVec.ofNat 8 (runLength b 254 l + 1) :: b :: rleEnc (l.drop (runLength b 254 l)) := by
  simp only [rleEnc, rleEncFrom, List.length_cons, rleEncLoop]
  rw [rleEncLoop_out]
  simp only [rlePairOf, List.nil_append, List.cons_append]
  rw [rleEncLoop_fuel l.length (l.drop (runLength b 254 l)).length _ _ (by simp) le_rfl]

/-! ## LZSS -/

/-- R170 as a conjunction. -/
theorem LzConfig.legal_iff (c : LzConfig) (limit : Nat) :
    c.legal limit = true ↔
      (1 ≤ c.window.toNat ∧ c.window.toNat ≤ 4096) ∧
      (1 ≤ c.minMatch.toNat ∧ c.minMatch.toNat ≤ c.maxMatch.toNat ∧ c.maxMatch.toNat ≤ c.minMatch.toNat + 15) ∧
      (1 ≤ c.hashLimit.toNat ∧ c.hashLimit.toNat ≤ limit) := by
  unfold LzConfig.legal
  simp only [Bool.and_eq_true, decide_eq_true_eq]
  simp only [Config.windowMax]
  tauto

theorem matchLength_le (k : Nat) (a b : List Byte) :
    matchLength k a b ≤ k ∧ matchLength k a b ≤ a.length ∧ matchLength k a b ≤ b.length := by
  induction k generalizing a b with
  | zero => simp [matchLength]
  | succ k ih =>
    cases a with
    | nil => simp [matchLength]
    | cons x xs =>
      cases b with
      | nil => simp [matchLength]
      | cons y ys =>
        have h := ih xs ys
        simp only [matchLength, List.length_cons]
        split <;> omega

/-- The matched bytes agree (R177). -/
theorem matchLength_agrees (k : Nat) (a b : List Byte) {i : Nat} (h : i < matchLength k a b) : a[i]? = b[i]? := by
  induction k generalizing a b i with
  | zero => simp [matchLength] at h
  | succ k ih =>
    cases a with
    | nil => simp [matchLength] at h
    | cons x xs =>
      cases b with
      | nil => simp [matchLength] at h
      | cons y ys =>
        simp only [matchLength] at h
        split at h
        · next hxy =>
          subst hxy
          cases i with
          | zero => rfl
          | succ i => simpa using ih xs ys (by omega)
        · simp at h

/-- The match goes on until one of its three bounds stops it (R177). -/
theorem matchLength_maximal (k : Nat) (a b : List Byte) (h : b.length ≤ a.length) :
    matchLength k a b = k ∨ matchLength k a b = b.length ∨
      byteAt a (matchLength k a b) ≠ byteAt b (matchLength k a b) := by
  induction k generalizing a b with
  | zero => exact .inl rfl
  | succ k ih =>
    cases b with
    | nil => cases a <;> exact .inr (.inl rfl)
    | cons y ys =>
      cases a with
      | nil => simp at h
      | cons x xs =>
        simp only [matchLength]
        split
        · rcases ih xs ys (by simpa using h) with e | e | e
          · exact .inl (by omega)
          · exact .inr (.inl (by simp [e]))
          · exact .inr (.inr (by simpa [byteAt] using e))
        · next hxy => exact .inr (.inr (by simpa [byteAt] using hxy))

/-- The buckets after an insertion: the key's bucket takes the position, the others stay (R174). -/
theorem HashTable.bucket_insert (limit : Nat) (table : HashTable) (key other : Byte × Byte) (p : Nat) :
    (table.insert limit key p).bucket other =
      if other = key then pruned limit (table.bucket key ++ [p]) else table.bucket other := by
  induction table with
  | nil => simp only [HashTable.insert, HashTable.bucket, eq_comm (a := key), List.nil_append]
  | cons entry rest ih =>
    obtain ⟨k, b⟩ := entry
    simp only [HashTable.insert]
    split
    · next hk =>
      subst hk
      simp only [HashTable.bucket, eq_comm (a := k), if_true]
      split <;> rfl
    · next hk =>
      simp only [HashTable.bucket, ih, if_neg hk]
      by_cases ho : other = key
      · subst ho; simp [hk]
      · simp [ho]

/-- The best match is none, or the length and distance of one candidate inside the window (R175, R177). -/
theorem bestMatch_cases (cfg : LzConfig) (s : List Byte) (p : Nat) (table : HashTable) :
    bestMatch cfg s p table = (0, 0) ∨
      ∃ c, 1 ≤ p - c ∧ p - c ≤ cfg.window.toNat ∧
        bestMatch cfg s p table = (matchLength cfg.maxMatch.toNat (s.drop c) (s.drop p), p - c) := by
  have scan : ∀ (l : List Nat) (b : Nat × Nat),
      (b = (0, 0) ∨ ∃ c, 1 ≤ p - c ∧ p - c ≤ cfg.window.toNat ∧
        b = (matchLength cfg.maxMatch.toNat (s.drop c) (s.drop p), p - c)) →
      (l.foldl (scanCandidate cfg s p) b = (0, 0) ∨ ∃ c, 1 ≤ p - c ∧ p - c ≤ cfg.window.toNat ∧
        l.foldl (scanCandidate cfg s p) b = (matchLength cfg.maxMatch.toNat (s.drop c) (s.drop p), p - c)) := by
    intro l
    induction l with
    | nil => exact fun b hb => hb
    | cons c l ih =>
      intro b hb
      refine ih _ ?_
      unfold scanCandidate
      split
      · next h => exact .inr ⟨c, h.1, h.2.1, rfl⟩
      · exact hb
  unfold bestMatch
  split
  · exact scan _ _ (.inl rfl)
  · exact .inl rfl

/-- A token under a legal configuration consumes at least one byte (R172). -/
theorem tokenAt_consumes {cfg : LzConfig} {limit : Nat} (hl : cfg.legal limit = true) (s : List Byte) (p : Nat)
    (table : HashTable) : 1 ≤ (tokenAt cfg s p table).2 := by
  have hm := ((cfg.legal_iff limit).mp hl).2.1.1
  unfold tokenAt
  dsimp only
  split
  · next h =>
    simp only [emitsMatch, Bool.and_eq_true, decide_eq_true_eq] at h
    exact le_trans hm h.1
  · exact le_rfl

/-- Fuel beyond the input left changes nothing, under a legal configuration. -/
theorem lzssEncLoop_fuel {cfg : LzConfig} {limit : Nat} (hl : cfg.legal limit = true) (s : List Byte) (f g p : Nat)
    (out : List Byte) (table : HashTable) (hf : s.length ≤ p + f) (hg : s.length ≤ p + g) :
    lzssEncLoop cfg s f p out table = lzssEncLoop cfg s g p out table := by
  induction f generalizing g p out table with
  | zero =>
    cases g with
    | zero => rfl
    | succ g => rw [lzssEncLoop, lzssEncLoop, if_neg (by omega)]
  | succ f ih =>
    cases g with
    | zero => rw [lzssEncLoop, lzssEncLoop, if_neg (by omega)]
    | succ g =>
      have hc := tokenAt_consumes hl s p table
      simp only [lzssEncLoop]
      split
      · exact ih g _ _ _ (by omega) (by omega)
      · rfl

/-- The output so far is only carried along. -/
theorem lzssEncLoop_out (cfg : LzConfig) (s : List Byte) (f p : Nat) (out : List Byte) (table : HashTable) :
    lzssEncLoop cfg s f p out table = out ++ lzssEncLoop cfg s f p [] table := by
  induction f generalizing p out table with
  | zero => simp [lzssEncLoop]
  | succ f ih =>
    simp only [lzssEncLoop]
    split
    · rw [ih _ (out ++ _), ih _ ([] ++ _)]
      simp
    · simp

theorem copyBack_length (d n : Nat) (out : List Byte) : (copyBack d n out).length = out.length + n := by
  induction n generalizing out with
  | zero => rfl
  | succ n ih =>
    rw [copyBack, ih]
    simp
    omega

/-- The copy only appends (R183). -/
theorem copyBack_prefix (d n : Nat) (out : List Byte) : ∃ more, copyBack d n out = out ++ more := by
  induction n generalizing out with
  | zero => exact ⟨[], by simp [copyBack]⟩
  | succ n ih =>
    obtain ⟨more, h⟩ := ih (out ++ [byteAt out (out.length - d)])
    exact ⟨_, by rw [copyBack, h, List.append_assoc]⟩

/-! ## Frames -/

theorem frameBytes_length (codec : Byte) (original payload : List Byte) :
    (frameBytes codec original payload).length = 13 + payload.length := by
  simp only [frameBytes, magicCurrent, le32, List.length_append, List.length_cons, List.length_nil]

end Sys2Proof.Machine
end

