-- ==== Sys2Proof/Laws/State.lean ====
section
/-!
SUPPORT. What each named update of the state does to each field, so that no proof unfolds a record update.
-/

namespace Sys2Proof.Machine

section writeStatus
variable (s : State) (v : Word)
@[simp] theorem State.writeStatus_params : (s.writeStatus v).params = s.params := rfl
@[simp] theorem State.writeStatus_rstN : (s.writeStatus v).rstN = s.rstN := rfl
@[simp] theorem State.writeStatus_ie : (s.writeStatus v).ie = s.ie := rfl
@[simp] theorem State.writeStatus_cmd : (s.writeStatus v).cmd = s.cmd := rfl
@[simp] theorem State.writeStatus_done : (s.writeStatus v).done = (s.done && !v.getLsbD 1) := rfl
@[simp] theorem State.writeStatus_wbusy : (s.writeStatus v).wbusy = (s.wbusy && !v.getLsbD 2) := rfl
@[simp] theorem State.writeStatus_code : (s.writeStatus v).code = s.code := rfl
@[simp] theorem State.writeStatus_soft : (s.writeStatus v).soft = s.soft := rfl
@[simp] theorem State.writeStatus_inLen : (s.writeStatus v).inLen = s.inLen := rfl
@[simp] theorem State.writeStatus_outLen : (s.writeStatus v).outLen = s.outLen := rfl
@[simp] theorem State.writeStatus_result : (s.writeStatus v).result = s.result := rfl
@[simp] theorem State.writeStatus_frhdr : (s.writeStatus v).frhdr = s.frhdr := rfl
@[simp] theorem State.writeStatus_frlen : (s.writeStatus v).frlen = s.frlen := rfl
@[simp] theorem State.writeStatus_frcrc : (s.writeStatus v).frcrc = s.frcrc := rfl
@[simp] theorem State.writeStatus_calccrc : (s.writeStatus v).calccrc = s.calccrc := rfl
@[simp] theorem State.writeStatus_lz : (s.writeStatus v).lz = s.lz := rfl
@[simp] theorem State.writeStatus_inBuf : (s.writeStatus v).inBuf = s.inBuf := rfl
@[simp] theorem State.writeStatus_inDraw : (s.writeStatus v).inDraw = s.inDraw := rfl
@[simp] theorem State.writeStatus_outBuf : (s.writeStatus v).outBuf = s.outBuf := rfl
@[simp] theorem State.writeStatus_outDraw : (s.writeStatus v).outDraw = s.outDraw := rfl
@[simp] theorem State.writeStatus_running : (s.writeStatus v).running = s.running := rfl
@[simp] theorem State.writeStatus_latched : (s.writeStatus v).latched = s.latched := rfl
@[simp] theorem State.writeStatus_work : (s.writeStatus v).work = s.work := rfl
@[simp] theorem State.writeStatus_host : (s.writeStatus v).host = s.host := rfl
@[simp] theorem State.writeStatus_rdata : (s.writeStatus v).rdata = s.rdata := rfl
@[simp] theorem State.writeStatus_turns : (s.writeStatus v).turns = s.turns := rfl
@[simp] theorem State.writeStatus_draws : (s.writeStatus v).draws = s.draws := rfl
end writeStatus

section noteWbusy
variable (s : State)
@[simp] theorem State.noteWbusy_params : s.noteWbusy.params = s.params := rfl
@[simp] theorem State.noteWbusy_rstN : s.noteWbusy.rstN = s.rstN := rfl
@[simp] theorem State.noteWbusy_ie : s.noteWbusy.ie = s.ie := rfl
@[simp] theorem State.noteWbusy_cmd : s.noteWbusy.cmd = s.cmd := rfl
@[simp] theorem State.noteWbusy_done : s.noteWbusy.done = s.done := rfl
@[simp] theorem State.noteWbusy_wbusy : s.noteWbusy.wbusy = true := rfl
@[simp] theorem State.noteWbusy_code : s.noteWbusy.code = s.code := rfl
@[simp] theorem State.noteWbusy_soft : s.noteWbusy.soft = s.soft := rfl
@[simp] theorem State.noteWbusy_inLen : s.noteWbusy.inLen = s.inLen := rfl
@[simp] theorem State.noteWbusy_outLen : s.noteWbusy.outLen = s.outLen := rfl
@[simp] theorem State.noteWbusy_result : s.noteWbusy.result = s.result := rfl
@[simp] theorem State.noteWbusy_frhdr : s.noteWbusy.frhdr = s.frhdr := rfl
@[simp] theorem State.noteWbusy_frlen : s.noteWbusy.frlen = s.frlen := rfl
@[simp] theorem State.noteWbusy_frcrc : s.noteWbusy.frcrc = s.frcrc := rfl
@[simp] theorem State.noteWbusy_calccrc : s.noteWbusy.calccrc = s.calccrc := rfl
@[simp] theorem State.noteWbusy_lz : s.noteWbusy.lz = s.lz := rfl
@[simp] theorem State.noteWbusy_inBuf : s.noteWbusy.inBuf = s.inBuf := rfl
@[simp] theorem State.noteWbusy_inDraw : s.noteWbusy.inDraw = s.inDraw := rfl
@[simp] theorem State.noteWbusy_outBuf : s.noteWbusy.outBuf = s.outBuf := rfl
@[simp] theorem State.noteWbusy_outDraw : s.noteWbusy.outDraw = s.outDraw := rfl
@[simp] theorem State.noteWbusy_running : s.noteWbusy.running = s.running := rfl
@[simp] theorem State.noteWbusy_latched : s.noteWbusy.latched = s.latched := rfl
@[simp] theorem State.noteWbusy_work : s.noteWbusy.work = s.work := rfl
@[simp] theorem State.noteWbusy_host : s.noteWbusy.host = s.host := rfl
@[simp] theorem State.noteWbusy_rdata : s.noteWbusy.rdata = s.rdata := rfl
@[simp] theorem State.noteWbusy_turns : s.noteWbusy.turns = s.turns := rfl
@[simp] theorem State.noteWbusy_draws : s.noteWbusy.draws = s.draws := rfl
end noteWbusy

section writeInByte
variable (s : State) (i : Nat) (b : Byte)
@[simp] theorem State.writeInByte_params : (s.writeInByte i b).params = s.params := rfl
@[simp] theorem State.writeInByte_rstN : (s.writeInByte i b).rstN = s.rstN := rfl
@[simp] theorem State.writeInByte_ie : (s.writeInByte i b).ie = s.ie := rfl
@[simp] theorem State.writeInByte_cmd : (s.writeInByte i b).cmd = s.cmd := rfl
@[simp] theorem State.writeInByte_done : (s.writeInByte i b).done = s.done := rfl
@[simp] theorem State.writeInByte_wbusy : (s.writeInByte i b).wbusy = s.wbusy := rfl
@[simp] theorem State.writeInByte_code : (s.writeInByte i b).code = s.code := rfl
@[simp] theorem State.writeInByte_soft : (s.writeInByte i b).soft = s.soft := rfl
@[simp] theorem State.writeInByte_inLen : (s.writeInByte i b).inLen = s.inLen := rfl
@[simp] theorem State.writeInByte_outLen : (s.writeInByte i b).outLen = s.outLen := rfl
@[simp] theorem State.writeInByte_result : (s.writeInByte i b).result = s.result := rfl
@[simp] theorem State.writeInByte_frhdr : (s.writeInByte i b).frhdr = s.frhdr := rfl
@[simp] theorem State.writeInByte_frlen : (s.writeInByte i b).frlen = s.frlen := rfl
@[simp] theorem State.writeInByte_frcrc : (s.writeInByte i b).frcrc = s.frcrc := rfl
@[simp] theorem State.writeInByte_calccrc : (s.writeInByte i b).calccrc = s.calccrc := rfl
@[simp] theorem State.writeInByte_lz : (s.writeInByte i b).lz = s.lz := rfl
@[simp] theorem State.writeInByte_inBuf : (s.writeInByte i b).inBuf = s.inBuf.write i b := rfl
@[simp] theorem State.writeInByte_inDraw : (s.writeInByte i b).inDraw = s.inDraw := rfl
@[simp] theorem State.writeInByte_outBuf : (s.writeInByte i b).outBuf = s.outBuf := rfl
@[simp] theorem State.writeInByte_outDraw : (s.writeInByte i b).outDraw = s.outDraw := rfl
@[simp] theorem State.writeInByte_running : (s.writeInByte i b).running = s.running := rfl
@[simp] theorem State.writeInByte_latched : (s.writeInByte i b).latched = s.latched := rfl
@[simp] theorem State.writeInByte_work : (s.writeInByte i b).work = s.work := rfl
@[simp] theorem State.writeInByte_host : (s.writeInByte i b).host = s.host := rfl
@[simp] theorem State.writeInByte_rdata : (s.writeInByte i b).rdata = s.rdata := rfl
@[simp] theorem State.writeInByte_turns : (s.writeInByte i b).turns = s.turns := rfl
@[simp] theorem State.writeInByte_draws : (s.writeInByte i b).draws = s.draws := rfl
end writeInByte

section accept
variable (s : State) (w : Word)
@[simp] theorem State.accept_params : (s.accept w).params = s.params := rfl
@[simp] theorem State.accept_rstN : (s.accept w).rstN = s.rstN := rfl
@[simp] theorem State.accept_ie : (s.accept w).ie = s.ie := rfl
@[simp] theorem State.accept_cmd : (s.accept w).cmd = w := rfl
@[simp] theorem State.accept_done : (s.accept w).done = false := rfl
@[simp] theorem State.accept_wbusy : (s.accept w).wbusy = s.wbusy := rfl
@[simp] theorem State.accept_code : (s.accept w).code = .ok := rfl
@[simp] theorem State.accept_soft : (s.accept w).soft = SoftFlags.none := rfl
@[simp] theorem State.accept_inLen : (s.accept w).inLen = s.inLen := rfl
@[simp] theorem State.accept_outLen : (s.accept w).outLen = 0 := rfl
@[simp] theorem State.accept_result : (s.accept w).result = 0 := rfl
@[simp] theorem State.accept_frhdr : (s.accept w).frhdr = 0 := rfl
@[simp] theorem State.accept_frlen : (s.accept w).frlen = 0 := rfl
@[simp] theorem State.accept_frcrc : (s.accept w).frcrc = 0 := rfl
@[simp] theorem State.accept_calccrc : (s.accept w).calccrc = 0 := rfl
@[simp] theorem State.accept_lz : (s.accept w).lz = s.lz := rfl
@[simp] theorem State.accept_inBuf : (s.accept w).inBuf = s.inBuf := rfl
@[simp] theorem State.accept_inDraw : (s.accept w).inDraw = s.inDraw := rfl
@[simp] theorem State.accept_outBuf : (s.accept w).outBuf = s.outBuf := rfl
@[simp] theorem State.accept_outDraw : (s.accept w).outDraw = s.outDraw := rfl
@[simp] theorem State.accept_running : (s.accept w).running = true := rfl
@[simp] theorem State.accept_latched : (s.accept w).latched = some (s.latch w) := rfl
@[simp] theorem State.accept_work : (s.accept w).work = .fresh := rfl
@[simp] theorem State.accept_host : (s.accept w).host = s.host := rfl
@[simp] theorem State.accept_rdata : (s.accept w).rdata = s.rdata := rfl
@[simp] theorem State.accept_turns : (s.accept w).turns = s.turns := rfl
@[simp] theorem State.accept_draws : (s.accept w).draws = s.draws := rfl
end accept

section finish
variable (s : State) (c : Code) (out : List Byte) (f : SoftFlags) (r : ResultRegs)
@[simp] theorem State.finish_params : (s.finish c out f r).params = s.params := rfl
@[simp] theorem State.finish_rstN : (s.finish c out f r).rstN = s.rstN := rfl
@[simp] theorem State.finish_ie : (s.finish c out f r).ie = s.ie := rfl
@[simp] theorem State.finish_cmd : (s.finish c out f r).cmd = s.cmd := rfl
@[simp] theorem State.finish_done : (s.finish c out f r).done = true := rfl
@[simp] theorem State.finish_wbusy : (s.finish c out f r).wbusy = s.wbusy := rfl
@[simp] theorem State.finish_code : (s.finish c out f r).code = c := rfl
@[simp] theorem State.finish_soft : (s.finish c out f r).soft = f := rfl
@[simp] theorem State.finish_inLen : (s.finish c out f r).inLen = s.inLen := rfl
@[simp] theorem State.finish_outLen : (s.finish c out f r).outLen = BitVec.ofNat 32 out.length := rfl
@[simp] theorem State.finish_result : (s.finish c out f r).result = r.result.getD s.result := rfl
@[simp] theorem State.finish_frhdr : (s.finish c out f r).frhdr = r.frhdr.getD s.frhdr := rfl
@[simp] theorem State.finish_frlen : (s.finish c out f r).frlen = r.frlen.getD s.frlen := rfl
@[simp] theorem State.finish_frcrc : (s.finish c out f r).frcrc = r.frcrc.getD s.frcrc := rfl
@[simp] theorem State.finish_calccrc : (s.finish c out f r).calccrc = r.calccrc.getD s.calccrc := rfl
@[simp] theorem State.finish_lz : (s.finish c out f r).lz = s.lz := rfl
@[simp] theorem State.finish_inBuf : (s.finish c out f r).inBuf = s.inBuf := rfl
@[simp] theorem State.finish_inDraw : (s.finish c out f r).inDraw = s.inDraw := rfl
@[simp] theorem State.finish_outBuf : (s.finish c out f r).outBuf = Memory.ofBytes 0 out := rfl
@[simp] theorem State.finish_outDraw : (s.finish c out f r).outDraw = s.draws := rfl
@[simp] theorem State.finish_running : (s.finish c out f r).running = false := rfl
@[simp] theorem State.finish_latched : (s.finish c out f r).latched = none := rfl
@[simp] theorem State.finish_work : (s.finish c out f r).work = .fresh := rfl
@[simp] theorem State.finish_host : (s.finish c out f r).host = s.host := rfl
@[simp] theorem State.finish_rdata : (s.finish c out f r).rdata = s.rdata := rfl
@[simp] theorem State.finish_turns : (s.finish c out f r).turns = s.turns := rfl
@[simp] theorem State.finish_draws : (s.finish c out f r).draws = s.draws + 1 := rfl
end finish

section softReset
variable (s : State)
@[simp] theorem State.softReset_params : s.softReset.params = s.params := rfl
@[simp] theorem State.softReset_rstN : s.softReset.rstN = s.rstN := rfl
@[simp] theorem State.softReset_ie : s.softReset.ie = false := rfl
@[simp] theorem State.softReset_cmd : s.softReset.cmd = 0 := rfl
@[simp] theorem State.softReset_done : s.softReset.done = false := rfl
@[simp] theorem State.softReset_wbusy : s.softReset.wbusy = false := rfl
@[simp] theorem State.softReset_code : s.softReset.code = .ok := rfl
@[simp] theorem State.softReset_soft : s.softReset.soft = SoftFlags.none := rfl
@[simp] theorem State.softReset_inLen : s.softReset.inLen = 0 := rfl
@[simp] theorem State.softReset_outLen : s.softReset.outLen = 0 := rfl
@[simp] theorem State.softReset_result : s.softReset.result = 0 := rfl
@[simp] theorem State.softReset_frhdr : s.softReset.frhdr = 0 := rfl
@[simp] theorem State.softReset_frlen : s.softReset.frlen = 0 := rfl
@[simp] theorem State.softReset_frcrc : s.softReset.frcrc = 0 := rfl
@[simp] theorem State.softReset_calccrc : s.softReset.calccrc = 0 := rfl
@[simp] theorem State.softReset_lz : s.softReset.lz = LzConfig.default := rfl
@[simp] theorem State.softReset_inBuf : s.softReset.inBuf = s.inBuf := rfl
@[simp] theorem State.softReset_inDraw : s.softReset.inDraw = s.inDraw := rfl
@[simp] theorem State.softReset_outBuf : s.softReset.outBuf = [] := rfl
@[simp] theorem State.softReset_outDraw : s.softReset.outDraw = s.draws := rfl
@[simp] theorem State.softReset_running : s.softReset.running = false := rfl
@[simp] theorem State.softReset_latched : s.softReset.latched = none := rfl
@[simp] theorem State.softReset_work : s.softReset.work = .fresh := rfl
@[simp] theorem State.softReset_host : s.softReset.host = s.host := rfl
@[simp] theorem State.softReset_rdata : s.softReset.rdata = s.rdata := rfl
@[simp] theorem State.softReset_turns : s.softReset.turns = s.turns := rfl
@[simp] theorem State.softReset_draws : s.softReset.draws = s.draws + 1 := rfl
end softReset

section powerOn
variable (s : State)
@[simp] theorem State.powerOn_params : s.powerOn.params = s.params := rfl
@[simp] theorem State.powerOn_rstN : s.powerOn.rstN = s.rstN := rfl
@[simp] theorem State.powerOn_ie : s.powerOn.ie = false := rfl
@[simp] theorem State.powerOn_cmd : s.powerOn.cmd = 0 := rfl
@[simp] theorem State.powerOn_done : s.powerOn.done = false := rfl
@[simp] theorem State.powerOn_wbusy : s.powerOn.wbusy = false := rfl
@[simp] theorem State.powerOn_code : s.powerOn.code = .ok := rfl
@[simp] theorem State.powerOn_soft : s.powerOn.soft = SoftFlags.none := rfl
@[simp] theorem State.powerOn_inLen : s.powerOn.inLen = 0 := rfl
@[simp] theorem State.powerOn_outLen : s.powerOn.outLen = 0 := rfl
@[simp] theorem State.powerOn_result : s.powerOn.result = 0 := rfl
@[simp] theorem State.powerOn_frhdr : s.powerOn.frhdr = 0 := rfl
@[simp] theorem State.powerOn_frlen : s.powerOn.frlen = 0 := rfl
@[simp] theorem State.powerOn_frcrc : s.powerOn.frcrc = 0 := rfl
@[simp] theorem State.powerOn_calccrc : s.powerOn.calccrc = 0 := rfl
@[simp] theorem State.powerOn_lz : s.powerOn.lz = LzConfig.default := rfl
@[simp] theorem State.powerOn_inBuf : s.powerOn.inBuf = [] := rfl
@[simp] theorem State.powerOn_inDraw : s.powerOn.inDraw = s.draws := rfl
@[simp] theorem State.powerOn_outBuf : s.powerOn.outBuf = [] := rfl
@[simp] theorem State.powerOn_outDraw : s.powerOn.outDraw = s.draws + 1 := rfl
@[simp] theorem State.powerOn_running : s.powerOn.running = false := rfl
@[simp] theorem State.powerOn_latched : s.powerOn.latched = none := rfl
@[simp] theorem State.powerOn_work : s.powerOn.work = .fresh := rfl
@[simp] theorem State.powerOn_host : s.powerOn.host = s.host := rfl
@[simp] theorem State.powerOn_rdata : s.powerOn.rdata = s.rdata := rfl
@[simp] theorem State.powerOn_turns : s.powerOn.turns = s.turns := rfl
@[simp] theorem State.powerOn_draws : s.powerOn.draws = s.draws + 2 := rfl
end powerOn

section decoded
variable (s : State) (out : List Byte) (f : SoftFlags)
@[simp] theorem State.decoded_params : (s.decoded out f).params = s.params := rfl
@[simp] theorem State.decoded_rstN : (s.decoded out f).rstN = s.rstN := rfl
@[simp] theorem State.decoded_ie : (s.decoded out f).ie = s.ie := rfl
@[simp] theorem State.decoded_cmd : (s.decoded out f).cmd = s.cmd := rfl
@[simp] theorem State.decoded_done : (s.decoded out f).done = s.done := rfl
@[simp] theorem State.decoded_wbusy : (s.decoded out f).wbusy = s.wbusy := rfl
@[simp] theorem State.decoded_code : (s.decoded out f).code = s.code := rfl
@[simp] theorem State.decoded_soft : (s.decoded out f).soft = s.soft := rfl
@[simp] theorem State.decoded_inLen : (s.decoded out f).inLen = s.inLen := rfl
@[simp] theorem State.decoded_outLen : (s.decoded out f).outLen = s.outLen := rfl
@[simp] theorem State.decoded_result : (s.decoded out f).result = s.result := rfl
@[simp] theorem State.decoded_frhdr : (s.decoded out f).frhdr = s.frhdr := rfl
@[simp] theorem State.decoded_frlen : (s.decoded out f).frlen = s.frlen := rfl
@[simp] theorem State.decoded_frcrc : (s.decoded out f).frcrc = s.frcrc := rfl
@[simp] theorem State.decoded_calccrc : (s.decoded out f).calccrc = s.calccrc := rfl
@[simp] theorem State.decoded_lz : (s.decoded out f).lz = s.lz := rfl
@[simp] theorem State.decoded_inBuf : (s.decoded out f).inBuf = s.inBuf := rfl
@[simp] theorem State.decoded_inDraw : (s.decoded out f).inDraw = s.inDraw := rfl
@[simp] theorem State.decoded_outBuf : (s.decoded out f).outBuf = s.outBuf := rfl
@[simp] theorem State.decoded_outDraw : (s.decoded out f).outDraw = s.outDraw := rfl
@[simp] theorem State.decoded_running : (s.decoded out f).running = s.running := rfl
@[simp] theorem State.decoded_latched : (s.decoded out f).latched = s.latched := rfl
@[simp] theorem State.decoded_work : (s.decoded out f).work = .decoding ((s.decodeWork 0).1 + 2) out ((s.decodeWork 0).2.2.union f) := rfl
@[simp] theorem State.decoded_host : (s.decoded out f).host = s.host := rfl
@[simp] theorem State.decoded_rdata : (s.decoded out f).rdata = s.rdata := rfl
@[simp] theorem State.decoded_turns : (s.decoded out f).turns = s.turns := rfl
@[simp] theorem State.decoded_draws : (s.decoded out f).draws = s.draws := rfl
end decoded

section busRead
variable (s : State) (a : Nat) (z : Size)
@[simp] theorem State.busRead_params : (s.busRead a z).params = s.params := rfl
@[simp] theorem State.busRead_rstN : (s.busRead a z).rstN = s.rstN := rfl
@[simp] theorem State.busRead_ie : (s.busRead a z).ie = s.ie := rfl
@[simp] theorem State.busRead_cmd : (s.busRead a z).cmd = s.cmd := rfl
@[simp] theorem State.busRead_done : (s.busRead a z).done = s.done := rfl
@[simp] theorem State.busRead_wbusy : (s.busRead a z).wbusy = s.wbusy := rfl
@[simp] theorem State.busRead_code : (s.busRead a z).code = s.code := rfl
@[simp] theorem State.busRead_soft : (s.busRead a z).soft = s.soft := rfl
@[simp] theorem State.busRead_inLen : (s.busRead a z).inLen = s.inLen := rfl
@[simp] theorem State.busRead_outLen : (s.busRead a z).outLen = s.outLen := rfl
@[simp] theorem State.busRead_result : (s.busRead a z).result = s.result := rfl
@[simp] theorem State.busRead_frhdr : (s.busRead a z).frhdr = s.frhdr := rfl
@[simp] theorem State.busRead_frlen : (s.busRead a z).frlen = s.frlen := rfl
@[simp] theorem State.busRead_frcrc : (s.busRead a z).frcrc = s.frcrc := rfl
@[simp] theorem State.busRead_calccrc : (s.busRead a z).calccrc = s.calccrc := rfl
@[simp] theorem State.busRead_lz : (s.busRead a z).lz = s.lz := rfl
@[simp] theorem State.busRead_inBuf : (s.busRead a z).inBuf = s.inBuf := rfl
@[simp] theorem State.busRead_inDraw : (s.busRead a z).inDraw = s.inDraw := rfl
@[simp] theorem State.busRead_outBuf : (s.busRead a z).outBuf = s.outBuf := rfl
@[simp] theorem State.busRead_outDraw : (s.busRead a z).outDraw = s.outDraw := rfl
@[simp] theorem State.busRead_running : (s.busRead a z).running = s.running := rfl
@[simp] theorem State.busRead_latched : (s.busRead a z).latched = s.latched := rfl
@[simp] theorem State.busRead_work : (s.busRead a z).work = s.work := rfl
@[simp] theorem State.busRead_host : (s.busRead a z).host = s.host := rfl
@[simp] theorem State.busRead_rdata : (s.busRead a z).rdata = some (s.memRead a z) := rfl
@[simp] theorem State.busRead_turns : (s.busRead a z).turns = s.turns := rfl
@[simp] theorem State.busRead_draws : (s.busRead a z).draws = s.draws + s.readDraws a z := rfl
end busRead

end Sys2Proof.Machine
end

