-- ==== Sys2Proof/Laws/Memory.lean ====
section
/-!
SUPPORT. The basic laws of a buffer's contents: reading after writing, the canonical form, and its bounds.
-/

namespace Sys2Proof.Machine

theorem Memory.read_write_same (m : Memory) (i : Nat) (b : Byte) : (m.write i b).read i = some b := by
  induction m with
  | nil => simp [Memory.write, Memory.read]
  | cons cell rest ih =>
    obtain ⟨a, v⟩ := cell
    simp only [Memory.write]
    split
    · simp [Memory.read]
    · split
      · simp [Memory.read]
      · next h => simpa [Memory.read, h] using ih

theorem Memory.read_write_other (m : Memory) {i j : Nat} (b : Byte) (h : j ≠ i) :
    (m.write i b).read j = m.read j := by
  induction m with
  | nil => simp [Memory.write, Memory.read, Ne.symm h]
  | cons cell rest ih =>
    obtain ⟨a, v⟩ := cell
    simp only [Memory.write]
    split
    · simp [Memory.read, Ne.symm h]
    · split
      · next hai => subst hai; simp [Memory.read, Ne.symm h]
      · simp only [Memory.read, ih]

/-- A canonical list whose indices all lie above `i` reads nothing at `i`. -/
theorem Memory.wf_cons {a : Nat} {v : Byte} {m : Memory} (h : Memory.wf ((a, v) :: m) = true) : Memory.wf m = true := by
  cases m with
  | nil => rfl
  | cons c r =>
    obtain ⟨b, w⟩ := c
    simp only [Memory.wf, Bool.and_eq_true] at h
    exact h.2

/-- What the canonical form says of its first two entries. -/
theorem Memory.wf_cons_iff {a : Nat} {v : Byte} {m : Memory} :
    Memory.wf ((a, v) :: m) = true ↔ (∀ c ∈ m.head?, a < c.1) ∧ Memory.wf m = true := by
  cases m with
  | nil => simp [Memory.wf]
  | cons c r => obtain ⟨b, w⟩ := c; simp [Memory.wf]

theorem Memory.head_write (m : Memory) (i : Nat) (b : Byte) :
    ∀ c ∈ (m.write i b).head?, c.1 = i ∨ ∃ d ∈ m.head?, c.1 = d.1 := by
  cases m with
  | nil => simp [Memory.write]
  | cons cell rest =>
    obtain ⟨a, v⟩ := cell
    simp only [Memory.write]
    split
    · simp
    · split
      · simp
      · simp

theorem Memory.wf_write {m : Memory} (i : Nat) (b : Byte) (h : m.wf = true) : (m.write i b).wf = true := by
  induction m with
  | nil => rfl
  | cons cell rest ih =>
    obtain ⟨a, v⟩ := cell
    obtain ⟨hhd, hwf⟩ := Memory.wf_cons_iff.mp h
    simp only [Memory.write]
    split
    · next hia => exact Memory.wf_cons_iff.mpr ⟨by simpa using hia, h⟩
    · split
      · next hai => subst hai; exact Memory.wf_cons_iff.mpr ⟨hhd, hwf⟩
      · next hge hne =>
        refine Memory.wf_cons_iff.mpr ⟨fun c hc => ?_, ih hwf⟩
        rcases Memory.head_write rest i b c hc with h1 | ⟨d, hd, h1⟩
        · omega
        · rw [h1]; exact hhd d hd

theorem Memory.wf_ofBytes (i : Nat) (bs : List Byte) : (Memory.ofBytes i bs).wf = true := by
  induction bs generalizing i with
  | nil => rfl
  | cons b rest ih =>
    refine Memory.wf_cons_iff.mpr ⟨fun c hc => ?_, ih (i + 1)⟩
    cases rest with
    | nil => simp [Memory.ofBytes] at hc
    | cons x xs => simp [Memory.ofBytes] at hc; subst hc; simp

theorem Memory.read_ofBytes (i k : Nat) (bs : List Byte) :
    (Memory.ofBytes i bs).read k = if i ≤ k then bs[k - i]? else none := by
  induction bs generalizing i with
  | nil => simp [Memory.ofBytes, Memory.read]
  | cons b rest ih =>
    simp only [Memory.ofBytes, Memory.read, ih]
    rcases Nat.lt_trichotomy i k with h | h | h
    · obtain ⟨n, rfl⟩ : ∃ n, k = i + 1 + n := ⟨k - (i + 1), by omega⟩
      have e1 : i + 1 + n - (i + 1) = n := by omega
      have e2 : i + 1 + n - i = n + 1 := by omega
      rw [if_neg (by omega), if_pos (by omega), if_pos (by omega), e1, e2, List.getElem?_cons_succ]
    · subst h; simp
    · rw [if_neg (by omega), if_neg (by omega), if_neg (by omega)]

theorem Memory.below_iff {cap : Nat} {m : Memory} : m.below cap = true ↔ ∀ c ∈ m, c.1 < cap := by
  simp [Memory.below]

theorem Memory.below_write {cap : Nat} {m : Memory} {i : Nat} (b : Byte) (h : m.below cap = true) (hi : i < cap) :
    (m.write i b).below cap = true := by
  induction m with
  | nil => simpa [Memory.write, Memory.below] using hi
  | cons cell rest ih =>
    obtain ⟨a, v⟩ := cell
    simp only [Memory.below, List.all_cons, Bool.and_eq_true, decide_eq_true_eq] at h ih ⊢
    simp only [Memory.write]
    split
    · simp [h, hi]
    · split
      · simp [h.2, hi]
      · simp [h.1, ih h.2]

theorem Memory.below_ofBytes {cap i : Nat} {bs : List Byte} (h : i + bs.length ≤ cap) :
    (Memory.ofBytes i bs).below cap = true := by
  induction bs generalizing i with
  | nil => rfl
  | cons b rest ih =>
    simp only [List.length_cons] at h
    have := ih (i := i + 1) (by omega)
    simp only [Memory.below] at this
    simp only [Memory.below, Memory.ofBytes, List.all_cons, this, Bool.and_true, decide_eq_true_eq]
    omega

/-- A byte of InBuf after one byte of it is written (R63, R68). -/
theorem State.inByte_writeInByte (s : State) (i j : Nat) (b : Byte) :
    (s.writeInByte i b).inByte j = if j = i then b else s.inByte j := by
  unfold State.inByte
  simp only [State.writeInByte_inBuf, State.writeInByte_inDraw]
  split
  · next h => subst h; simp [Memory.read_write_same]
  · next h => rw [Memory.read_write_other _ _ h]

end Sys2Proof.Machine
end

