-- ==== Sys2Proof/Laws/Ops.lean ====
section
/-!
SUPPORT. One lemma per shared operation that says once everything it can do: completion, delivery of an output, a data
unit, and what no acceptance or completion touches.
-/

namespace Sys2Proof.Machine

/-- Completion is exactly what R262 says of it. -/
theorem State.finish_completes (s : State) (code : Code) (out : List Byte) (flags : SoftFlags) (regs : ResultRegs) :
    Completes s (s.finish code out flags regs) code out flags regs where
  out_bytes i hi := by
    have hr : (Memory.ofBytes 0 out).read i = some out[i] := by
      rw [Memory.read_ofBytes, if_pos (Nat.zero_le i), Nat.sub_zero, List.getElem?_eq_getElem hi]
    simp [State.outByte, hr, byteAt, hi]
  out_rest i hi := by
    have hr : (Memory.ofBytes 0 out).read i = none := by
      rw [Memory.read_ofBytes, if_pos (Nat.zero_le i), Nat.sub_zero, List.getElem?_eq_none hi]
    simp [State.outByte, hr]
  out_len := rfl
  result := rfl
  frhdr := rfl
  frlen := rfl
  frcrc := rfl
  calccrc := rfl
  code := rfl
  soft := rfl
  running := rfl
  latched := rfl
  done := rfl
  in_bytes _ := rfl
  cmd := rfl
  in_len := rfl
  ie := rfl
  lz := rfl
  wbusy := rfl
  params := rfl
  pins := rfl
  host := rfl
  rdata := rfl

theorem State.raise_completes (s : State) (code : Code) :
    Completes s (s.raise code) code [] SoftFlags.none ResultRegs.none :=
  s.finish_completes code [] SoftFlags.none ResultRegs.none

/-- An output that fits is delivered with the code its flags give (R263). -/
theorem State.deliver_fits {s : State} {out : List Byte} (h : out.length ≤ s.params.outCap) (flags : SoftFlags)
    (early late : ResultRegs) : s.deliver out flags early late = s.finish (codeOfFlags flags) out flags late := by
  unfold State.deliver
  rw [if_neg (by omega)]

/-- An output that does not fit is discarded (R265). -/
theorem State.deliver_overflows {s : State} {out : List Byte} (h : s.params.outCap < out.length) (flags : SoftFlags)
    (early late : ResultRegs) : s.deliver out flags early late = s.finish .outOverflow [] SoftFlags.none early := by
  unfold State.deliver
  rw [if_pos h]

theorem codeOfFlags_partial_iff (f : SoftFlags) : codeOfFlags f = .partialData ↔ f.any = true := by
  unfold codeOfFlags
  split <;> simp_all

theorem codeOfFlags_not_terminal (f : SoftFlags) : (codeOfFlags f).terminal = false := by
  unfold codeOfFlags
  split <;> rfl

@[simp] theorem codeOfFlags_none : codeOfFlags SoftFlags.none = .ok := rfl
@[simp] theorem SoftFlags.any_none : SoftFlags.none.any = false := rfl

@[simp] theorem SoftFlags.none_union (f : SoftFlags) : SoftFlags.none.union f = f := by
  cases f; simp [SoftFlags.union, SoftFlags.none]

@[simp] theorem SoftFlags.union_none (f : SoftFlags) : f.union SoftFlags.none = f := by
  cases f; simp [SoftFlags.union, SoftFlags.none]

theorem SoftFlags.union_assoc (f g h : SoftFlags) : (f.union g).union h = f.union (g.union h) := by
  simp [SoftFlags.union, Bool.or_assoc]

/-- The completions a command can end in, described once: the output fits, PARTIAL goes with the flags (R263), and a
terminal code has no output (R261). -/
structure LegalCompletion (s : State) (code : Code) (out : List Byte) (flags : SoftFlags) : Prop where
  fits : out.length ≤ s.params.outCap
  partial_iff : code = .partialData ↔ flags.any = true
  terminal : code.terminal = true → out = []

theorem LegalCompletion.of_stop (s : State) {code : Code} (h : code ≠ .partialData) :
    LegalCompletion s code [] SoftFlags.none :=
  ⟨Nat.zero_le _, ⟨fun e => absurd e h, fun e => by simp at e⟩, fun _ => rfl⟩

/-- Delivery is a completion of the described kind. -/
theorem State.deliver_cases (s : State) (out : List Byte) (flags : SoftFlags) (early late : ResultRegs) :
    ∃ code out' flags' regs, s.deliver out flags early late = s.finish code out' flags' regs ∧
      LegalCompletion s code out' flags' := by
  rcases Nat.lt_or_ge s.params.outCap out.length with h | h
  · exact ⟨_, _, _, _, State.deliver_overflows h flags early late, LegalCompletion.of_stop s (by decide)⟩
  · refine ⟨_, _, _, _, State.deliver_fits h flags early late, h, codeOfFlags_partial_iff flags, fun ht => ?_⟩
    rw [codeOfFlags_not_terminal] at ht
    exact absurd ht (by decide)

/-- A data unit changes the hidden work and nothing else. -/
theorem State.decoded_onlyWork (s : State) (out : List Byte) (flags : SoftFlags) :
    OnlyWorkDiffers s (s.decoded out flags) := rfl

/-- With something latched, the operands are the latched values (R43). -/
theorem State.operands_of_latched {s : State} {l : Latched} (h : s.latched = some l) : s.operands = l := by
  simp [State.operands, h]

/-- Right after acceptance the operands are the registers' values at the CMD write (R81, R91). -/
@[simp] theorem State.accept_operands (s : State) (w : Word) : (s.accept w).operands = s.latch w := rfl

/-- IN_LEN > IN_CAP stops every legal command (R29). -/
theorem State.rangeStop_eq (s : State) :
    s.rangeStop = if s.params.inCap < s.operands.inLen.toNat then some .inRange else none := rfl

theorem State.rangeStop_none {s : State} (h : s.operands.inLen.toNat ≤ s.params.inCap) : s.rangeStop = none := by
  simp [State.rangeStop, Nat.not_lt.mpr h]

theorem State.rangeStop_some {s : State} (h : s.params.inCap < s.operands.inLen.toNat) : s.rangeStop = some .inRange := by
  simp [State.rangeStop, h]

theorem State.emptyStop_none {s : State} (h : s.input ≠ []) : s.emptyStop = none := by
  simp [State.emptyStop, h]

theorem State.emptyStop_some {s : State} (h : s.input = []) : s.emptyStop = some .emptyInput := by
  simp [State.emptyStop, h]

theorem State.configStop_none {s : State} (h : s.lzLegal = true) : s.configStop = none := by
  simp [State.configStop, h]

theorem State.configStop_some {s : State} (h : s.lzLegal = false) : s.configStop = some .badConfig := by
  simp [State.configStop, h]

end Sys2Proof.Machine
end

