-- ==== Sys2Proof/Laws/Exec.lean ====
section
/-!
SUPPORT. What an instruction can do, said once: a command or an illegal word ends in one completion, a data unit changes
only the hidden work.
-/

namespace Sys2Proof.Machine

/-- An outcome that is one legal completion of `s`. -/
def EndsInCompletion (s : State) (o : Host.Outcome State Fault Refusal) : Prop :=
  ∃ code out flags regs, o = .next (s.finish code out flags regs) ∧ LegalCompletion s code out flags

theorem EndsInCompletion.of_raise (s : State) {code : Code} (h : code ≠ .partialData) :
    EndsInCompletion s (.next (s.raise code)) :=
  ⟨code, [], SoftFlags.none, ResultRegs.none, rfl, LegalCompletion.of_stop s h⟩

theorem EndsInCompletion.of_deliver (s : State) (out : List Byte) (flags : SoftFlags) (early late : ResultRegs) :
    EndsInCompletion s (.next (s.deliver out flags early late)) := by
  obtain ⟨code, out', flags', regs, heq, hl⟩ := s.deliver_cases out flags early late
  exact ⟨code, out', flags', regs, by rw [heq], hl⟩

/-- None of the checks before a command's work stops it with PARTIAL. -/
theorem State.rangeStop_ne_partial {s : State} {c : Code} (h : s.rangeStop = some c) : c ≠ .partialData := by
  unfold State.rangeStop at h
  split at h <;> simp_all
  subst h; decide

theorem State.emptyStop_ne_partial {s : State} {c : Code} (h : s.emptyStop = some c) : c ≠ .partialData := by
  unfold State.emptyStop at h
  split at h <;> simp_all
  subst h; decide

theorem State.configStop_ne_partial {s : State} {c : Code} (h : s.configStop = some c) : c ≠ .partialData := by
  unfold State.configStop at h
  split at h <;> simp_all
  subst h; decide

theorem codecStop_ne_partial {b : Byte} {c : Code} (h : codecStop b = some c) : c ≠ .partialData := by
  unfold codecStop at h
  split at h <;> simp_all
  subst h; decide

theorem State.rleStop_ne_partial {s : State} {c : Code} (h : s.rleStop = some c) : c ≠ .partialData := by
  rcases Option.or_eq_some_iff.mp h with h | ⟨-, h⟩
  · exact State.rangeStop_ne_partial h
  · exact State.emptyStop_ne_partial h

theorem State.lzssStop_ne_partial {s : State} {c : Code} (h : s.lzssStop = some c) : c ≠ .partialData := by
  rcases Option.or_eq_some_iff.mp h with h | ⟨-, h⟩
  · exact State.rangeStop_ne_partial h
  · rcases Option.or_eq_some_iff.mp h with h | ⟨-, h⟩
    · exact State.configStop_ne_partial h
    · exact State.emptyStop_ne_partial h

theorem State.formatStop_ne_partial {s : State} {b : Byte} {c : Code} (h : s.formatStop b = some c) :
    c ≠ .partialData := by
  rcases Option.or_eq_some_iff.mp h with h | ⟨-, h⟩
  · exact State.rangeStop_ne_partial h
  · rcases Option.or_eq_some_iff.mp h with h | ⟨-, h⟩
    · exact State.emptyStop_ne_partial h
    · rcases Option.or_eq_some_iff.mp h with h | ⟨-, h⟩
      · exact codecStop_ne_partial h
      · split at h
        · exact State.configStop_ne_partial h
        · exact absurd h (by simp)

/-- The parser stops before decoding with none of the codes PARTIAL (R230 steps 1 to 6). -/
theorem frameHead_ne_partial {l : Bool} {b : List Byte} {c : Code} {h : Option FrameHeader}
    (he : frameHead l b = .error (c, h)) : c ≠ .partialData := by
  have stop : ∀ {x : Code} {y : Option FrameHeader},
      (Except.error (x, y) : Except (Code × Option FrameHeader) FrameHeader) = .error (c, h) → x ≠ .partialData →
        c ≠ .partialData := by
    rintro x y hx hne
    cases hx
    exact hne
  unfold frameHead at he
  dsimp only at he
  split at he
  · exact stop he (by decide)
  split at he
  · exact stop he (by decide)
  split at he
  · exact stop he (by decide)
  split at he
  · exact stop he (by decide)
  split at he
  · exact stop he (by decide)
  split at he
  · exact stop he (by decide)
  split at he
  · exact stop he (by decide)
  · cases he

theorem execCrc32_cases (s : State) : EndsInCompletion s (execCrc32 s) := by
  unfold execCrc32
  split
  · next c h => exact .of_raise s (State.rangeStop_ne_partial h)
  · exact ⟨_, _, _, _, rfl, LegalCompletion.of_stop s (by decide)⟩

theorem execFnv32_cases (s : State) : EndsInCompletion s (execFnv32 s) := by
  unfold execFnv32
  split
  · next c h => exact .of_raise s (State.rangeStop_ne_partial h)
  · exact ⟨_, _, _, _, rfl, LegalCompletion.of_stop s (by decide)⟩

theorem execRleEnc_cases (s : State) : EndsInCompletion s (execRleEnc s) := by
  unfold execRleEnc
  split
  · next c h => exact .of_raise s (State.rleStop_ne_partial h)
  · exact .of_deliver s _ _ _ _

theorem execRleDec_cases (s : State) : EndsInCompletion s (execRleDec s) := by
  unfold execRleDec
  split
  · next c h => exact .of_raise s (State.rleStop_ne_partial h)
  · exact .of_deliver s _ _ _ _

theorem execLzssEnc_cases (s : State) : EndsInCompletion s (execLzssEnc s) := by
  unfold execLzssEnc
  split
  · next c h => exact .of_raise s (State.lzssStop_ne_partial h)
  · exact .of_deliver s _ _ _ _

theorem execLzssDec_cases (s : State) : EndsInCompletion s (execLzssDec s) := by
  unfold execLzssDec
  split
  · next c h => exact .of_raise s (State.lzssStop_ne_partial h)
  · exact .of_deliver s _ _ _ _

theorem execFrameFmt_cases (codec : Byte) (s : State) : EndsInCompletion s (execFrameFmt codec s) := by
  unfold execFrameFmt
  split
  · next c h => exact .of_raise s (State.formatStop_ne_partial h)
  · exact .of_deliver s _ _ _ _

theorem execFrameParse_cases (s : State) : EndsInCompletion s (execFrameParse s) := by
  unfold execFrameParse
  split
  · next c h => exact .of_raise s (State.rangeStop_ne_partial h)
  · split
    · next c h he => exact ⟨_, _, _, _, rfl, LegalCompletion.of_stop s (frameHead_ne_partial he)⟩
    · exact .of_deliver s _ _ _ _

/-- Every command and every illegal word ends in one completion (R91: every accepted word, legal or not, ends in exactly
one). -/
theorem exec_completion_cases (i : Instr) (hi : i.context = .command) (s : State) : EndsInCompletion s (exec i s) := by
  cases i with
  | crc32 => exact execCrc32_cases s
  | fnv32 => exact execFnv32_cases s
  | rleEnc => exact execRleEnc_cases s
  | rleDec => exact execRleDec_cases s
  | lzssEnc => exact execLzssEnc_cases s
  | lzssDec => exact execLzssDec_cases s
  | frameFmt codec => exact execFrameFmt_cases codec s
  | frameParse => exact execFrameParse_cases s
  | illegal o c r => exact .of_raise s (by decide)
  | lzssLiteral v => cases hi
  | lzssMatch l d => cases hi
  | rlePair c v => cases hi

/-- Every data unit changes the hidden work and nothing else. -/
theorem exec_unit_cases (i : Instr) (hi : i.context ≠ .command) (s : State) :
    ∃ out flags, exec i s = .next (s.decoded out flags) := by
  cases i with
  | lzssLiteral v => exact ⟨_, _, rfl⟩
  | lzssMatch l d =>
    show ∃ out flags, execLzssMatch l d s = _
    unfold execLzssMatch
    simp only
    split
    · exact ⟨_, _, rfl⟩
    · exact ⟨_, _, rfl⟩
  | rlePair c v => exact ⟨_, _, rfl⟩
  | _ => exact absurd rfl hi

end Sys2Proof.Machine
end

