-- ==== Sys2Proof/Laws/PerInstr.lean ====
section
/-!
SUPPORT. What is proved of every instruction as syntax, one lemma per constructor.
-/

namespace Sys2Proof.Laws.EncodedLength

/-- A command word has four bytes, a data unit two (R90, R98 to R101). -/
def Statement (i : Instr) : Prop :=
  (encode i).length = match i.context with
    | .command => 4
    | .rleStream => 2
    | .lzssStream => 2

theorem crc32 : Statement .crc32 := rfl
theorem fnv32 : Statement .fnv32 := rfl
theorem rleEnc : Statement .rleEnc := rfl
theorem rleDec : Statement .rleDec := rfl
theorem lzssEnc : Statement .lzssEnc := rfl
theorem lzssDec : Statement .lzssDec := rfl
theorem frameFmt (codec : Byte) : Statement (.frameFmt codec) := rfl
theorem frameParse : Statement .frameParse := rfl
theorem illegal (opcode codec : Byte) (rsvd : BitVec 16) : Statement (.illegal opcode codec rsvd) := rfl
theorem lzssLiteral (value : Byte) : Statement (.lzssLiteral value) := rfl
theorem lzssMatch (len : BitVec 4) (dist : BitVec 12) : Statement (.lzssMatch len dist) := rfl
theorem rlePair (count value : Byte) : Statement (.rlePair count value) := rfl

end Sys2Proof.Laws.EncodedLength
end

