-- ==== Sys2Proof/Laws/Step.lean ====
section
/-!
SUPPORT. What one turn can do, said once: the ENGINE's completion, one iteration of its loop, a HOST write.
-/

namespace Sys2Proof.Machine

/-- Taking a turn changes only the list of turns. -/
theorem State.takeTurn_state (s : State) : ∃ rest, s.takeTurn.2 = { s with turns := rest } := by
  unfold State.takeTurn
  split
  · exact ⟨_, rfl⟩
  · exact ⟨s.turns, rfl⟩

/-- The ENGINE's turn while a command runs is one legal completion. -/
theorem State.engineTurn_cases {s : State} (h : s.running = true) : EndsInCompletion s s.engineTurn := by
  unfold State.engineTurn
  rw [if_pos h]
  exact exec_completion_cases _ (decodeWord_context _) s

theorem State.engineTurn_idle {s : State} (h : s.running = false) : s.engineTurn = .next s := by
  simp [State.engineTurn, h]

/-- What a coded stream decodes to is a data unit. -/
theorem State.nextUnit_context {s : State} {i : Instr} (h : s.nextUnit = some i) : i.context ≠ .command := by
  have stream : ∀ {ctx : Context} {start : Nat}, s.codedStream = some (ctx, start) → ctx ≠ .command := by
    intro ctx start hc
    unfold State.codedStream at hc
    repeat' split at hc
    all_goals cases hc
    all_goals decide
  unfold State.nextUnit at h
  split at h
  · next ctx start pos out flags hc hw =>
    have hne := stream hc
    split at h
    · cases h
    · cases ctx with
      | command => exact absurd rfl hne
      | rleStream =>
        cases hd : (s.input.drop pos).take 2 with
        | nil => simp [hd, decodeBytes, Except.toOption] at h
        | cons a t =>
          cases t with
          | nil => simp [hd, decodeBytes, Except.toOption] at h
          | cons b u =>
            cases u with
            | nil =>
              simp only [hd, decodeBytes, Except.toOption, Option.some.injEq] at h
              subst h
              intro hf
              cases hf
            | cons c v => simp [hd, decodeBytes, Except.toOption] at h
      | lzssStream =>
        cases hd : (s.input.drop pos).take 2 with
        | nil => simp [hd, decodeBytes, Except.toOption] at h
        | cons a t =>
          cases t with
          | nil => simp [hd, decodeBytes, Except.toOption] at h
          | cons b u =>
            cases u with
            | nil =>
              simp only [hd, decodeBytes, Except.toOption, Option.some.injEq, decodeLzss] at h
              subst h
              split <;> (intro hf; cases hf)
            | cons c v => simp [hd, decodeBytes, Except.toOption] at h
  · cases h

theorem State.hashIter_onlyWork (s : State) (init : Word) (update : Word → Byte → Word) :
    OnlyWorkDiffers s (s.hashIter init update) := by
  unfold State.hashIter
  simp only
  split <;> rfl

theorem State.rleEncIter_onlyWork (s : State) : OnlyWorkDiffers s s.rleEncIter := by
  unfold State.rleEncIter
  simp only
  split <;> rfl

theorem State.lzssEncIter_onlyWork (s : State) : OnlyWorkDiffers s s.lzssEncIter := by
  unfold State.lzssEncIter
  simp only
  split <;> rfl

theorem State.beginDecode_onlyWork (s : State) (start : Nat) : OnlyWorkDiffers s (s.beginDecode start) := by
  unfold State.beginDecode
  split <;> rfl

theorem State.progress_onlyWork (s : State) : OnlyWorkDiffers s s.progress := by
  unfold State.progress
  repeat' split
  all_goals first
    | rfl
    | exact s.hashIter_onlyWork _ _
    | exact s.rleEncIter_onlyWork
    | exact s.lzssEncIter_onlyWork
    | exact s.beginDecode_onlyWork _

/-- Where a byte of InBuf stands (R61). -/
theorem placeOf_inBuf {p : Config.Params} {a i : Nat} (h : placeOf p a = .inBuf i) : a = inStart + i ∧ i < p.inCap := by
  unfold placeOf at h
  split_ifs at h with h1 h2 h3 h4
  · injection h with h
    omega

/-- Where a byte of OutBuf stands (R61). -/
theorem placeOf_outBuf {p : Config.Params} {a i : Nat} (h : placeOf p a = .outBuf i) :
    a = outStart + i ∧ i < p.outCap := by
  unfold placeOf at h
  split_ifs at h with h1 h2 h3 h4 h5 h6
  · injection h with h
    omega

/-- The bytes of one write: nothing happens, or WBUSY is set, or bytes of InBuf are written inside its capacity. -/
theorem State.bytesWrite_cases (s : State) (a : Nat) (bs : List Byte) :
    s.bytesWrite a bs = s ∨ (s.running = true ∧ s.bytesWrite a bs = s.noteWbusy) ∨
      (s.running = false ∧ ∃ m, s.bytesWrite a bs = { s with inBuf := m } ∧ (s.inBuf.wf = true → m.wf = true) ∧
        (s.inBuf.below s.params.inCap = true → m.below s.params.inCap = true)) := by
  induction bs generalizing s a with
  | nil => exact .inl rfl
  | cons b bs ih =>
    have first : s.byteWrite a b = s ∨ (s.running = true ∧ s.byteWrite a b = s.noteWbusy) ∨
        (s.running = false ∧ ∃ i, i < s.params.inCap ∧ s.byteWrite a b = s.writeInByte i b) := by
      unfold State.byteWrite
      split
      · next i hp =>
        have hi := (placeOf_inBuf hp).2
        split
        · next hr => exact .inr (.inl ⟨hr, rfl⟩)
        · next hr => exact .inr (.inr ⟨by simpa using hr, i, hi, rfl⟩)
      all_goals exact .inl rfl
    rw [State.bytesWrite]
    rcases first with h | ⟨hr, h⟩ | ⟨hr, i, hi, h⟩
    · rw [h]; exact ih s (a + 1)
    · rw [h]
      rcases ih s.noteWbusy (a + 1) with h2 | ⟨-, h2⟩ | ⟨hr2, -⟩
      · exact .inr (.inl ⟨hr, h2⟩)
      · exact .inr (.inl ⟨hr, h2⟩)
      · rw [State.noteWbusy_running, hr] at hr2; cases hr2
    · rw [h]
      rcases ih (s.writeInByte i b) (a + 1) with h2 | ⟨hr2, -⟩ | ⟨-, m, h2, hw, hb⟩
      · exact .inr (.inr ⟨hr, _, h2, Memory.wf_write i b, fun hb => Memory.below_write b hb hi⟩)
      · rw [State.writeInByte_running, hr] at hr2; cases hr2
      · exact .inr (.inr ⟨hr, m, h2, fun h3 => hw (Memory.wf_write i b h3), fun h3 => hb (Memory.below_write b h3 hi)⟩)

/-- A HOST write: nothing, or one register written, or bytes as above. -/
theorem State.busWrite_cases (s : State) (a : Nat) (size : Size) (v : Word) :
    s.busWrite a size v = s ∨
      (s.rstN = true ∧ ∃ r, a < reservedStart ∧ regAt a = some r ∧ s.busWrite a size v = s.writeReg r v) ∨
      (s.rstN = true ∧ reservedStart ≤ a ∧ s.busWrite a size v = s.bytesWrite a ((le32 v).take size.bytes)) := by
  unfold State.busWrite State.memWrite
  split
  · next hp =>
    split
    · next ha =>
      split
      · next r hr => exact .inr (.inl ⟨hp, r, ha, hr, rfl⟩)
      · exact .inl rfl
    · next ha => exact .inr (.inr ⟨hp, by omega, rfl⟩)
  · exact .inl rfl

end Sys2Proof.Machine
end

