-- ==== Sys2Proof/Tests/Slice0.lean ====
section
/-!
SUPPORT. The model's own tests: ill-formed terms, words written out from the spec's encodings, vectors of
`spec/95_test_vectors.md` (the id stands in the comment), and for every obligation that has hypotheses a concrete witness
that meets them all (`witness_<obligation>`).
-/

namespace Sys2Proof.Tests

open Sys2Proof.Machine

/-! ## Helpers -/

/-- The block with parameters `p` after reset, with `bytes` in InBuf and IN_LEN set to their number. -/
def given (p : Config.Params) (bytes : List Byte) : State :=
  { State.resetWith p with inBuf := Memory.ofBytes 0 bytes, inLen := BitVec.ofNat 32 bytes.length }

/-- Small buffers, so that tests evaluate fast. -/
def small : Config.Params := ⟨0, 32, 32, 4096⟩

/-- The state of an outcome that is one. -/
def after : Host.Outcome State Fault Refusal → Option State
  | .next s => some s
  | .fault _ => none
  | .refused _ => none

/-- A command on `bytes`, and one part of what it leaves. -/
def ran {α : Type} (i : Instr) (bytes : List Byte) (part : State → α) : Option α :=
  (after (exec i (given small bytes))).map part

/-- OutBuf up to OUT_LEN, and STATUS. -/
def outcome (s : State) : List Byte × Word := (s.outBytes, s.status)

/-- FRHDR, FRLEN, FRCRC and CALCCRC. -/
def frRegs (s : State) : List Word := [s.frhdr, s.frlen, s.frcrc, s.calccrc]

/-- F1, F2 and F3 of the spec's vectors: the frames of "hello", "AAAB" and "ABCABCABCABC". -/
def frameF1 : List Byte :=
  [0x41, 0x43, 0x32, 0x02, 0x00, 0x05, 0x00, 0x00, 0x00, 0x86, 0xA6, 0x10, 0x36, 0x68, 0x65, 0x6C, 0x6C, 0x6F]
def frameF2 : List Byte :=
  [0x41, 0x43, 0x32, 0x02, 0x01, 0x04, 0x00, 0x00, 0x00, 0x4B, 0x59, 0x04, 0x02, 0x03, 0x41, 0x01, 0x42]
def hello : List Byte := [0x68, 0x65, 0x6C, 0x6C, 0x6F]
def abcabc : List Byte := [0x41, 0x42, 0x43, 0x41, 0x42, 0x43, 0x41, 0x42, 0x43, 0x41, 0x42, 0x43]

/-! ## Well-formedness -/

theorem test_wf_refuses_a_legal_word_called_illegal : (Instr.illegal 0x01 0x00 0x0000).wf = false := by decide
theorem test_wf_refuses_a_format_word_called_illegal : (Instr.illegal 0x30 0xFF 0x0000).wf = false := by decide
theorem test_wf_refuses_a_match_that_reads_as_a_literal : (Instr.lzssMatch 0 255).wf = false := by decide
theorem test_wf_accepts_the_shortest_distance_match : (Instr.lzssMatch 1 0).wf = true := by decide

/-! ## Decoding: words written out from the encodings of R90 to R101 -/

theorem test_decode_crc32 : decodeWord 0x00000001 = .crc32 := by decide
theorem test_decode_fnv32 : decodeWord 0x00000002 = .fnv32 := by decide
theorem test_decode_rleEnc : decodeWord 0x00000010 = .rleEnc := by decide
theorem test_decode_rleDec : decodeWord 0x00000011 = .rleDec := by decide
theorem test_decode_lzssEnc : decodeWord 0x00000020 = .lzssEnc := by decide
theorem test_decode_lzssDec : decodeWord 0x00000021 = .lzssDec := by decide
theorem test_decode_frameFmt : decodeWord 0x00000330 = .frameFmt 3 := by decide
theorem test_decode_frameParse : decodeWord 0x00000031 = .frameParse := by decide
theorem test_decode_illegal : decodeWord 0x00000131 = .illegal 0x31 0x01 0x0000 := by decide
/-- LEN = 6, DIST = 2: code 0x6002, high byte first (Z11). -/
theorem test_decode_lzssMatch : decodeBytes .lzssStream [0x60, 0x02] = .ok (.lzssMatch 6 2) := by decide
theorem test_decode_lzssLiteral : decodeBytes .lzssStream [0x00, 0x41] = .ok (.lzssLiteral 0x41) := by decide
theorem test_decode_rlePair : decodeBytes .rleStream [0x04, 0x41] = .ok (.rlePair 4 0x41) := by decide
theorem test_decode_rejects_by_name :
    decodeBytes .lzssStream [0x00] = .error .tooShort ∧ decodeBytes .command [1, 0, 0, 0, 0] = .error .tooLong := by decide
theorem test_table_word_of_a_match : decodeTableWord 16 0x6002 = some (.lzssMatch 6 2) := by decide

/-! ## The spec's vectors -/

/-- H3. -/
theorem test_crc32_check_value :
    ran .crc32 [0x31, 0x32, 0x33, 0x34, 0x35, 0x36, 0x37, 0x38, 0x39] (fun s => (s.result, s.status, s.outLen)) =
      some (0xCBF43926, 0x00000002, 0) := by decide +kernel
/-- H1. -/
theorem test_crc32_empty : ran .crc32 [] (fun s => (s.result, s.status)) = some (0, 0x00000002) := by decide
/-- H2. -/
theorem test_fnv32_check_value : ran .fnv32 [0x61] (fun s => s.result) = some 0xE40C292C := by decide
/-- H8. -/
theorem test_fnv32_byte_ff : ran .fnv32 [0xFF] (fun s => s.result) = some 0x7A0B824E := by decide
/-- E5. -/
theorem test_rleEnc_pairs : ran .rleEnc [0x41, 0x41, 0x42] outcome = some ([0x02, 0x41, 0x01, 0x42], 0x00000002) := by decide
/-- E12, OUT_CAP = 13. -/
theorem test_rleEnc_overflow :
    (after (exec .rleEnc (given ⟨0, 32, 13, 12⟩ [0x41, 0x42, 0x41, 0x42, 0x41, 0x42, 0x41]))).map outcome =
      some ([], 0x00002202) := by decide
/-- D1. -/
theorem test_rleDec_truncated : ran .rleDec [0x04, 0x41, 0x03] outcome = some ([0x41, 0x41, 0x41, 0x41], 0x00010202) := by
  decide
/-- D2. -/
theorem test_rleDec_count_zero : ran .rleDec [0x00, 0x41, 0x02, 0x42] outcome = some ([0x42, 0x42], 0x00000002) := by decide
/-- Z3. -/
theorem test_lzssEnc_avoids_a_zero_first_byte :
    ran .lzssEnc [0x41, 0x41, 0x41, 0x41] outcome =
      some ([0x00, 0x41, 0x00, 0x41, 0x00, 0x41, 0x00, 0x41], 0x00000002) := by decide
/-- Z11. -/
theorem test_lzssEnc_match : ran .lzssEnc abcabc outcome = some ([0x00, 0x41, 0x00, 0x42, 0x00, 0x43, 0x60, 0x02], 0x00000002) := by
  decide
/-- Y4. -/
theorem test_lzssDec_overlapping :
    ran .lzssDec [0x00, 0x41, 0x00, 0x42, 0xF0, 0x01] outcome =
      some ([0x41, 0x42, 0x41, 0x42, 0x41, 0x42, 0x41, 0x42, 0x41, 0x42, 0x41, 0x42, 0x41, 0x42, 0x41, 0x42, 0x41, 0x42,
        0x41, 0x42], 0x00000002) := by decide
/-- Y10. -/
theorem test_lzssDec_bad_reference :
    ran .lzssDec [0x00, 0x41, 0x10, 0x01, 0x00, 0x42] outcome = some ([0x41], 0x00020202) := by decide
/-- F1. -/
theorem test_frameFmt_none :
    ran (.frameFmt 0) hello (fun s => (outcome s, frRegs s)) =
      some ((frameF1, 0x00000002), [0x00000002, 5, 0x3610A686, 0x3610A686]) := by decide +kernel
/-- F7. -/
theorem test_frameFmt_unknown_codec : ran (.frameFmt 3) hello outcome = some ([], 0x00001002) := by decide
/-- F15, a legacy frame. -/
theorem test_frameParse_legacy :
    ran .frameParse [0x41, 0x43, 0x31, 0x01, 0x04, 0x00, 0x00, 0x00, 0x4B, 0x59, 0x04, 0x02, 0x03, 0x41, 0x01, 0x42]
        (fun s => (outcome s, frRegs s)) =
      some (([0x41, 0x41, 0x41, 0x42], 0x00000002), [0x00010101, 4, 0x0204594B, 0x0204594B]) := by decide +kernel
/-- F40. -/
theorem test_frameParse_all_flags :
    ran .frameParse (frameF2.take 16) (fun s => (outcome s, frRegs s)) =
      some (([0x41, 0x41, 0x41], 0x000D0202), [0x00000102, 4, 0x0204594B, 0x66A031A7]) := by decide +kernel
/-- X5: an illegal word with IN_LEN = 0xFFFFFFFF. -/
theorem test_illegal_before_range :
    (after (exec (decodeWord 0x00000003) { given small [] with inLen := 0xFFFFFFFF })).map outcome =
      some ([], 0x00002002) := by decide
/-- The literal of Z15. -/
theorem test_lzssLiteral :
    (after (exec (.lzssLiteral 0x42) { given small [] with work := .decoding 2 [0x41] SoftFlags.none })).map (fun s => s.work) =
      some (.decoding 4 [0x41, 0x42] SoftFlags.none) := by decide
/-- The last token of Y3. -/
theorem test_lzssMatch :
    (after (exec (.lzssMatch 6 0) { given small [] with work := .decoding 2 [0x41] SoftFlags.none })).map (fun s => s.work) =
      some (.decoding 4 (List.replicate 10 0x41) SoftFlags.none) := by decide
/-- The second pair of D2. -/
theorem test_rlePair :
    (after (exec (.rlePair 2 0x42) { given small [] with work := .decoding 2 [] SoftFlags.none })).map (fun s => s.work) =
      some (.decoding 4 [0x42, 0x42] SoftFlags.none) := by decide

/-! ## The bus and the step -/

/-- M1. -/
theorem test_bus_little_endian :
    ((after ((given small []).busAccess (.write 0x100000 .four 0x04030201))).map (fun s => s.memRead 0x100002 .one)) =
      some 0x03 := by decide
/-- M5, M6. -/
theorem test_bus_faults :
    accessFault small 0x000008 .two = some .registerAccess ∧ accessFault small 0x100001 .two = some .misalignedBuffer := by
  decide
/-- X11. -/
theorem test_status_write :
    ({ given small [] with done := true, wbusy := true, code := .partialData, soft := SoftFlags.truncated } : State).writeReg
      .status 0xFFFFFFFF = { given small [] with code := .partialData, soft := SoftFlags.truncated } := by decide
/-- X8: STATUS reads BUSY only between acceptance and completion. -/
theorem test_status_while_busy : ((given small []).accept 0x00000001).status = 0x00000001 := by decide
/-- The very next step after `withFetchWord` runs the word. -/
theorem test_fetch_runs_the_command :
    (after (step (State.reset.withFetchWord 32 0x00000002))).map (fun s => (s.result, s.status)) =
      some (0x811C9DC5, 0x00000002) := by decide
theorem test_fetch_runs_the_data_unit :
    (after (step (State.reset.withFetchWord 16 0x0042))).map (fun s => s.work) =
      some (.decoding 2 [0x42] SoftFlags.none) := by decide
/-- R61, R62, R290 on the state after reset. -/
theorem test_reset_reads :
    [0x000, 0x00C, 0x02C, 0x030, 0x03C, 0x040].map (fun a => State.reset.memRead a .four) =
      [2, 0, 0, 4096, 12, 0x100000] := by decide

/-! ## Witnesses: concrete states and operands that meet the hypotheses of each obligation together -/

/-- What the command statements assume of the state: nothing done yet and IN_LEN in range, here at its bound. -/
def Begins (s : State) : Prop := s.work = .fresh ∧ s.operands.inLen.toNat ≤ s.params.inCap

theorem witness_DecodeOfEncodeIsIdentity :
    (Instr.lzssMatch 0 256).wf = true ∧ (Instr.lzssMatch 15 4095).wf = true ∧ (Instr.illegal 0x30 0x00 0x0001).wf = true ∧
      (Instr.frameFmt 0xFF).wf = true := by decide

theorem witness_FirstByteTellsLiteralFromMatch :
    decodeBytes .lzssStream [0x0F, 0xFF] = .ok (.lzssMatch 0 4095) ∧ (0x01 : Byte) ≠ 0x00 := by decide

theorem witness_Crc32CommandReturnsTheCrc : Begins (given ⟨0, 5, 13, 12⟩ hello) := by unfold Begins; decide

theorem witness_Fnv32CommandReturnsTheHash : Begins (given ⟨0, 5, 13, 12⟩ hello) := by unfold Begins; decide

theorem witness_RleEncodeCommandDelivers :
    let s := given ⟨0, 7, 14, 12⟩ [0x41, 0x42, 0x41, 0x42, 0x41, 0x42, 0x41]
    Begins s ∧ s.input ≠ [] ∧ (rleEnc s.input).length ≤ s.params.outCap := by unfold Begins; decide

theorem witness_RleDecodeCommandDelivers :
    let s := given ⟨0, 3, 13, 12⟩ [0x0D, 0x00, 0x01]
    Begins s ∧ s.input ≠ [] ∧ (rleDec s.input).1.length ≤ s.params.outCap ∧ (rleDec s.input).2 = SoftFlags.truncated := by
  unfold Begins; decide

theorem witness_LzssEncodeCommandDelivers :
    let s := given ⟨0, 7, 14, 12⟩ [0x41, 0x42, 0x43, 0x44, 0x45, 0x46, 0x47]
    Begins s ∧ s.lzLegal = true ∧ s.input ≠ [] ∧ (lzssEnc s.operands.lz s.input).length ≤ s.params.outCap := by
  unfold Begins; decide

theorem witness_LzssDecodeCommandDelivers :
    let s := given ⟨0, 6, 20, 12⟩ [0x00, 0x41, 0x00, 0x42, 0xF0, 0x01]
    Begins s ∧ s.lzLegal = true ∧ s.input ≠ [] ∧ (lzssDec s.minMatch s.input).1.length ≤ s.params.outCap := by
  unfold Begins; decide

theorem witness_FrameFormatCommandDelivers :
    let s := given ⟨0, 5, 18, 12⟩ hello
    Begins s ∧ s.input ≠ [] ∧ 13 + s.input.length ≤ s.params.outCap ∧
      (let t := given ⟨0, 5, 23, 12⟩ hello
       Begins t ∧ t.lzLegal = true ∧ 13 + (rleEnc t.input).length ≤ t.params.outCap ∧
         13 + (lzssEnc t.operands.lz t.input).length ≤ t.params.outCap) := by unfold Begins; decide

theorem witness_FrameParseCommandDelivers : Begins (given ⟨0, 18, 13, 12⟩ frameF1) := by unfold Begins; decide

theorem witness_IllegalWordsCompleteWithIllegalCommand :
    rsvdField 0x00010001 ≠ 0 ∧ (codecField 0x00000101 ≠ 0 ∧ opcodeField 0x00000101 ≠ 0x30) ∧
      opcodeField 0x00000032 ∉ ([0x01, 0x02, 0x10, 0x11, 0x20, 0x21, 0x30, 0x31] : List Byte) := by decide

theorem witness_DataUnitsExtendTheDecodedOutput :
    let s := { given small [] with work := .decoding 2 [0x41] SoftFlags.none }
    s.work = .decoding 2 [0x41] SoftFlags.none ∧ (0 : BitVec 12).toNat + 1 ≤ [(0x41 : Byte)].length ∧
      [(0x41 : Byte)].length < (1 : BitVec 12).toNat + 1 := by decide

theorem witness_InputOutOfRangeStopsEveryCommand :
    let s := { given small [] with inLen := 33 }
    isCommand (.frameFmt 3) = true ∧ s.params.inCap < s.operands.inLen.toNat := by decide

theorem witness_EmptyInputIsReported :
    let s := given small []
    s.operands.inLen.toNat ≤ s.params.inCap ∧ s.input = [] ∧ s.lzLegal = true := by decide

/-- Z27 to Z34: each illegal setting, on an IN that is not empty. -/
theorem witness_IllegalConfigurationIsReported :
    let s := fun lz => { given small hello with lz := lz }
    (∀ lz ∈ ([⟨0, 3, 18, 12⟩, ⟨4097, 3, 18, 12⟩, ⟨4096, 0, 15, 12⟩, ⟨4096, 3, 2, 12⟩, ⟨4096, 3, 19, 12⟩, ⟨4096, 3, 18, 0⟩,
        ⟨4096, 3, 18, 4097⟩, ⟨4096, 0xFFFFFFFF, 0x0000000E, 12⟩] : List LzConfig),
      ¬((1 ≤ (s lz).operands.lz.window.toNat ∧ (s lz).operands.lz.window.toNat ≤ 4096) ∧
        (1 ≤ (s lz).operands.lz.minMatch.toNat ∧ (s lz).operands.lz.minMatch.toNat ≤ (s lz).operands.lz.maxMatch.toNat ∧
          (s lz).operands.lz.maxMatch.toNat ≤ (s lz).operands.lz.minMatch.toNat + 15) ∧
        (1 ≤ (s lz).operands.lz.hashLimit.toNat ∧ (s lz).operands.lz.hashLimit.toNat ≤ (s lz).params.hashLimitMax)) ∧
        (s lz).input ≠ []) := by decide

theorem witness_UnknownCodecIsReported :
    let s := given small hello
    s.operands.inLen.toNat ≤ s.params.inCap ∧ s.input ≠ [] ∧ 3 ≤ (0x03 : Byte).toNat ∧ 3 ≤ (0xFF : Byte).toNat := by decide

theorem witness_OverflowingOutputIsDiscarded :
    let s := given ⟨0, 7, 13, 12⟩ [0x41, 0x42, 0x43, 0x44, 0x45, 0x46, 0x47]
    let t := given ⟨0, 8, 13, 12⟩ [0x0E, 0x41]
    let u := given ⟨0, 8, 13, 12⟩ [0x00, 0x41, 0xA0, 0x00]
    Begins s ∧ s.input ≠ [] ∧ s.lzLegal = true ∧ s.params.outCap < (rleEnc s.input).length ∧
      s.params.outCap < (lzssEnc s.operands.lz s.input).length ∧ s.params.outCap < 13 + s.input.length ∧
      Begins t ∧ s.params.outCap < (rleDec t.input).1.length ∧
      Begins u ∧ u.lzLegal = true ∧ u.params.outCap < (lzssDec u.minMatch u.input).1.length := by unfold Begins; decide

/-- Runs of 1 and of 255 bytes before another byte, and a run at the end. -/
theorem witness_RleEncodesMaximalRuns :
    0 < 1 ∧ 0 < 255 ∧ ([0x42] : List Byte).head? ≠ some 0x41 ∧ ([] : List Byte).head? ≠ some 0x41 := by decide

theorem witness_RleDecoderInvertsAndReportsTruncation :
    ([0x04, 0x41, 0x03] : List Byte).length % 2 = 1 ∧ ([0x04, 0x41] : List Byte).length % 2 = 0 := by decide

theorem witness_RleSizeBounds :
    (∀ i, i + 1 < ([0x41, 0x42] : List Byte).length → byteAt [0x41, 0x42] i ≠ byteAt [0x41, 0x42] (i + 1)) ∧
      ([0x41, 0x42] : List Byte) ≠ [] := by
  refine ⟨fun i hi => ?_, by decide⟩
  have h0 : i = 0 := by simp only [List.length_cons, List.length_nil] at hi; omega
  subst h0
  decide

/-- The legal edge settings of `95_test_vectors.md` section 2.3, and a stream of literals only. -/
theorem witness_LzssRoundTrip :
    (⟨1, 1, 1, 1⟩ : LzConfig).legal 12 = true ∧ (⟨4096, 1, 16, 1⟩ : LzConfig).legal 12 = true ∧
      (⟨4096, 3, 18, 12⟩ : LzConfig).legal 12 = true ∧ lzssEnc ⟨4096, 3, 18, 12⟩ [0x41] = [0x00, 0x41] := by decide

/-- Both branches, at the boundary distances 256 and 257 (Z16, Z17). -/
theorem witness_TokenChoiceAvoidsAZeroFirstByte :
    (⟨4096, 3, 18, 12⟩ : LzConfig).legal 12 = true ∧ emitsMatch 3 (3, 256) = false ∧ emitsMatch 3 (3, 257) = true ∧
      emitsMatch 3 (4, 1) = true ∧ emitsMatch 3 (2, 257) = false := by decide

/-- A position with a key, a candidate before it, and the last position, which has none. -/
theorem witness_LongestMatchOldestFirst :
    let s : List Byte := [0x41, 0x42, 0x41, 0x42]
    (0 < 2 ∧ 2 < s.length ∧ 2 + 1 < s.length) ∧ s.length ≤ 3 + 1 ∧
      bestMatch LzConfig.default s 2 [((0x41, 0x42), [0])] = (2, 2) := by decide

/-- A full bucket beside another one; and R186's example, whose stream is a literal and a match. -/
theorem witness_BucketsStayWithinHashLimit :
    let table : HashTable := [((0x41, 0x42), [0]), ((0x42, 0x41), [1])]
    (∀ entry ∈ table, entry.2.length ≤ 1) ∧ (table.map Prod.fst).Nodup ∧ ((0x42, 0x41) : Byte × Byte) ≠ (0x41, 0x42) ∧
      LzConfig.default.legal 12 = true ∧
      lzssEnc LzConfig.default (List.replicate 10 0x41) = [0x00, 0x41, 0x60, 0x00] := by decide

/-- The boundary distances: as long as the output (Y3), and one more (Y5). -/
theorem witness_LzssDecoderReadsTokens :
    lzssDec 3 [0x00, 0x41] = ([0x41], SoftFlags.none) ∧ (0x10 : Byte) ≠ 0x00 ∧
      ((0x60 : Byte).toNat * 256 + (0x00 : Byte).toNat) % 4096 + 1 ≤ [(0x41 : Byte)].length ∧
      [(0x41 : Byte)].length < ((0x10 : Byte).toNat * 256 + (0x01 : Byte).toNat) % 4096 + 1 := by decide

theorem witness_FrameLengthBounds :
    (⟨1, 1, 1, 1⟩ : LzConfig).legal 12 = true ∧ (⟨4096, 3, 18, 12⟩ : LzConfig).legal 12 = true := by decide

/-- F27 to F33, the longest truncated headers among them. -/
theorem witness_ParserRejectsBlobsWithoutAHeader :
    (4 ≤ ([0x41, 0x43, 0x32, 0x42] : List Byte).length ∧
      ([0x41, 0x43, 0x32, 0x42] : List Byte).take 4 = [0x41, 0x43, 0x32, 0x42]) ∧
    (([0x41, 0x42] : List Byte) ≠ [] ∧ ([0x41, 0x42] : List Byte).length < 3) ∧
    ((frameF1.take 12).take 3 = [0x41, 0x43, 0x32] ∧ (frameF1.take 12).take 4 ≠ [0x41, 0x43, 0x32, 0x42] ∧
      (frameF1.take 12).length < 13) ∧
    (([0x41, 0x43, 0x31, 0, 0, 0, 0, 0, 0, 0, 0] : List Byte).take 3 = [0x41, 0x43, 0x31] ∧
      ([0x41, 0x43, 0x31, 0, 0, 0, 0, 0, 0, 0, 0] : List Byte).take 4 ≠ [0x41, 0x43, 0x31, 0x42] ∧
      ([0x41, 0x43, 0x31, 0, 0, 0, 0, 0, 0, 0, 0] : List Byte).length < 12) := by decide

theorem witness_ParserRejectsAfterTheHeader :
    ((0x03 : Byte) ≠ 0x42 ∧ 2 < (0x03 : Byte).toNat) ∧ ((0xFF : Byte) ≠ 0x42 ∧ 2 < (0xFF : Byte).toNat) ∧
      3 ≤ (0x03 : Byte).toNat ∧ 3 ≤ (0xFF : Byte).toNat := by decide

/-- One payload per codec, each with its decoding. -/
theorem witness_ParserDecodesAndVerifies :
    rleDec [0x03, 0x41, 0x01, 0x42] = ([0x41, 0x41, 0x41, 0x42], SoftFlags.none) ∧
      lzssDec 3 [0x00, 0x41, 0x10, 0x01] = ([0x41], SoftFlags.badReference) := by decide

theorem witness_LegacyFramesDecodeLikeCurrentOnes : (0x41 : Byte) ≠ 0x42 ∧ (0x43 : Byte) ≠ 0x42 ∧ (0x01 : Byte) ≠ 0x42 := by
  decide

/-- "hello" formatted with codec 0, and a second state whose IN is the frame. -/
theorem witness_FrameRoundTrip :
    let s := given small hello
    let t := given small frameF1
    Begins s ∧ Begins t ∧ s.input ≠ [] ∧ s.lzLegal = true ∧ s.params.Legal ∧ t.params = s.params ∧
      t.operands.lz = s.operands.lz ∧ 13 + 2 * s.input.length ≤ s.params.outCap ∧
      (after (exec (.frameFmt 0) s)).map State.outBytes = some t.input := by unfold Begins; decide +kernel

theorem witness_ChangedPayloadByteChangesTheResult :
    ((0x68 : Byte) ≠ 0x69 ∧ ([] ++ 0x68 :: [0x65] : List Byte).length < 2 ^ 32) ∧
      rleEnc [0x41, 0x41, 0x41, 0x42] = [] ++ 0x03 :: [0x41, 0x01, 0x42] := by decide

/-- A state whose reset pin is driven low and released. -/
theorem witness_ResetLeavesTheListedValues :
    let s₀ := (given small hello).accept 1
    s₀.params = small ∧ (s₀.driveReset false).rstN = false ∧ ((s₀.driveReset false).driveReset true).rstN = true := by decide

theorem witness_SoftResetAbortsAndResets :
    (given small []).rstN = true ∧ ((given small []).accept 1).rstN = true ∧ (0x00000002 : Word).getLsbD 1 = true ∧
      (0x00000003 : Word).getLsbD 1 = true := by decide

theorem witness_ResetPinHoldsTheBlock :
    ((given small []).driveReset false).rstN = false ∧ accessFault small 0x000008 .four = none ∧
      accessFault small 0x3FFFFF .one = none := by decide

theorem witness_AcceptanceClearsAndLatches : (given small hello).rstN = true ∧ (given small hello).running = false := by decide

theorem witness_InterruptFollowsEnableAndDone :
    let s := { given small [] with ie := true, done := true }
    s.ie = true ∧ s.done = true ∧ s.running = false := by decide

/-- The first and the last byte of InBuf. -/
theorem witness_ProtectedWritesWhileBusySetOnlyWbusy :
    let s := (given small hello).accept 1
    (s.rstN = true ∧ s.running = true) ∧
      ((0x100000 : BitVec 22).toNat % Size.four.bytes = 0 ∧ inStart ≤ (0x100000 : BitVec 22).toNat ∧
        (0x100000 : BitVec 22).toNat < inStart + s.params.inCap ∧ (0x100000 : BitVec 22).toNat < outStart) ∧
      (0x10001F : BitVec 22).toNat % Size.one.bytes = 0 ∧ inStart ≤ (0x10001F : BitVec 22).toNat ∧
        (0x10001F : BitVec 22).toNat < inStart + s.params.inCap ∧ (0x10001F : BitVec 22).toNat < outStart := by decide

theorem witness_StatusWritesClearByOne : (given small []).rstN = true := by decide

/-- The last register offset, the first reserved one, a legal access and each fault. -/
theorem witness_FaultingAccessesAreTheUnspecifiedOnes :
    (0x000FFF : BitVec 22).toNat < reservedStart ∧ reservedStart ≤ (0x001000 : BitVec 22).toNat ∧
      accessFault small 0x000FFC .four = none ∧ accessFault small 0x000FFF .two = some .registerAccess ∧
      accessFault small 0x0FFFFF .two = some .misalignedBuffer ∧ accessFault small 0x001001 .four = none := by decide

/-- The last word of a small InBuf and of the largest one, and a word that straddles the end of one. -/
theorem witness_InBufWritesThenReads :
    let s := given small []
    let u := given ⟨0, 30, 30, 12⟩ []
    (s.rstN = true ∧ s.running = false ∧ u.rstN = true ∧ u.running = false) ∧
      ((0x10001C : BitVec 22).toNat % Size.four.bytes = 0 ∧ inStart ≤ (0x10001C : BitVec 22).toNat ∧
        (0x10001C : BitVec 22).toNat < inStart + s.params.inCap ∧ (0x10001C : BitVec 22).toNat < outStart) ∧
      ((0x10001C : BitVec 22).toNat < inStart + u.params.inCap ∧
        u.params.inCap < (0x10001C : BitVec 22).toNat - inStart + Size.four.bytes) ∧
      (0x1FFFFC : BitVec 22).toNat < inStart + Config.Params.chosen.inCap ∧ (0x1FFFFC : BitVec 22).toNat < outStart := by
  decide

theorem witness_ReadsHaveNoSideEffects :
    (after ((given small []).busAccess (.read 0x00000C .four))).map (fun t => t.rdata) = some (some 0) ∧
      (given small []).running = false := by decide

theorem witness_IgnoredWritesChangeNothing :
    (0x000000 : BitVec 22).toNat % 4 = 0 ∧
      ((0x000014 : BitVec 22).toNat % 4 = 0 ∧ 0x014 ≤ (0x000014 : BitVec 22).toNat) ∧
      ((0x00002C : BitVec 22).toNat % 4 = 0 ∧ (0x00002C : BitVec 22).toNat ≤ 0x02C) ∧
      ((0x000040 : BitVec 22).toNat % 4 = 0 ∧ 0x040 ≤ (0x000040 : BitVec 22).toNat) ∧
      ((0x000FFC : BitVec 22).toNat % 4 = 0 ∧ (0x000FFC : BitVec 22).toNat ≤ 0xFFC) ∧
      ((0x100020 : BitVec 22).toNat % Size.four.bytes = 0 ∧ inStart + small.inCap ≤ (0x100020 : BitVec 22).toNat) ∧
      (reservedStart ≤ (0x001001 : BitVec 22).toNat ∧ (0x0FFFFF : BitVec 22).toNat + Size.one.bytes ≤ inStart) ∧
      (inStart + small.inCap ≤ (0x100021 : BitVec 22).toNat ∧ (0x1FFFFD : BitVec 22).toNat + Size.two.bytes ≤ outStart) ∧
      outStart + small.outCap ≤ (0x200021 : BitVec 22).toNat ∧
      highStart ≤ (0x300000 : BitVec 22).toNat ∧ highStart ≤ (0x3FFFFF : BitVec 22).toNat := by decide

theorem witness_ReservedOffsetsReadZero :
    (reservedStart ≤ (0x001000 : BitVec 22).toNat ∧ (0x0FFFFC : BitVec 22).toNat + Size.four.bytes ≤ inStart) ∧
      (inStart + small.inCap ≤ (0x100020 : BitVec 22).toNat ∧ (0x1FFFFC : BitVec 22).toNat + Size.four.bytes ≤ outStart) ∧
      outStart + small.outCap ≤ (0x200020 : BitVec 22).toNat ∧ highStart ≤ (0x3FFFFF : BitVec 22).toNat := by decide

/-- A word that straddles the end of a small OutBuf, and the last offset of the range. -/
theorem witness_OutBufReads :
    let p : Config.Params := ⟨0, 30, 30, 12⟩
    ((0x20001C : BitVec 22).toNat % Size.four.bytes = 0 ∧ outStart ≤ (0x20001C : BitVec 22).toNat ∧
        (0x20001C : BitVec 22).toNat < highStart ∧ (0x20001C : BitVec 22).toNat - outStart < p.outCap ∧
        p.outCap < (0x20001C : BitVec 22).toNat - outStart + Size.four.bytes) ∧
      (0x2FFFFF : BitVec 22).toNat % Size.one.bytes = 0 ∧ (0x2FFFFF : BitVec 22).toNat < highStart := by decide

/-- The last register, the largest off of a store and of a load inside the window, and a pending `wait`. -/
theorem witness_HostStatementsAreBusAccesses :
    (0x044 : BitVec 22).toNat = Reg.outcap.offset ∧ (0x3FFFFF : BitVec 22).toNat = 0x100000 + 0x2FFFFF ∧
      (0x3FFFFF : BitVec 22).toNat = 0x200000 + 0x1FFFFF ∧
      ({ given small [] with host := [.poll, .copyout] } : State).host = .poll :: [.copyout] := by decide

/-- The smallest and the largest parameters are in their ranges. -/
theorem witness_InvariantAtReset :
    (⟨0, 1, 13, 12⟩ : Config.Params).Legal ∧ (⟨0x400000, 0x100000, 0x100000, 4096⟩ : Config.Params).Legal := by decide

/-- A running command whose next step completes it. -/
theorem witness_InvariantIsKept :
    ((given small hello).accept 1).Inv ∧
      (after (step ((given small hello).accept 1))).map (fun t => t.result) = some 0x3610A686 := by
  refine ⟨?_, by decide +kernel⟩
  constructor <;> decide

/-- The three kinds of turn, and the idle block with and without a pending access. -/
theorem witness_StepRunsTheDecodedInstruction :
    (let s := (given small hello).accept 1
     s.running = true ∧ s.latched = some (s.latch 1) ∧ s.turns = [] ∧ decodeBytes .command (le32 1) = .ok .crc32) ∧
    (let s := { (given small [0x00, 0x41]).accept 0x21 with
        work := .decoding 0 [] SoftFlags.none, turns := [.engineUnit] }
     s.running = true ∧ s.turns = [.engineUnit] ∧ s.codedStream = some (.lzssStream, 0) ∧
       s.work = .decoding 0 [] SoftFlags.none ∧ SoftFlags.none.badref = false ∧
       decodeBytes .lzssStream ((s.input.drop 0).take 2) = .ok (.lzssLiteral 0x41)) ∧
    (let s := { given small [] with host := [.bus (rdOp .status)], turns := [.host] }
     s.host = .bus (rdOp .status) :: [] ∧ s.turns = .host :: []) ∧
    (let s := { given small [] with host := [.bus (rdOp .status)] }
     s.host = .bus (rdOp .status) :: [] ∧ s.running = false ∧ s.turns = []) ∧
    ((given small []).running = false ∧ (given small []).turns = [] ∧ (given small []).host = []) := by decide

/-- One byte hashed, then the same result. -/
theorem witness_ProgressIsInvisible :
    ((given small hello).accept 1).running = true ∧
      (after ((given small hello).accept 1).unitTurn).map (fun t => t.work) = some (.hashing 1 0x6E94F918) := by decide +kernel

theorem witness_RunningCommandCompletes :
    let s := (given small hello).accept 0x00000003
    s.running = true ∧ s.turns = [] := by decide

/-- OUT_LEN = IN_CAP = OUT_CAP. -/
theorem witness_CopyoutMovesTheOutput :
    let s := { given ⟨0, 13, 13, 12⟩ [] with host := [.copyout], outLen := 13 }
    s.params.Legal ∧ s.rstN = true ∧ s.running = false ∧ s.turns = [] ∧ s.host = [.copyout] ∧
      s.outLen.toNat ≤ s.params.inCap ∧ s.outLen.toNat ≤ s.params.outCap := by decide

/-- A completion, a soft reset, and `rst_n`. -/
theorem witness_BusyEndsByCompletionOrReset :
    let s := (given small hello).accept 1
    s.running = true ∧ (after (step s)).map (fun t => t.running) = some false ∧
      (after (step { s with turns := [.host], host := [.bus (wrOp .ctrl 2)] })).map (fun t => t.running) = some false ∧
      (after (step { s with turns := [.host], host := [.rstPin false] })).map (fun t => t.running) = some false := by decide

/-- The last byte of a 4-byte write. -/
theorem witness_InBufChangesOnlyByHostWrites :
    let s := { given small hello with host := [.bus (swOp 0 0x42000000)] }
    (after (step s)).map (fun t => t.inByte 3) = some 0x42 ∧ s.inByte 3 = 0x6C ∧
      placeOf s.params ((0x100000 : BitVec 22).toNat + 3) = .inBuf 3 := by decide

theorem witness_OnlyAHostAccessCanFault :
    let s := { given small [] with host := [.bus (.read 0x000001 .four)] }
    after (step s) = none ∧ s.nextAccessLegal = false ∧
      (after (step State.reset)).map (fun t => t.params) = some Config.Params.chosen := by decide

/-- The reserved register offsets at the ends of their range, and a CTRL word without SRST. -/
theorem witness_RegistersReadAndWriteAtTheirOffsets :
    ((0x02C : BitVec 22).toNat % 4 = 0 ∧ (0x02C : BitVec 22).toNat = 0x02C) ∧
      ((0x048 : BitVec 22).toNat % 4 = 0 ∧ 0x048 ≤ (0x048 : BitVec 22).toNat) ∧
      ((0xFFC : BitVec 22).toNat % 4 = 0 ∧ (0xFFC : BitVec 22).toNat ≤ 0xFFC) ∧
      (given small []).rstN = true ∧ (given small []).running = false ∧ (0xFFFFFFFD : Word).getLsbD 1 = false := by decide

end Sys2Proof.Tests
end

/-! ## The invariant at reset -/

namespace Sys2Proof.Machine

/-- The values of R290, by the invariant's clauses: both buffers list no byte, so they are canonical and in bounds; nothing
runs and `rst_n` is high, so the clauses about a running command and about a held reset ask nothing; CODE is OK with no flag
and OUT_LEN = 0. Only the parameters' ranges come from `hp`. -/
theorem State.resetWith_inv {p : Config.Params} (hp : p.Legal) : (State.resetWith p).Inv :=
  have idle : (State.resetWith p).running ≠ true := Bool.false_ne_true
  { params := hp
    in_wf := rfl
    out_wf := rfl
    in_below := rfl
    out_below := rfl
    idle_latched := fun _ => rfl
    busy_latched := fun running => absurd running idle
    idle_work := fun _ => rfl
    busy_done := fun running => absurd running idle
    busy_results := fun running => absurd running idle
    out_len := Nat.zero_le p.outCap
    partial_iff := by simp [State.resetWith, SoftFlags.any, SoftFlags.none]
    terminal := fun _ => rfl
    held := fun low => absurd low.symm Bool.false_ne_true
    draws := by simp [State.resetWith] }

/-- The model's own parameters are in the ranges of R6 (log 2). -/
theorem chosen_legal : Config.Params.chosen.Legal := by decide

/-- Settles O51: the reset state of any parameters in range meets the invariant clause by clause, and the model's own are in
range. -/
theorem invariantAtReset : Obligations.InvariantAtReset :=
  ⟨fun _ hp => State.resetWith_inv hp, State.resetWith_inv chosen_legal⟩

end Sys2Proof.Machine

/-! ## One bus access -/

namespace Sys2Proof.Machine

section busAccess
variable {s : State} {offset : BitVec 22} {size : Size} {f : Fault}

theorem State.busAccess_read_legal (h : accessFault s.params offset.toNat size = none) :
    s.busAccess (.read offset size) = .next (s.busRead offset.toNat size) := by
  simp [State.busAccess, h]

theorem State.busAccess_read_faults (h : accessFault s.params offset.toNat size = some f) :
    s.busAccess (.read offset size) = .fault f := by
  simp [State.busAccess, h]

theorem State.busAccess_write_legal (h : accessFault s.params offset.toNat size = none) (v : Word) :
    s.busAccess (.write offset size v) = .next (s.busWrite offset.toNat size v) := by
  simp [State.busAccess, h]

theorem State.busAccess_write_faults (h : accessFault s.params offset.toNat size = some f) (v : Word) :
    s.busAccess (.write offset size v) = .fault f := by
  simp [State.busAccess, h]

end busAccess

/-! ## What a turn can do -/

/-- What a write that `rst_n` lets through makes of the block: one of these, whatever the offset, the size and the value. -/
inductive WriteEffect (s : State) : State → Prop where
  /-- A write that is ignored (R23, R42, R67, R69). -/
  | ignored : WriteEffect s s
  /-- CTRL with SRST = 0 (R26). -/
  | setsEnable (b : Bool) : WriteEffect s { s with ie := b }
  /-- CTRL with SRST = 1 (R26, R292). -/
  | resets : WriteEffect s s.softReset
  /-- STATUS (R28). -/
  | clearsStatus (v : Word) : WriteEffect s (s.writeStatus v)
  /-- A protected write while BUSY = 1 (R24, R70). -/
  | notesWbusy : s.running = true → WriteEffect s s.noteWbusy
  /-- CMD while BUSY = 0 (R91). -/
  | accepts (w : Word) : s.running = false → WriteEffect s (s.accept w)
  /-- IN_LEN or a LZ_* register while BUSY = 0 (R29, R36 to R39). -/
  | setsOperands (n : Word) (c : LzConfig) : s.running = false → WriteEffect s { s with inLen := n, lz := c }
  /-- Bytes of InBuf while BUSY = 0 (R68). -/
  | stores (m : Memory) : s.running = false → (s.inBuf.wf = true → m.wf = true) →
      (s.inBuf.below s.params.inCap = true → m.below s.params.inCap = true) → WriteEffect s { s with inBuf := m }

/-- A protected register notes WBUSY while BUSY = 1, and does what it does while BUSY = 0 (R24). -/
theorem WriteEffect.of_protected {s t : State} (h : s.running = false → WriteEffect s t) :
    WriteEffect s (if s.running then s.noteWbusy else t) := by
  split
  · next hr => exact .notesWbusy hr
  · next hr => exact h (by simpa using hr)

theorem State.writeReg_effect (s : State) (r : Reg) (v : Word) : WriteEffect s (s.writeReg r v) := by
  cases r with
  | ctrl =>
    show WriteEffect s (if v.getLsbD 1 then s.softReset else { s with ie := v.getLsbD 0 })
    split
    · exact .resets
    · exact .setsEnable _
  | status => exact .clearsStatus v
  | cmd => exact .of_protected (.accepts v)
  | inLen => exact .of_protected (.setsOperands v s.lz)
  | lzWindow => exact .of_protected (.setsOperands s.inLen { s.lz with window := v })
  | lzMinMatch => exact .of_protected (.setsOperands s.inLen { s.lz with minMatch := v })
  | lzMaxMatch => exact .of_protected (.setsOperands s.inLen { s.lz with maxMatch := v })
  | lzHashLimit => exact .of_protected (.setsOperands s.inLen { s.lz with hashLimit := v })
  | maxver | outLen | result | frhdr | frlen | frcrc | calccrc | incap | outcap => exact .ignored

theorem State.bytesWrite_effect (s : State) (a : Nat) (bs : List Byte) : WriteEffect s (s.bytesWrite a bs) := by
  rcases s.bytesWrite_cases a bs with h | ⟨hr, h⟩ | ⟨hr, m, h, hwf, hbelow⟩
  · rw [h]; exact .ignored
  · rw [h]; exact .notesWbusy hr
  · rw [h]; exact .stores m hr hwf hbelow

/-- A write is ignored while `rst_n` is low (log 5), and has one of the effects above while it is high. -/
theorem State.busWrite_effect (s : State) (a : Nat) (size : Size) (v : Word) :
    s.busWrite a size v = s ∨ (s.rstN = true ∧ WriteEffect s (s.busWrite a size v)) := by
  rcases s.busWrite_cases a size v with h | ⟨hp, r, -, -, h⟩ | ⟨hp, -, h⟩
  · exact .inl h
  · exact .inr ⟨hp, h ▸ s.writeReg_effect r v⟩
  · exact .inr ⟨hp, h ▸ s.bytesWrite_effect a _⟩

/-- What a HOST turn can end in. -/
inductive HostEffect (s : State) : Host.Outcome State Fault Refusal → Prop where
  /-- Nothing pending, or a read: only what the HOST knows and has still to do, and the draws made. -/
  | reads (host : List HostOp) (rdata : Option Word) (draws : Nat) : s.draws ≤ draws →
      HostEffect s (.next { s with host := host, rdata := rdata, draws := draws })
  | writes {offset : BitVec 22} {size : Size} {v : Word} {rest : List HostOp} :
      s.host = .bus (.write offset size v) :: rest →
      HostEffect s (.next (({ s with host := rest } : State).busWrite offset.toNat size v))
  | drives {level : Bool} {rest : List HostOp} : s.host = .rstPin level :: rest →
      HostEffect s (.next (({ s with host := rest } : State).driveReset level))
  | faults {op : BusOp} {rest : List HostOp} (f : Fault) : s.host = .bus op :: rest → op.legal s.params = false →
      HostEffect s (.fault f)

/-- A bus access faults where it is not legal, else it is its read or its write. -/
theorem State.busAccess_effect (s : State) {op : BusOp} {rest : List HostOp} (h : s.host = .bus op :: rest) :
    HostEffect s (({ s with host := rest } : State).busAccess op) := by
  cases op with
  | read offset size =>
    cases hf : accessFault s.params offset.toNat size with
    | some f =>
      rw [State.busAccess_read_faults (s := { s with host := rest }) hf]
      exact .faults f h (by simp [BusOp.legal, hf])
    | none =>
      rw [State.busAccess_read_legal (s := { s with host := rest }) hf]
      exact .reads rest _ _ (Nat.le_add_right _ _)
  | write offset size v =>
    cases hf : accessFault s.params offset.toNat size with
    | some f =>
      rw [State.busAccess_write_faults (s := { s with host := rest }) hf v]
      exact .faults f h (by simp [BusOp.legal, hf])
    | none =>
      rw [State.busAccess_write_legal (s := { s with host := rest }) hf v]
      exact .writes h

theorem State.hostTurn_effect (s : State) : HostEffect s s.hostTurn := by
  unfold State.hostTurn
  split
  · exact .reads s.host s.rdata s.draws (Nat.le_refl _)
  · next h => exact s.busAccess_effect h
  · exact .reads _ _ _ (Nat.le_add_right _ _)
  · exact .reads _ _ _ (Nat.le_add_right _ _)
  · exact .reads _ _ _ (Nat.le_add_right _ _)
  · next h => exact .drives h

/-- What an ENGINE turn, of either kind, can end in. -/
inductive EngineEffect (s : State) : Host.Outcome State Fault Refusal → Prop where
  | rests : s.running = false → EngineEffect s (.next s)
  | works (w : Work) : s.running = true → EngineEffect s (.next { s with work := w })
  | completes {code : Code} {out : List Byte} {flags : SoftFlags} (regs : ResultRegs) : s.running = true →
      LegalCompletion s code out flags → EngineEffect s (.next (s.finish code out flags regs))

theorem State.engineTurn_effect (s : State) : EngineEffect s s.engineTurn := by
  cases hr : s.running with
  | false => exact State.engineTurn_idle hr ▸ .rests hr
  | true =>
    obtain ⟨code, out, flags, regs, h, hl⟩ := State.engineTurn_cases hr
    exact h ▸ .completes regs hr hl

theorem State.unitTurn_effect (s : State) : EngineEffect s s.unitTurn := by
  unfold State.unitTurn
  split
  · next hr =>
    split
    · next i hi =>
      obtain ⟨out, flags, h⟩ := exec_unit_cases i (State.nextUnit_context hi) s
      exact h ▸ .works _ hr
    · have h : s.progress = { s with work := s.progress.work } := s.progress_onlyWork
      exact h ▸ .works _ hr
  · next hr => exact .rests (by simpa using hr)

/-- A step is a HOST turn or an ENGINE turn of the state with that turn taken. -/
theorem step_effect (s : State) :
    ∃ turn s', s.takeTurn = (turn, s') ∧ ((turn = .host ∧ HostEffect s' (step s)) ∨ EngineEffect s' (step s)) := by
  unfold step
  split
  · next s' h => exact ⟨_, _, h, .inl ⟨rfl, s'.hostTurn_effect⟩⟩
  · next s' h => exact ⟨_, _, h, .inr s'.engineTurn_effect⟩
  · next s' h => exact ⟨_, _, h, .inr s'.unitTurn_effect⟩

/-! ## The invariant along a step -/

/-- With `rst_n` high the clause about a held reset asks nothing. -/
theorem not_held_of_high {s : State} {P : Prop} (hp : s.rstN = true) : s.rstN = false → P :=
  fun low => absurd (hp.symm.trans low) (by decide)

/-- The clauses about a running command ask nothing where none runs. -/
theorem not_busy_of_idle {s : State} {P : Prop} (hr : s.running = false) : s.running = true → P :=
  fun busy => absurd (hr.symm.trans busy) (by decide)

/-- A command runs only while `rst_n` is high: the reset state runs none (R22, R43). -/
theorem State.Inv.rstN_of_running {s : State} (h : s.Inv) (hr : s.running = true) : s.rstN = true := by
  cases hp : s.rstN with
  | true => rfl
  | false =>
    have idle : s.running = false := by rw [h.held hp]; rfl
    exact not_busy_of_idle idle hr

/-- Nothing the invariant speaks of is the HOST's own, or whose turn it is; more draws may have been made. -/
theorem State.Inv.setHostSide {s : State} (h : s.Inv) (host : List HostOp) (rdata : Option Word) (turns : List Turn)
    {draws : Nat} (hd : s.draws ≤ draws) :
    State.Inv { s with host := host, rdata := rdata, turns := turns, draws := draws } :=
  { h with
    held := fun low => by
      have heq := h.held low
      rw [heq]
      rfl
    draws := by
      obtain ⟨hin, hout, hne⟩ := h.draws
      exact ⟨Nat.lt_of_lt_of_le hin hd, Nat.lt_of_lt_of_le hout hd, hne⟩ }

theorem State.Inv.takeTurn {s : State} (h : s.Inv) : s.takeTurn.2.Inv := by
  obtain ⟨rest, heq⟩ := s.takeTurn_state
  exact heq ▸ h.setHostSide s.host s.rdata rest (Nat.le_refl _)

/-- While a command runs its hidden work is free (R44). -/
theorem State.Inv.setWork {s : State} (h : s.Inv) (hr : s.running = true) (w : Work) :
    State.Inv { s with work := w } :=
  { h with
    idle_work := fun idle => absurd (hr.symm.trans idle) (by decide)
    held := not_held_of_high (s := s) (h.rstN_of_running hr) }

/-- IE, DONE and WBUSY are free but that DONE is 0 while a command runs (R26, R28, R260). -/
theorem State.Inv.setFlags {s : State} (h : s.Inv) (hp : s.rstN = true) (ie wbusy : Bool) {done : Bool}
    (hd : s.running = true → done = false) : State.Inv { s with ie := ie, done := done, wbusy := wbusy } :=
  { h with
    busy_done := fun hr => ⟨hd hr, (h.busy_done hr).2⟩
    held := not_held_of_high (s := s) hp }

/-- While nothing runs IN_LEN, LZ_* and the bytes of InBuf are free: nothing is latched of them (R43). -/
theorem State.Inv.setOperands {s : State} (h : s.Inv) (hp : s.rstN = true) (hr : s.running = false) (n : Word)
    (c : LzConfig) {m : Memory} (hwf : m.wf = true) (hbelow : m.below s.params.inCap = true) :
    State.Inv { s with inLen := n, lz := c, inBuf := m } :=
  { h with
    in_wf := hwf
    in_below := hbelow
    busy_latched := not_busy_of_idle (s := s) hr
    held := not_held_of_high (s := s) hp }

/-- Acceptance latches the registers' values and clears what the invariant wants cleared (R91, R260). -/
theorem State.Inv.accept {s : State} (h : s.Inv) (hp : s.rstN = true) (w : Word) : (s.accept w).Inv :=
  { h with
    idle_latched := fun idle => nomatch idle
    busy_latched := fun _ => rfl
    idle_work := fun _ => rfl
    busy_done := fun _ => ⟨rfl, rfl, rfl⟩
    busy_results := fun _ => ⟨rfl, rfl, rfl, rfl, rfl, rfl⟩
    out_len := Nat.zero_le _
    partial_iff := by simp
    terminal := fun _ => rfl
    held := not_held_of_high (s := s) hp }

/-- A completion's output fits, its code goes with its flags, and OutBuf's draw is a new one (R261, R263, R265). -/
theorem State.Inv.finish {s : State} (h : s.Inv) (hr : s.running = true) {code : Code} {out : List Byte}
    {flags : SoftFlags} (hl : LegalCompletion s code out flags) (regs : ResultRegs) :
    (s.finish code out flags regs).Inv :=
  { h with
    out_wf := Memory.wf_ofBytes 0 out
    out_below := Memory.below_ofBytes (by simpa using hl.fits)
    idle_latched := fun _ => rfl
    busy_latched := fun busy => nomatch busy
    idle_work := fun _ => rfl
    busy_done := fun busy => nomatch busy
    busy_results := fun busy => nomatch busy
    out_len := by
      rw [State.finish_outLen, BitVec.toNat_ofNat]
      exact Nat.le_trans (Nat.mod_le _ _) hl.fits
    partial_iff := hl.partial_iff
    terminal := fun ht => by rw [State.finish_outLen, hl.terminal ht]; rfl
    held := not_held_of_high (s := s) (h.rstN_of_running hr)
    draws := by
      obtain ⟨hin, -, -⟩ := h.draws
      exact ⟨Nat.lt_succ_of_lt hin, Nat.lt_succ_self _, Nat.ne_of_lt hin⟩ }

/-- Soft reset keeps InBuf and its draw; the rest is the reset state (R292). -/
theorem State.Inv.softReset {s : State} (h : s.Inv) (hp : s.rstN = true) : s.softReset.Inv :=
  { State.resetWith_inv h.params with
    in_wf := h.in_wf
    in_below := h.in_below
    held := not_held_of_high (s := s) hp
    draws := by
      obtain ⟨hin, -, -⟩ := h.draws
      exact ⟨Nat.lt_succ_of_lt hin, Nat.lt_succ_self _, Nat.ne_of_lt hin⟩ }

/-- Power-on reset leaves the reset state and two new draws, whatever was before (R290). -/
theorem State.Inv.powerOn_held {s : State} (h : s.params.Legal) : State.Inv { s.powerOn with rstN := false } :=
  { State.resetWith_inv h with
    held := fun _ => rfl
    draws := ⟨Nat.lt_add_of_pos_right Nat.two_pos, Nat.lt_succ_self _, Nat.ne_of_lt (Nat.lt_succ_self _)⟩ }

theorem State.Inv.driveReset {s : State} (h : s.Inv) (level : Bool) : (s.driveReset level).Inv := by
  cases level with
  | false => exact State.Inv.powerOn_held h.params
  | true => exact { h with held := fun low => nomatch low }

theorem WriteEffect.inv {s t : State} (e : WriteEffect s t) (h : s.Inv) (hp : s.rstN = true) : t.Inv := by
  cases e with
  | ignored => exact h
  | setsEnable b => exact h.setFlags hp b s.wbusy fun hr => (h.busy_done hr).1
  | resets => exact h.softReset hp
  | clearsStatus v => exact h.setFlags hp s.ie _ fun hr => by simp [h.busy_done hr]
  | notesWbusy _ => exact h.setFlags hp s.ie true fun hr => (h.busy_done hr).1
  | accepts w _ => exact h.accept hp w
  | setsOperands n c hr => exact h.setOperands hp hr n c h.in_wf h.in_below
  | stores m hr hwf hbelow => exact h.setOperands hp hr s.inLen s.lz (hwf h.in_wf) (hbelow h.in_below)

theorem State.Inv.busWrite {s : State} (h : s.Inv) (a : Nat) (size : Size) (v : Word) : (s.busWrite a size v).Inv := by
  rcases s.busWrite_effect a size v with heq | ⟨hp, e⟩
  · rw [heq]; exact h
  · exact e.inv h hp

theorem HostEffect.inv {s t : State} (e : HostEffect s (.next t)) (h : s.Inv) : t.Inv := by
  cases e with
  | reads host rdata draws hd => exact h.setHostSide host rdata s.turns hd
  | writes _ => exact (h.setHostSide _ s.rdata s.turns (Nat.le_refl _)).busWrite _ _ _
  | drives _ => exact (h.setHostSide _ s.rdata s.turns (Nat.le_refl _)).driveReset _

theorem EngineEffect.inv {s t : State} (e : EngineEffect s (.next t)) (h : s.Inv) : t.Inv := by
  cases e with
  | rests _ => exact h
  | works w hr => exact h.setWork hr w
  | completes regs hr hl => exact h.finish hr hl regs

/-- Settles O52: taking the turn keeps the invariant, and so does each thing a HOST turn or an ENGINE turn can do. -/
theorem invariantIsKept : Obligations.InvariantIsKept := by
  intro s t h hstep
  obtain ⟨turn, s', hturn, he⟩ := step_effect s
  have hs' : s'.Inv := by simpa [hturn] using h.takeTurn
  rw [hstep] at he
  rcases he with ⟨-, e⟩ | e
  · exact e.inv hs'
  · exact e.inv hs'

/-! ## What a step never does -/

theorem WriteEffect.params {s t : State} (e : WriteEffect s t) : t.params = s.params := by
  cases e <;> rfl

theorem State.busWrite_params (s : State) (a : Nat) (size : Size) (v : Word) :
    (s.busWrite a size v).params = s.params := by
  rcases s.busWrite_effect a size v with h | ⟨-, e⟩
  · rw [h]
  · exact e.params

theorem State.driveReset_params (s : State) (level : Bool) : (s.driveReset level).params = s.params := by
  cases level <;> rfl

theorem HostEffect.params {s t : State} (e : HostEffect s (.next t)) : t.params = s.params := by
  cases e with
  | reads => rfl
  | writes _ => exact State.busWrite_params _ _ _ _
  | drives _ => exact State.driveReset_params _ _

theorem EngineEffect.params {s t : State} (e : EngineEffect s (.next t)) : t.params = s.params := by
  cases e <;> rfl

theorem HostEffect.not_refused {s : State} {r : Refusal} : ¬ HostEffect s (.refused r) := nofun

theorem EngineEffect.not_refused {s : State} {r : Refusal} : ¬ EngineEffect s (.refused r) := nofun

theorem EngineEffect.not_fault {s : State} {f : Fault} : ¬ EngineEffect s (.fault f) := nofun

theorem HostEffect.access_of_fault {s : State} {f : Fault} (e : HostEffect s (.fault f)) :
    ∃ op rest, s.host = .bus op :: rest ∧ op.legal s.params = false := by
  cases e with
  | faults _ h hl => exact ⟨_, _, h, hl⟩

/-- Settles O59: no turn changes the parameters or refuses, and only a HOST turn faults, at an access that is not legal. -/
theorem onlyAHostAccessCanFault : Obligations.OnlyAHostAccessCanFault := by
  intro s
  obtain ⟨turn, s', hturn, he⟩ := step_effect s
  have hparams : s'.params = s.params := by
    obtain ⟨rest, heq⟩ := s.takeTurn_state
    rw [hturn] at heq
    subst heq
    rfl
  refine ⟨fun t hstep => ?_, fun r hstep => ?_, fun f hstep => ?_⟩
  all_goals rw [hstep] at he
  · rcases he with ⟨-, e⟩ | e
    · exact e.params.trans hparams
    · exact e.params.trans hparams
  · rcases he with ⟨-, e⟩ | e
    · exact e.not_refused
    · exact e.not_refused
  · rcases he with ⟨rfl, e⟩ | e
    · obtain ⟨op, rest, hhost, hl⟩ := e.access_of_fault
      exact ⟨s', op, rest, hturn, hhost, hparams ▸ hl⟩
    · exact absurd e EngineEffect.not_fault

/-! ## IN_LEN > IN_CAP -/

/-- The range check comes first in every command (R266). -/
theorem exec_of_rangeStop {i : Instr} {s : State} {code : Code} (hi : isCommand i = true)
    (h : s.rangeStop = some code) : exec i s = .next (s.raise code) := by
  have hash : s.hashStop = some code := h
  have rle : s.rleStop = some code := by simp [State.rleStop, h]
  have lzss : s.lzssStop = some code := by simp [State.lzssStop, h]
  have format : ∀ codec, s.formatStop codec = some code := fun codec => by simp [State.formatStop, h]
  cases i with
  | crc32 => simp [exec, execCrc32, hash]
  | fnv32 => simp [exec, execFnv32, hash]
  | rleEnc => simp [exec, execRleEnc, rle]
  | rleDec => simp [exec, execRleDec, rle]
  | lzssEnc => simp [exec, execLzssEnc, lzss]
  | lzssDec => simp [exec, execLzssDec, lzss]
  | frameFmt codec => simp [exec, execFrameFmt, format]
  | frameParse => simp [exec, execFrameParse, h]
  | illegal | lzssLiteral | lzssMatch | rlePair => cases hi

/-- Settles O16: the range check finds IN_LEN > IN_CAP, and it is every command's first. -/
theorem inputOutOfRangeStopsEveryCommand : Obligations.InputOutOfRangeStopsEveryCommand :=
  fun _ s hi h => ⟨_, exec_of_rangeStop hi (State.rangeStop_some h), s.raise_completes _⟩

/-! ## Which accesses fault -/

theorem placeOf_register_iff {p : Config.Params} {a : Nat} : placeOf p a = .register ↔ a < reservedStart := by
  unfold placeOf
  split_ifs <;> simp_all

theorem Size.bytes_pos (size : Size) : 0 < size.bytes := by
  cases size <;> decide

/-- Neither `register` nor `reserved`: a byte of a buffer. -/
theorem Place.buffer_iff {q : Place} : (q ≠ .register ∧ q ≠ .reserved) ↔ ∃ i, q = .inBuf i ∨ q = .outBuf i := by
  cases q <;> simp

section accessFault
variable {p : Config.Params} {a : Nat} {size : Size}

/-- R64 and log 6. -/
theorem accessFault_register (ha : a < reservedStart) :
    accessFault p a size = if size = .four ∧ a % 4 = 0 then none else some .registerAccess := by
  have reaches : ((List.range size.bytes).map (fun k => placeOf p (a + k))).any (· == .register) = true := by
    simp only [List.any_map, List.any_eq_true, List.mem_range]
    exact ⟨0, size.bytes_pos, by simpa using placeOf_register_iff.mpr ha⟩
  unfold accessFault
  simp only [reaches, Bool.true_and]
  by_cases haligned : size = .four ∧ a % 4 = 0
  · obtain ⟨rfl, ha4⟩ := haligned
    simp [ha4, Size.bytes]
  · rw [if_neg haligned, if_pos (by simp; tauto)]

/-- R66 and log 7, above the register region. -/
theorem accessFault_above (ha : reservedStart ≤ a) :
    accessFault p a size ≠ some .registerAccess ∧
      (accessFault p a size = some .misalignedBuffer ↔
        a % size.bytes ≠ 0 ∧ ∃ k i, k < size.bytes ∧ (placeOf p (a + k) = .inBuf i ∨ placeOf p (a + k) = .outBuf i)) := by
  have noRegister : ((List.range size.bytes).map (fun k => placeOf p (a + k))).any (· == .register) = false := by
    simp only [List.any_map, List.any_eq_false, List.mem_range]
    intro k _
    have : placeOf p (a + k) ≠ .register := fun h => by have := placeOf_register_iff.mp h; omega
    simpa using this
  have reaches : ((List.range size.bytes).map (fun k => placeOf p (a + k))).any (fun q => q != .register && q != .reserved)
      = true ↔ ∃ k i, k < size.bytes ∧ (placeOf p (a + k) = .inBuf i ∨ placeOf p (a + k) = .outBuf i) := by
    simp only [List.any_map, List.any_eq_true, List.mem_range, Function.comp, Bool.and_eq_true, bne_iff_ne,
      Place.buffer_iff]
    simp
  unfold accessFault
  simp only [noRegister, Bool.false_and, Bool.false_eq_true, if_false]
  rw [← reaches]
  split
  · next h => simpa using h
  · next h => simpa using h

theorem accessFault_none_of_aligned (ha : reservedStart ≤ a) (haligned : a % size.bytes = 0) :
    accessFault p a size = none := by
  obtain ⟨hreg, hbuf⟩ := accessFault_above (p := p) (size := size) ha
  cases hf : accessFault p a size with
  | none => rfl
  | some f =>
    cases f with
    | registerAccess => exact absurd hf hreg
    | misalignedBuffer => exact absurd haligned (hbuf.mp hf).1

/-- An access that reaches only reserved offsets is legal at any alignment (R67, log 7). -/
theorem accessFault_none_of_reserved (ha : reservedStart ≤ a)
    (h : ∀ k, k < size.bytes → placeOf p (a + k) = .reserved) : accessFault p a size = none := by
  obtain ⟨hreg, hbuf⟩ := accessFault_above (p := p) (size := size) ha
  cases hf : accessFault p a size with
  | none => rfl
  | some f =>
    cases f with
    | registerAccess => exact absurd hf hreg
    | misalignedBuffer =>
      obtain ⟨-, k, i, hk, hplace⟩ := hbuf.mp hf
      simp [h k hk] at hplace

end accessFault

/-- Settles O44: the faulting accesses on either side of 0x1000, and that `busAccess` answers the fault, or completes. -/
theorem faultingAccessesAreTheUnspecifiedOnes : Obligations.FaultingAccessesAreTheUnspecifiedOnes :=
  ⟨fun _ _ _ => ⟨accessFault_register, accessFault_above⟩,
    fun _ _ _ v =>
      ⟨fun _ hf => ⟨State.busAccess_read_faults hf, State.busAccess_write_faults hf v⟩,
        fun hf => ⟨⟨_, State.busAccess_read_legal hf⟩, ⟨_, State.busAccess_write_legal hf v⟩⟩⟩⟩

/-! ## Registers at their offsets -/

theorem regAt_offset (r : Reg) : regAt r.offset = some r := by
  cases r <;> rfl

theorem Reg.offset_of_regAt {a : Nat} {r : Reg} (h : regAt a = some r) : r.offset = a := by
  simpa using List.find?_some h

/-- No offset of R23 is the reserved one, or beyond OUTCAP's. -/
theorem Reg.offset_ne (r : Reg) : r.offset ≠ 0x02C ∧ r.offset < 0x048 := by
  cases r <;> decide

theorem Reg.offset_aligned (r : Reg) : r.offset % 4 = 0 := by
  cases r <;> rfl

theorem Reg.offset_toNat (r : Reg) : (BitVec.ofNat 22 r.offset).toNat = r.offset := by
  cases r <;> rfl

theorem regAt_reserved {a : Nat} (h : a = 0x02C ∨ 0x048 ≤ a) : regAt a = none := by
  cases hr : regAt a with
  | none => rfl
  | some r =>
    have heq := Reg.offset_of_regAt hr
    have hne := r.offset_ne
    omega

/-- An aligned 4-byte access of the register region is legal (R64). -/
theorem accessFault_word {p : Config.Params} {a : Nat} (ha : a < reservedStart) (h4 : a % 4 = 0) :
    accessFault p a .four = none := by
  rw [accessFault_register ha, if_pos ⟨rfl, h4⟩]

theorem Reg.offset_lt (r : Reg) : r.offset < reservedStart :=
  Nat.lt_trans r.offset_ne.2 (by decide)

theorem State.memRead_offset (s : State) (r : Reg) : s.memRead r.offset .four = s.readReg r := by
  simp [State.memRead, r.offset_lt, regAt_offset]

/-- `rd` and `wr` access legally (R64). -/
theorem Reg.access_legal (r : Reg) (p : Config.Params) :
    accessFault p (BitVec.ofNat 22 r.offset).toNat .four = none := by
  rw [r.offset_toNat]
  exact accessFault_word r.offset_lt r.offset_aligned

/-- `rd REG` returns the register (R111). -/
theorem State.busAccess_rdOp (s : State) (r : Reg) :
    ∃ t, s.busAccess (rdOp r) = .next t ∧ t.rdata = some (s.readReg r) := by
  refine ⟨_, State.busAccess_read_legal (r.access_legal s.params), ?_⟩
  rw [State.busRead_rdata, r.offset_toNat, State.memRead_offset]

/-- `wr REG, v` writes the register (R111). -/
theorem State.busAccess_wrOp {s : State} (hp : s.rstN = true) (r : Reg) (v : Word) :
    s.busAccess (wrOp r v) = .next (s.writeReg r v) := by
  rw [wrOp, State.busAccess_write_legal (r.access_legal s.params), r.offset_toNat]
  simp [State.busWrite, hp, State.memWrite, r.offset_lt, regAt_offset]

theorem State.ctrl_eq (s : State) : s.ctrl = if s.ie then 1 else 0 := by
  unfold State.ctrl
  cases s.ie <;> rfl

/-- CTRL with SRST = 0 (R26). -/
theorem State.writeCtrl_of_enable {s : State} {v : Word} (h : v.getLsbD 1 = false) :
    s.writeCtrl v = { s with ie := v.getLsbD 0 } :=
  if_neg (by rw [h]; decide)

/-- Settles O60: `rd` and `wr` at each register's offset, no register at the reserved ones, and what `writeReg` does to each
writable one. -/
theorem registersReadAndWriteAtTheirOffsets : Obligations.RegistersReadAndWriteAtTheirOffsets := by
  intro s v
  refine ⟨fun r => ⟨BitVec.ofNat 22 r.offset, s.readReg r, ?_, rfl, rfl, r.offset_toNat.symm, rfl, s.busAccess_rdOp r⟩,
    fun a h4 ha => ?_, fun hp hr => ?_, fun hp hsrst => ?_⟩
  · rw [← s.ctrl_eq]
    cases r <;> simp [Reg.offset, State.readReg, Config.maxVersion]
  · have hlt : a.toNat < reservedStart := by unfold reservedStart; omega
    refine ⟨_, State.busAccess_read_legal (accessFault_word hlt h4), ?_⟩
    simp [State.memRead, hlt, regAt_reserved (ha.imp_right And.left)]
  · have hw (r : Reg) : s.busAccess (wrOp r v) = .next (s.writeReg r v) := State.busAccess_wrOp hp r v
    have idle (w t : State) : (if s.running then w else t) = t := if_neg (by simp [hr])
    exact ⟨(hw .cmd).trans (congrArg _ (idle _ _)), (hw .inLen).trans (congrArg _ (idle _ _)),
      (hw .lzWindow).trans (congrArg _ (idle _ _)), (hw .lzMinMatch).trans (congrArg _ (idle _ _)),
      (hw .lzMaxMatch).trans (congrArg _ (idle _ _)), (hw .lzHashLimit).trans (congrArg _ (idle _ _))⟩
  · have hw : s.busAccess (wrOp .ctrl v) = .next (s.writeCtrl v) := State.busAccess_wrOp hp .ctrl v
    rwa [State.writeCtrl_of_enable hsrst] at hw

/-! ## Writes that WBUSY notes, and writes that are ignored -/

theorem State.byteWrite_busy {s : State} {a i : Nat} (hr : s.running = true) (h : placeOf s.params a = .inBuf i)
    (b : Byte) : s.byteWrite a b = s.noteWbusy := by
  simp [State.byteWrite, h, hr]

theorem State.byteWrite_ignored {s : State} {a : Nat} (h : ∀ i, placeOf s.params a ≠ .inBuf i) (b : Byte) :
    s.byteWrite a b = s := by
  unfold State.byteWrite
  split
  · next i hi => exact absurd hi (h i)
  all_goals rfl

/-- While BUSY = 1 a write whose first byte is in InBuf sets WBUSY, whatever its other bytes reach (R70). -/
theorem State.bytesWrite_busy {s : State} {a i : Nat} (hr : s.running = true) (h : placeOf s.params a = .inBuf i)
    (b : Byte) (bs : List Byte) : s.bytesWrite a (b :: bs) = s.noteWbusy := by
  rw [State.bytesWrite, State.byteWrite_busy hr h]
  rcases s.noteWbusy.bytesWrite_cases (a + 1) bs with heq | ⟨-, heq⟩ | ⟨hidle, -⟩
  · exact heq
  · exact heq
  · exact not_busy_of_idle hidle hr

/-- Bytes that reach no byte of InBuf are ignored (R67, R69). -/
theorem State.bytesWrite_ignored {s : State} {a : Nat} {bs : List Byte}
    (h : ∀ k, k < bs.length → ∀ i, placeOf s.params (a + k) ≠ .inBuf i) : s.bytesWrite a bs = s := by
  induction bs generalizing a with
  | nil => rfl
  | cons b bs ih =>
    have first : ∀ i, placeOf s.params a ≠ .inBuf i := h 0 (Nat.succ_pos _)
    rw [State.bytesWrite, State.byteWrite_ignored first]
    refine ih fun k hk i => ?_
    rw [Nat.add_assoc, Nat.add_comm 1 k]
    exact h (k + 1) (Nat.succ_lt_succ hk) i

theorem State.busWrite_above {s : State} (hp : s.rstN = true) {a : Nat} (ha : reservedStart ≤ a) (size : Size)
    (v : Word) : s.busWrite a size v = s.bytesWrite a ((le32 v).take size.bytes) := by
  simp [State.busWrite, hp, State.memWrite, Nat.not_lt.mpr ha]

theorem State.busWrite_low {s : State} (hp : s.rstN = false) (a : Nat) (size : Size) (v : Word) :
    s.busWrite a size v = s := by
  simp [State.busWrite, hp]

theorem length_take_le32 (v : Word) (size : Size) : ((le32 v).take size.bytes).length = size.bytes := by
  cases size <;> rfl

/-- A write above the register region that reaches no byte of InBuf is ignored, whatever `rst_n` is. -/
theorem State.busWrite_ignored {s : State} {a : Nat} {size : Size} (ha : reservedStart ≤ a)
    (h : ∀ k, k < size.bytes → ∀ i, placeOf s.params (a + k) ≠ .inBuf i) (v : Word) : s.busWrite a size v = s := by
  cases hp : s.rstN with
  | false => exact State.busWrite_low hp a size v
  | true =>
    rw [State.busWrite_above hp ha]
    exact State.bytesWrite_ignored fun k hk => h k (length_take_le32 v size ▸ hk)

/-- A word at a register offset no writable register has is ignored (R23, R42). -/
theorem State.busWrite_readOnly {s : State} {a : Nat} (ha : a < reservedStart)
    (h : ∀ r, regAt a = some r → ∀ v, s.writeReg r v = s) (v : Word) : s.busWrite a .four v = s := by
  unfold State.busWrite State.memWrite
  rw [if_pos ha]
  split
  · split
    · next r hr => exact h r hr v
    · rfl
  · rfl

/-- The registers at the offsets R23 marks read-only have no effect when written. -/
theorem State.writeReg_readOnly (s : State) {r : Reg}
    (h : r.offset = 0x000 ∨ (0x014 ≤ r.offset ∧ r.offset ≤ 0x02C) ∨ 0x040 ≤ r.offset) (v : Word) :
    s.writeReg r v = s := by
  cases r with
  | maxver | outLen | result | frhdr | frlen | frcrc | calccrc | incap | outcap => rfl
  | ctrl | cmd | status | inLen | lzWindow | lzMinMatch | lzMaxMatch | lzHashLimit => simp [Reg.offset] at h

/-- The `n` bytes at `a` lie in one of the four kinds of range without a byte of a buffer (R67, log 7). -/
def OnlyReserved (p : Config.Params) (a n : Nat) : Prop :=
  (reservedStart ≤ a ∧ a + n ≤ inStart) ∨ (inStart + p.inCap ≤ a ∧ a + n ≤ outStart) ∨ outStart + p.outCap ≤ a ∨
    highStart ≤ a

theorem OnlyReserved.above {p : Config.Params} {a n : Nat} (h : OnlyReserved p a n) : reservedStart ≤ a := by
  unfold OnlyReserved reservedStart inStart outStart highStart at h
  unfold reservedStart
  omega

theorem OnlyReserved.placeOf_eq {p : Config.Params} {a n k : Nat} (h : OnlyReserved p a n) (hk : k < n) :
    placeOf p (a + k) = .reserved := by
  unfold OnlyReserved reservedStart inStart outStart highStart at h
  unfold placeOf reservedStart inStart outStart highStart
  split_ifs
  · omega
  · rfl
  · omega
  · rfl
  · omega
  · rfl
  · rfl

/-- No byte of InBuf stands at or beyond its end (R61, R67). -/
theorem placeOf_ne_inBuf {p : Config.Params} {a : Nat} (h : inStart + p.inCap ≤ a) (i : Nat) :
    placeOf p a ≠ .inBuf i := by
  intro hi
  obtain ⟨heq, hlt⟩ := placeOf_inBuf hi
  omega

/-- Settles O47: register offsets without a writable register, then writes whose bytes are outside InBuf: aligned ones
beyond its end, and those that reach reserved offsets only. -/
theorem ignoredWritesChangeNothing : Obligations.IgnoredWritesChangeNothing := by
  intro s offset v
  refine ⟨fun h4 hoff => ?_, fun size hoff => ?_⟩
  · have hlt : offset.toNat < reservedStart := by unfold reservedStart; omega
    rw [State.busAccess_write_legal (accessFault_word hlt h4)]
    refine congrArg _ (State.busWrite_readOnly hlt (fun r hr => s.writeReg_readOnly ?_) v)
    rw [Reg.offset_of_regAt hr]
    omega
  · rcases hoff with ⟨haligned, hend⟩ | hreserved
    · have ha : reservedStart ≤ offset.toNat := Nat.le_trans (by decide) (Nat.le_trans (Nat.le_add_right _ _) hend)
      rw [State.busAccess_write_legal (accessFault_none_of_aligned ha haligned)]
      exact congrArg _ (State.busWrite_ignored ha
        (fun k _ => placeOf_ne_inBuf (Nat.le_trans hend (Nat.le_add_right _ k))) v)
    · have hreserved : OnlyReserved s.params offset.toNat size.bytes := hreserved
      have ha := hreserved.above
      have hplace : ∀ k, k < size.bytes → placeOf s.params (offset.toNat + k) = .reserved :=
        fun _ hk => hreserved.placeOf_eq hk
      rw [State.busAccess_write_legal (accessFault_none_of_reserved ha hplace)]
      exact congrArg _ (State.busWrite_ignored ha (fun k hk i => by simp [hplace k hk]) v)

theorem placeOf_eq_inBuf {p : Config.Params} {a : Nat} (hin : inStart ≤ a) (hcap : a < inStart + p.inCap)
    (hout : a < outStart) : placeOf p a = .inBuf (a - inStart) := by
  unfold placeOf
  rw [if_neg (Nat.not_lt.mpr (Nat.le_trans (by decide) hin)), if_neg (Nat.not_lt.mpr hin), if_pos hout, if_pos (by omega)]

/-- The first byte of a write of any width is the value's lowest (R62). -/
theorem take_le32_eq_cons (v : Word) (size : Size) : ∃ b bs, (le32 v).take size.bytes = b :: bs := by
  cases size <;> exact ⟨_, _, rfl⟩

/-- Settles O41: each protected register notes WBUSY while BUSY = 1, and so does a write that begins in InBuf. -/
theorem protectedWritesWhileBusySetOnlyWbusy : Obligations.ProtectedWritesWhileBusySetOnlyWbusy := by
  intro s v hp hr
  refine ⟨fun r hmem => ?_, fun offset size haligned hin hcap hout => ?_⟩
  · have busy (w t : State) : (if s.running then w else t) = w := if_pos hr
    rw [State.busAccess_wrOp hp]
    simp only [List.mem_cons, List.not_mem_nil, or_false] at hmem
    rcases hmem with rfl | rfl | rfl | rfl | rfl | rfl
    all_goals exact congrArg _ (busy _ _)
  · have ha : reservedStart ≤ offset.toNat := Nat.le_trans (by decide) hin
    obtain ⟨b, bs, hbytes⟩ := take_le32_eq_cons v size
    rw [State.busAccess_write_legal (accessFault_none_of_aligned ha haligned), State.busWrite_above hp ha, hbytes,
      State.bytesWrite_busy hr (placeOf_eq_inBuf hin hcap hout)]
    rfl

/-- Settles O38: the registers and the buffers of the reset state, and that `busWrite` does nothing while `rst_n` is low. -/
theorem resetPinHoldsTheBlock : Obligations.ResetPinHoldsTheBlock := by
  refine ⟨fun s => ⟨fun r => ?_, rfl, rfl, rfl, fun _ => rfl, fun _ => rfl⟩, fun s offset size v hp hlegal => ?_⟩
  · cases r <;> rfl
  · rw [State.busAccess_write_legal hlegal, State.busWrite_low hp]

/-! ## STATUS and irq -/

theorem flagAt_getLsbD (b : Bool) {k : Nat} (hk : k < 32) (i : Nat) :
    (flagAt b k).getLsbD i = (decide (i = k) && b) := by
  unfold flagAt
  simp only [BitVec.getLsbD_shiftLeft, BitVec.getLsbD_setWidth, BitVec.getLsbD_ofBool]
  rcases Nat.lt_trichotomy i k with h | rfl | h
  · simp [h, Nat.ne_of_lt h]
  · simp [hk]
  · simp [Nat.ne_of_gt h, Nat.sub_ne_zero_of_lt h]

/-- CODE in STATUS[15:8] (R28). -/
theorem codeField_getLsbD (c : Byte) (i : Nat) :
    ((c.setWidth 32 : Word) <<< 8).getLsbD i = (decide (8 ≤ i) && c.getLsbD (i - 8)) := by
  simp only [BitVec.getLsbD_shiftLeft, BitVec.getLsbD_setWidth]
  rcases (by omega : i < 8 ∨ (8 ≤ i ∧ i < 16) ∨ 16 ≤ i) with h | ⟨h8, h16⟩ | h
  · simp [h]
  · simp [h8, show i < 32 by omega, show i - 8 < 32 by omega]
  · simp [BitVec.getLsbD_of_ge c (i - 8) (by omega)]

/-- Bit `k` of STATUS: one flag, one bit of CODE, or 0 (R28). -/
theorem State.status_getLsbD (s : State) (k : Nat) :
    s.status.getLsbD k =
      (decide (k = 0) && s.running || decide (k = 1) && s.done || decide (k = 2) && s.wbusy ||
        decide (8 ≤ k) && s.code.toByte.getLsbD (k - 8) || decide (k = 16) && s.soft.trunc ||
        decide (k = 17) && s.soft.badref || decide (k = 18) && s.soft.lenmis || decide (k = 19) && s.soft.crcmis) := by
  unfold State.status
  simp (disch := decide) only [BitVec.getLsbD_or, flagAt_getLsbD, codeField_getLsbD]

theorem State.status_code (s : State) : s.status.extractLsb' 8 8 = s.code.toByte := by
  refine BitVec.eq_of_getLsbD_eq fun i hi => ?_
  rw [BitVec.getLsbD_extractLsb', State.status_getLsbD]
  simp [hi, show 8 + i ≠ 1 by omega, show 8 + i ≠ 2 by omega, show 8 + i ≠ 16 by omega,
    show 8 + i ≠ 17 by omega, show 8 + i ≠ 18 by omega, show 8 + i ≠ 19 by omega]

theorem State.status_reserved (s : State) {k : Nat} (hk : (3 ≤ k ∧ k < 8) ∨ 20 ≤ k) : s.status.getLsbD k = false := by
  have code : (decide (8 ≤ k) && s.code.toByte.getLsbD (k - 8)) = false := by
    rcases hk with ⟨-, hk⟩ | hk
    · simp [Nat.not_le.mpr hk]
    · simp [BitVec.getLsbD_of_ge s.code.toByte (k - 8) (by omega)]
  rw [State.status_getLsbD, code]
  simp [show k ≠ 0 by omega, show k ≠ 1 by omega, show k ≠ 2 by omega, show k ≠ 16 by omega, show k ≠ 17 by omega,
    show k ≠ 18 by omega, show k ≠ 19 by omega]

/-- Settles O42: the bits of STATUS one by one, and the byte of each of the twelve codes. -/
theorem statusRegisterLayout : Obligations.StatusRegisterLayout := by
  intro s
  refine ⟨(s.status_getLsbD 0).trans (by simp), (s.status_getLsbD 1).trans (by simp), (s.status_getLsbD 2).trans (by simp),
    s.status_code, (s.status_getLsbD 16).trans (by simp), (s.status_getLsbD 17).trans (by simp),
    (s.status_getLsbD 18).trans (by simp), (s.status_getLsbD 19).trans (by simp), fun _ hk => s.status_reserved hk, ?_⟩
  have code : (s.readReg .status).extractLsb' 8 8 = s.code.toByte := s.status_code
  rw [code]
  cases s.code <;> simp [Code.toByte]

/-- Settles O43: a STATUS write is `writeStatus`, which keeps DONE and WBUSY where their bit of the value is 0. -/
theorem statusWritesClearByOne : Obligations.StatusWritesClearByOne := by
  intro s v hp
  have keeps (flag bit : Bool) : (flag && !bit) = if bit then false else flag := by cases bit <;> simp
  rw [State.busAccess_wrOp hp, ← keeps, ← keeps]
  rfl

theorem State.irq_iff (s : State) : s.irq = true ↔ s.ie = true ∧ s.done = true := by
  simp [State.irq]

theorem State.irq_of_not_done {s : State} (h : s.done = false) : s.irq = false := by
  simp [State.irq, h]

theorem State.irq_of_not_ie {s : State} (h : s.ie = false) : s.irq = false := by
  simp [State.irq, h]

/-- Settles O40: each operation sets IE or DONE, and `irq` is their conjunction. -/
theorem interruptFollowsEnableAndDone : Obligations.InterruptFollowsEnableAndDone := by
  intro s
  refine ⟨s.irq_iff, fun code out flags regs hie => (State.irq_iff _).mpr ⟨hie, rfl⟩, fun hdone => ?_, ?_, ?_,
    fun w hr => ?_⟩
  · have enabled : s.writeReg .ctrl 0x00000001 = { s with ie := true } := State.writeCtrl_of_enable (by decide)
    rw [enabled]
    exact (State.irq_iff _).mpr ⟨rfl, hdone⟩
  · exact State.irq_of_not_done (Bool.and_false s.done)
  · have disabled : s.writeReg .ctrl 0x00000000 = { s with ie := false } := State.writeCtrl_of_enable (by decide)
    rw [disabled]
    exact State.irq_of_not_ie rfl
  · have accepted : s.writeReg .cmd w = s.accept w := if_neg (by simp [hr])
    rw [accepted]
    exact State.irq_of_not_done rfl

end Sys2Proof.Machine

/-! ## The ENGINE's hidden work does not show in the completion -/

namespace Sys2Proof.Machine

theorem OnlyWorkDiffers.input_eq {s t : State} (h : OnlyWorkDiffers s t) : t.input = s.input := by
  rw [h]
  rfl

theorem OnlyWorkDiffers.minMatch_eq {s t : State} (h : OnlyWorkDiffers s t) : t.minMatch = s.minMatch := by
  rw [h]
  rfl

/-! ### The encoders' and the hashes' loops: an iteration leaves the result as it was -/

/-- The accumulator a hash loop ends with, from where it stands (R131, R134). -/
def State.hashResult (s : State) (init : Word) (update : Word → Byte → Word) : Word :=
  (s.input.drop (s.hashWork init).1).foldl update (s.hashWork init).2

theorem State.hashIter_result (s : State) (init : Word) (update : Word → Byte → Word) :
    (s.hashIter init update).hashResult init update = s.hashResult init update := by
  unfold State.hashIter
  dsimp only
  split
  · rfl
  · next b rest hdrop =>
    have hrest : s.input.drop ((s.hashWork init).1 + 1) = rest := by
      rw [← List.drop_drop, hdrop]
      rfl
    show (s.input.drop ((s.hashWork init).1 + 1)).foldl update (update (s.hashWork init).2 b) = _
    rw [hrest, State.hashResult, hdrop]
    rfl

/-- One pair, then the rest (R150): the fuel left is enough. -/
theorem rleEncFrom_cons (out : List Byte) (b : Byte) (rest : List Byte) :
    rleEncFrom out (b :: rest) = rleEncFrom (out ++ (rlePairOf b rest).1) (rlePairOf b rest).2 :=
  rleEncLoop_fuel rest.length _ _ _ (by simp [rlePairOf]) le_rfl

theorem State.rleEncIter_result (s : State) : s.rleEncIter.rleEncResult = s.rleEncResult := by
  unfold State.rleEncIter
  dsimp only
  split
  · rfl
  · next b rest hdrop =>
    have hrest : s.input.drop (s.rleEncWork.1 + 1 + runLength b 254 rest) = (rlePairOf b rest).2 := by
      rw [← List.drop_drop, ← List.drop_drop, hdrop]
      rfl
    show rleEncFrom _ (s.input.drop _) = rleEncFrom s.rleEncWork.2 (s.input.drop s.rleEncWork.1)
    rw [hdrop, rleEncFrom_cons, ← hrest]

/-- One token, then the rest, under a legal configuration (R172): the token consumes a byte, so the fuel left is enough. -/
theorem lzssEncLoop_token {cfg : LzConfig} {limit : Nat} (hl : cfg.legal limit = true) {s : List Byte} {p : Nat}
    (hp : p < s.length) (out : List Byte) (table : HashTable) :
    lzssEncLoop cfg s (s.length - (p + (tokenAt cfg s p table).2)) (p + (tokenAt cfg s p table).2)
        (out ++ (tokenAt cfg s p table).1) (tableAfter cfg s p table) =
      lzssEncLoop cfg s (s.length - p) p out table := by
  obtain ⟨fuel, hfuel⟩ : ∃ fuel, s.length - p = fuel + 1 := ⟨s.length - p - 1, by omega⟩
  have hc := tokenAt_consumes hl s p table
  rw [hfuel, lzssEncLoop, if_pos hp]
  exact lzssEncLoop_fuel hl s _ _ _ _ _ (by omega) (by omega)

theorem State.lzssEncIter_result {s : State} (hl : s.lzLegal = true) :
    s.lzssEncIter.lzssEncResult = s.lzssEncResult := by
  unfold State.lzssEncIter
  dsimp only
  split
  · next hp => exact lzssEncLoop_token hl hp _ _
  · rfl

/-! ### The decoders' loops: beginning, and reading a data unit, leave the result as it was -/

/-- What the running decoder of a coded stream ends with, from where its loop stands; a command word is no stream. -/
def State.streamResult (s : State) : Context → Nat → List Byte × SoftFlags
  | .command, _ => ([], SoftFlags.none)
  | .rleStream, start => s.rleDecResult start
  | .lzssStream, start => s.lzssDecResult start

theorem State.beginDecode_decodeWork (s : State) (start : Nat) :
    (s.beginDecode start).decodeWork start = s.decodeWork start := by
  cases hw : s.work with
  | decoding pos out flags => simp [State.beginDecode, hw]
  | fresh | hashing | rleEncoding | lzssEncoding => simp [State.beginDecode, State.decodeWork, hw]

theorem State.beginDecode_streamResult (s : State) (ctx : Context) (start : Nat) :
    (s.beginDecode start).streamResult ctx start = s.streamResult ctx start := by
  have hin := (s.beginDecode_onlyWork start).input_eq
  have hmin := (s.beginDecode_onlyWork start).minMatch_eq
  cases ctx with
  | command => rfl
  | rleStream => simp only [State.streamResult, State.rleDecResult, s.beginDecode_decodeWork, hin]
  | lzssStream => simp only [State.streamResult, State.lzssDecResult, s.beginDecode_decodeWork, hin, hmin]

section begun
variable {s : State} {pos : Nat} {out : List Byte} {flags : SoftFlags}

theorem State.decodeWork_of_decoding (hw : s.work = .decoding pos out flags) (start : Nat) :
    s.decodeWork start = (pos, out, flags) := by
  simp [State.decodeWork, hw]

theorem State.rleDecResult_of_decoding (hw : s.work = .decoding pos out flags) (start : Nat) :
    s.rleDecResult start =
      ((rleDecFrom out (s.input.drop pos)).1, flags.union (rleDecFrom out (s.input.drop pos)).2) := by
  simp [State.rleDecResult, State.decodeWork_of_decoding hw]

theorem State.lzssDecResult_of_decoding (hw : s.work = .decoding pos out flags) (start : Nat) :
    s.lzssDecResult start =
      if flags.badref then (out, flags)
      else ((lzssDecFrom s.minMatch out (s.input.drop pos)).1,
        flags.union (lzssDecFrom s.minMatch out (s.input.drop pos)).2) := by
  simp [State.lzssDecResult, State.decodeWork_of_decoding hw]

theorem State.decoded_work_of_decoding (hw : s.work = .decoding pos out flags) (out' : List Byte) (more : SoftFlags) :
    (s.decoded out' more).work = .decoding (pos + 2) out' (flags.union more) := by
  rw [State.decoded_work, State.decodeWork_of_decoding hw]

variable {f g : Byte} {rest : List Byte}

/-- Past the unit that stands at its position, the decoder's input is what follows the unit. -/
theorem State.decoded_input_drop (hd : s.input.drop pos = f :: g :: rest) (out' : List Byte) (more : SoftFlags) :
    (s.decoded out' more).input.drop (pos + 2) = rest := by
  rw [(s.decoded_onlyWork out' more).input_eq, ← List.drop_drop, hd]
  rfl

/-- A pair read is the pair the loop of R151 would read next. -/
theorem State.exec_decodeRle (hw : s.work = .decoding pos out flags) (hd : s.input.drop pos = f :: g :: rest)
    (start : Nat) :
    ∃ t, exec (decodeRle f g) s = .next t ∧ t.rleDecResult start = s.rleDecResult start := by
  refine ⟨s.decoded (rleUnit out f g) SoftFlags.none, ?_, ?_⟩
  · show Host.Outcome.next (s.decoded (rleUnit (s.decodeWork 0).2.1 f g) SoftFlags.none) = _
    rw [State.decodeWork_of_decoding hw]
  · rw [State.rleDecResult_of_decoding hw, State.rleDecResult_of_decoding (State.decoded_work_of_decoding hw _ _),
      State.decoded_input_drop hd, hd, SoftFlags.union_none]
    rfl

/-- A token read is the token the loop of R180 would read next; a bad reference ends both (R182). -/
theorem State.exec_decodeLzss (hw : s.work = .decoding pos out flags) (hb : flags.badref = false)
    (hd : s.input.drop pos = f :: g :: rest) (start : Nat) :
    ∃ t, exec (decodeLzss f g) s = .next t ∧ t.lzssDecResult start = s.lzssDecResult start := by
  have goesOn (out' : List Byte) : (s.decoded out' SoftFlags.none).lzssDecResult start =
      ((lzssDecFrom s.minMatch out' rest).1, flags.union (lzssDecFrom s.minMatch out' rest).2) := by
    rw [State.lzssDecResult_of_decoding (State.decoded_work_of_decoding hw _ _), State.decoded_input_drop hd,
      SoftFlags.union_none, if_neg (by simp [hb]), (s.decoded_onlyWork out' _).minMatch_eq]
  rw [State.lzssDecResult_of_decoding hw, if_neg (by simp [hb]), hd, decodeLzss, lzssDecFrom]
  split
  · refine ⟨s.decoded (out ++ [g]) SoftFlags.none, ?_, goesOn _⟩
    show Host.Outcome.next (s.decoded ((s.decodeWork 0).2.1 ++ [g]) SoftFlags.none) = _
    rw [State.decodeWork_of_decoding hw]
  · show ∃ t, execLzssMatch _ _ s = _ ∧ _
    unfold execLzssMatch
    rw [State.decodeWork_of_decoding hw]
    dsimp only
    split
    · next out' hm => exact ⟨_, rfl, goesOn out'⟩
    · refine ⟨_, rfl, ?_⟩
      rw [State.lzssDecResult_of_decoding (State.decoded_work_of_decoding hw _ _),
        if_pos (by simp [SoftFlags.union, SoftFlags.badReference])]

end begun

/-- What the front of a coded stream decodes to is its first two bytes as the stream's unit (R99, R103). -/
theorem decodeBytes_take_two {ctx : Context} (hc : ctx ≠ .command) {l : List Byte} {i : Instr}
    (h : (decodeBytes ctx (l.take 2)).toOption = some i) :
    ∃ f g rest, l = f :: g :: rest ∧
      (ctx = .rleStream ∧ i = decodeRle f g ∨ ctx = .lzssStream ∧ i = decodeLzss f g) := by
  match l, ctx, hc with
  | _, .command, hc => exact absurd rfl hc
  | [], .rleStream, _ | [], .lzssStream, _ | [_], .rleStream, _ | [_], .lzssStream, _ =>
    simp [decodeBytes, Except.toOption] at h
  | f :: g :: rest, .rleStream, _ =>
    have hi : decodeRle f g = i := by simpa [decodeBytes, Except.toOption] using h
    exact ⟨f, g, rest, rfl, .inl ⟨rfl, hi.symm⟩⟩
  | f :: g :: rest, .lzssStream, _ =>
    have hi : decodeLzss f g = i := by simpa [decodeBytes, Except.toOption] using h
    exact ⟨f, g, rest, rfl, .inr ⟨rfl, hi.symm⟩⟩

/-- The coded streams: an `rle.dec`'s, an `lzss.dec`'s, or the payload of a parsed frame of codec 1 or 2 (R151, R180,
R242); in each the command's checks have passed. -/
theorem State.codedStream_cases {s : State} {ctx : Context} {start : Nat} (h : s.codedStream = some (ctx, start)) :
    (s.currentInstr = .rleDec ∧ ctx = .rleStream ∧ start = 0) ∨
    (s.currentInstr = .lzssDec ∧ ctx = .lzssStream ∧ start = 0) ∨
    (s.currentInstr = .frameParse ∧ ∃ hdr, frameHead s.lzLegal s.input = .ok hdr ∧ start = headerLength hdr.legacy ∧
      (hdr.cid = 1 ∧ ctx = .rleStream ∨ hdr.cid = 2 ∧ ctx = .lzssStream)) := by
  unfold State.codedStream at h
  split at h
  · next hi =>
    split at h
    · cases h
      exact .inl ⟨hi, rfl, rfl⟩
    · cases h
  · next hi =>
    split at h
    · cases h
      exact .inr (.inl ⟨hi, rfl, rfl⟩)
    · cases h
  · next hi =>
    split at h
    · next hdr _ hf =>
      split at h
      · next hcid =>
        cases h
        exact .inr (.inr ⟨hi, hdr, hf, rfl, .inl ⟨hcid, rfl⟩⟩)
      · split at h
        · next hcid =>
          cases h
          exact .inr (.inr ⟨hi, hdr, hf, rfl, .inr ⟨hcid, rfl⟩⟩)
        · cases h
    · cases h
  · cases h

theorem State.codedStream_ne_command {s : State} {ctx : Context} {start : Nat}
    (h : s.codedStream = some (ctx, start)) : ctx ≠ .command := by
  rcases State.codedStream_cases h with ⟨-, rfl, -⟩ | ⟨-, rfl, -⟩ | ⟨-, hdr, -, -, ⟨-, rfl⟩ | ⟨-, rfl⟩⟩
  all_goals decide

/-- A data unit read leaves its decoder's result as it was. -/
theorem State.exec_nextUnit_result {s t : State} {i : Instr} (h : s.nextUnit = some i) (ht : exec i s = .next t) :
    ∃ ctx start, s.codedStream = some (ctx, start) ∧ t.streamResult ctx start = s.streamResult ctx start := by
  unfold State.nextUnit at h
  split at h
  · next ctx start pos out flags hc hw =>
    refine ⟨ctx, start, hc, ?_⟩
    split at h
    · cases h
    · next hb =>
      obtain ⟨f, g, rest, hd, ⟨rfl, rfl⟩ | ⟨rfl, rfl⟩⟩ := decodeBytes_take_two (State.codedStream_ne_command hc) h
      · obtain ⟨t', ht', hres⟩ := State.exec_decodeRle hw hd start
        cases ht.symm.trans ht'
        exact hres
      · obtain ⟨t', ht', hres⟩ := State.exec_decodeLzss hw (by simpa using hb) hd start
        cases ht.symm.trans ht'
        exact hres
  · cases h

/-! ### A completion reads the hidden work only through its loop's result -/

section onlyWork
variable {s t : State} (hw : OnlyWorkDiffers s t)
include hw

theorem OnlyWorkDiffers.currentInstr_eq : t.currentInstr = s.currentInstr := by
  rw [hw]
  rfl

theorem OnlyWorkDiffers.exec_crc32 (hs : s.hashStop = none)
    (h : t.hashResult crcInit crcStep = s.hashResult crcInit crcStep) : exec .crc32 t = exec .crc32 s := by
  have finishes {u : State} (hu : u.hashStop = none) : execCrc32 u = .next (u.finish .ok [] SoftFlags.none
      { result := some (xor32 (u.hashResult crcInit crcStep) 0xFFFFFFFF) }) := by
    unfold execCrc32
    rw [hu]
    rfl
  have ht : t.hashStop = none := by
    rw [hw]
    exact hs
  show execCrc32 t = execCrc32 s
  rw [finishes ht, finishes hs, h, hw]
  rfl

theorem OnlyWorkDiffers.exec_fnv32 (hs : s.hashStop = none)
    (h : t.hashResult fnvInit fnvStep = s.hashResult fnvInit fnvStep) : exec .fnv32 t = exec .fnv32 s := by
  have finishes {u : State} (hu : u.hashStop = none) : execFnv32 u = .next (u.finish .ok [] SoftFlags.none
      { result := some (u.hashResult fnvInit fnvStep) }) := by
    unfold execFnv32
    rw [hu]
    rfl
  have ht : t.hashStop = none := by
    rw [hw]
    exact hs
  show execFnv32 t = execFnv32 s
  rw [finishes ht, finishes hs, h, hw]
  rfl

theorem OnlyWorkDiffers.exec_rleEnc (h : t.rleEncResult = s.rleEncResult) : exec .rleEnc t = exec .rleEnc s := by
  show execRleEnc t = execRleEnc s
  unfold execRleEnc
  rw [h, hw]
  rfl

theorem OnlyWorkDiffers.exec_lzssEnc (h : t.lzssEncResult = s.lzssEncResult) : exec .lzssEnc t = exec .lzssEnc s := by
  show execLzssEnc t = execLzssEnc s
  unfold execLzssEnc
  rw [h, hw]
  rfl

theorem OnlyWorkDiffers.exec_frameFmt {codec : Byte} (h : t.payloadResult codec = s.payloadResult codec) :
    exec (.frameFmt codec) t = exec (.frameFmt codec) s := by
  show execFrameFmt codec t = execFrameFmt codec s
  unfold execFrameFmt
  rw [h, hw]
  rfl

theorem OnlyWorkDiffers.exec_frameParse {hdr : FrameHeader} (hf : frameHead s.lzLegal s.input = .ok hdr)
    (h : t.decodeResult hdr = s.decodeResult hdr) : exec .frameParse t = exec .frameParse s := by
  have hft : frameHead t.lzLegal t.input = .ok hdr := by
    rw [hw]
    exact hf
  show execFrameParse t = execFrameParse s
  unfold execFrameParse
  rw [hft, hf]
  dsimp only
  rw [h, hw]
  rfl

theorem OnlyWorkDiffers.exec_decoder {ctx : Context} {start : Nat} (hc : s.codedStream = some (ctx, start))
    (h : t.streamResult ctx start = s.streamResult ctx start) : exec s.currentInstr t = exec s.currentInstr s := by
  rcases State.codedStream_cases hc with ⟨hi, rfl, rfl⟩ | ⟨hi, rfl, rfl⟩ |
    ⟨hi, hdr, hf, rfl, ⟨hcid, rfl⟩ | ⟨hcid, rfl⟩⟩
  all_goals simp only [State.streamResult] at h
  · rw [hi]
    show execRleDec t = execRleDec s
    unfold execRleDec
    rw [h, hw]
    rfl
  · rw [hi]
    show execLzssDec t = execLzssDec s
    unfold execLzssDec
    rw [h, hw]
    rfl
  · rw [hi]
    exact hw.exec_frameParse hf (by simp [State.decodeResult, hcid, h])
  · rw [hi]
    exact hw.exec_frameParse hf (by simp [State.decodeResult, hcid, h])

end onlyWork

theorem State.lzLegal_of_configStop {s : State} (h : s.configStop = none) : s.lzLegal = true := by
  cases hl : s.lzLegal with
  | true => rfl
  | false => simp [State.configStop_some hl] at h

theorem State.lzLegal_of_lzssStop {s : State} (h : s.lzssStop = none) : s.lzLegal = true :=
  State.lzLegal_of_configStop (Option.or_eq_none_iff.mp (Option.or_eq_none_iff.mp h).2).1

theorem State.lzLegal_of_formatStop {s : State} (h : s.formatStop 2 = none) : s.lzLegal = true :=
  State.lzLegal_of_configStop
    (Option.or_eq_none_iff.mp (Option.or_eq_none_iff.mp (Option.or_eq_none_iff.mp h).2).2).2

/-- An iteration that reads no data unit: each loop's result is what it was, by its own lemma above. -/
theorem State.exec_progress (s : State) : exec s.currentInstr s.progress = exec s.currentInstr s := by
  unfold State.progress
  split
  · next hi =>
    split
    · next hs => exact hi ▸ (s.hashIter_onlyWork _ _).exec_crc32 hs (s.hashIter_result _ _)
    · rfl
  · next hi =>
    split
    · next hs => exact hi ▸ (s.hashIter_onlyWork _ _).exec_fnv32 hs (s.hashIter_result _ _)
    · rfl
  · next hi =>
    split
    · exact hi ▸ s.rleEncIter_onlyWork.exec_rleEnc s.rleEncIter_result
    · rfl
  · next hi =>
    split
    · next hs =>
      have hl := State.lzLegal_of_lzssStop hs
      exact hi ▸ s.lzssEncIter_onlyWork.exec_lzssEnc (State.lzssEncIter_result hl)
    · rfl
  · next codec hi =>
    split
    · next hs =>
      split
      · next hcodec =>
        subst hcodec
        exact hi ▸ s.rleEncIter_onlyWork.exec_frameFmt s.rleEncIter_result
      · split
        · next hcodec =>
          subst hcodec
          exact hi ▸ s.lzssEncIter_onlyWork.exec_frameFmt (State.lzssEncIter_result (State.lzLegal_of_formatStop hs))
        · rfl
    · rfl
  · split
    · next ctx start hc => exact (s.beginDecode_onlyWork start).exec_decoder hc (s.beginDecode_streamResult ctx start)
    · rfl

/-- Settles O54: a data unit, or an iteration of another loop, changes only the hidden work and leaves the loop's result,
which is all a completion reads of that work. -/
theorem progressIsInvisible : Obligations.ProgressIsInvisible := by
  intro s t hr ht
  unfold State.unitTurn at ht
  rw [if_pos hr] at ht
  split at ht
  · next i hi =>
    obtain ⟨out, flags, hexec⟩ := exec_unit_cases i (State.nextUnit_context hi) s
    obtain ⟨ctx, start, hc, hres⟩ := State.exec_nextUnit_result hi ht
    cases hexec.symm.trans ht
    have hw := s.decoded_onlyWork out flags
    exact ⟨hw, hw.exec_decoder hc hres⟩
  · cases ht
    exact ⟨s.progress_onlyWork, s.progress_onlyWork.currentInstr_eq ▸ s.exec_progress⟩

end Sys2Proof.Machine

/-! ## What a read returns -/

namespace Sys2Proof.Machine

/-- Byte `k` of a word composed of bytes is byte `k` of them, 0 past their end (R9, R63). -/
theorem extractLsb'_composeLe (bs : List Byte) {k : Nat} (hk : k < 4) :
    (composeLe bs).extractLsb' (8 * k) 8 = byteAt bs k := by
  induction bs generalizing k with
  | nil => simp [composeLe, byteAt]
  | cons b bs ih =>
    refine BitVec.eq_of_getLsbD_eq fun i hi => ?_
    simp only [composeLe, BitVec.getLsbD_extractLsb', BitVec.getLsbD_or, BitVec.getLsbD_setWidth,
      BitVec.getLsbD_shiftLeft]
    cases k with
    | zero => simp [byteAt, hi, show i < 32 by omega]
    | succ k =>
      have hbyte : (composeLe bs).getLsbD (8 * k + i) = (byteAt bs k).getLsbD i := by
        rw [← ih (by omega), BitVec.getLsbD_extractLsb']
        simp [hi]
      have hhigh : b.getLsbD (8 * (k + 1) + i) = false := BitVec.getLsbD_of_ge _ _ (by omega)
      rw [hhigh, show 8 * (k + 1) + i - 8 = 8 * k + i by omega, hbyte]
      simp [byteAt, hi, show 8 * (k + 1) + i < 32 by omega, show ¬ 8 * (k + 1) + i < 8 by omega]

theorem byteAt_le32 (w : Word) {k : Nat} (hk : k < 4) : byteAt (le32 w) k = w.extractLsb' (8 * k) 8 := by
  match k, hk with
  | 0, _ | 1, _ | 2, _ | 3, _ => rfl

theorem byteAt_le32_composeLe (bs : List Byte) {k : Nat} (hk : k < 4) : byteAt (le32 (composeLe bs)) k = byteAt bs k := by
  rw [byteAt_le32 _ hk, extractLsb'_composeLe bs hk]

section memRead
variable (s : State) {a : Nat}

/-- Byte `k` of a read above the register region is byte `a + k`, and 0 past the width (R63, log 20). -/
theorem State.memRead_byte (ha : reservedStart ≤ a) (size : Size) {k : Nat} (hk : k < 4) :
    byteAt (le32 (s.memRead a size)) k = if k < size.bytes then s.byteRead (a + k) else 0 := by
  rw [State.memRead, if_neg (Nat.not_lt.mpr ha), byteAt_le32_composeLe _ hk, byteAt]
  split
  · next hw => simp [List.getD_eq_getElem?_getD, hw]
  · next hw => simp [List.getD_eq_getElem?_getD, Nat.not_lt.mp hw]

/-- A read of one byte is that byte (R63, log 20). -/
theorem State.memRead_one (ha : reservedStart ≤ a) : s.memRead a .one = (s.byteRead a).setWidth 32 := by
  simp [State.memRead, Nat.not_lt.mpr ha, Size.bytes, composeLe]

/-- A read that reaches only reserved offsets is 0 (R67). -/
theorem State.memRead_reserved {size : Size} (h : OnlyReserved s.params a size.bytes) : s.memRead a size = 0 := by
  have zero : ∀ k, k < size.bytes → s.byteRead (a + k) = 0 := fun k hk => by
    simp [State.byteRead, h.placeOf_eq hk]
  have bytes : (List.range size.bytes).map (fun k => s.byteRead (a + k)) = (List.range size.bytes).map (fun _ => 0) :=
    List.map_congr_left fun k hk => zero k (List.mem_range.mp hk)
  rw [State.memRead, if_neg (Nat.not_lt.mpr h.above), bytes]
  cases size <;> rfl

theorem placeOf_in {p : Config.Params} (hin : inStart ≤ a) (hout : a < outStart) :
    placeOf p a = if a - inStart < p.inCap then .inBuf (a - inStart) else .reserved := by
  rw [placeOf, if_neg (Nat.not_lt.mpr (Nat.le_trans (by decide) hin)), if_neg (Nat.not_lt.mpr hin), if_pos hout]

theorem placeOf_out {p : Config.Params} (hout : outStart ≤ a) (hhigh : a < highStart) :
    placeOf p a = if a - outStart < p.outCap then .outBuf (a - outStart) else .reserved := by
  rw [placeOf, if_neg (Nat.not_lt.mpr (Nat.le_trans (by decide) hout)),
    if_neg (Nat.not_lt.mpr (Nat.le_trans (by decide) hout)), if_neg (Nat.not_lt.mpr hout), if_pos hhigh]

/-- What the HOST reads at an offset of the InBuf range, whatever BUSY is (R67, R68, R70). -/
theorem State.byteRead_in (hin : inStart ≤ a) (hout : a < outStart) :
    s.byteRead a = if a - inStart < s.params.inCap then s.inByte (a - inStart) else 0 := by
  rw [State.byteRead, placeOf_in hin hout]
  by_cases hcap : a - inStart < s.params.inCap
  · simp [hcap]
  · simp [hcap]

/-- What the HOST reads at an offset of the OutBuf range: free values while BUSY = 1 (R67, R69, R71). -/
theorem State.byteRead_out (hout : outStart ≤ a) (hhigh : a < highStart) :
    s.byteRead a = if a - outStart < s.params.outCap then
      (if s.running then Config.freeByte s.draws (a - outStart) else s.outByte (a - outStart)) else 0 := by
  rw [State.byteRead, placeOf_out hout hhigh]
  by_cases hcap : a - outStart < s.params.outCap
  · simp [hcap]
  · simp [hcap]

end memRead

/-- An aligned access that begins below the end of a region that begins at a multiple of 4 stays below it (R61, R66). -/
theorem Size.lt_of_aligned {size : Size} {a k e : Nat} (ha : a % size.bytes = 0) (he : e % 4 = 0) (h : a < e)
    (hk : k < size.bytes) : a + k < e := by
  cases size <;> simp only [Size.bytes] at ha hk <;> omega

/-- An idle block makes no draw for a read (R71, log 15). -/
theorem State.busRead_idle {s : State} (hr : s.running = false) (a : Nat) (size : Size) :
    s.busRead a size = { s with rdata := some (s.memRead a size) } := by
  simp [State.busRead, State.readDraws, hr]

/-- Settles O46: a completed read is `busRead`, which changes the data returned and, only while BUSY = 1, the draws made. -/
theorem readsHaveNoSideEffects : Obligations.ReadsHaveNoSideEffects := by
  intro s t offset size h
  have ht : t = s.busRead offset.toNat size := by
    cases hf : accessFault s.params offset.toNat size with
    | some f => exact nomatch (State.busAccess_read_faults hf).symm.trans h
    | none => exact (Host.Outcome.next.inj ((State.busAccess_read_legal hf).symm.trans h)).symm
  subst ht
  refine ⟨rfl, fun hr => ?_, fun r => ?_, fun hr a => ?_⟩
  · rw [State.busRead_idle hr]
  · cases r <;> rfl
  · rw [State.busRead_idle hr]
    rfl

/-- Settles O48: a read of reserved offsets only is legal, and each of its bytes is 0. -/
theorem reservedOffsetsReadZero : Obligations.ReservedOffsetsReadZero := by
  intro s offset size h
  have hreserved : OnlyReserved s.params offset.toNat size.bytes := h
  have hlegal := accessFault_none_of_reserved hreserved.above fun _ hk => hreserved.placeOf_eq hk
  exact ⟨_, State.busAccess_read_legal hlegal, congrArg some (s.memRead_reserved hreserved)⟩

/-- Settles O49: the bytes of an aligned read in the OutBuf range, one by one. -/
theorem outBufReads : Obligations.OutBufReads := by
  intro s offset size haligned hout hhigh
  have ha : reservedStart ≤ offset.toNat := Nat.le_trans (by decide) hout
  refine ⟨_, _, State.busAccess_read_legal (accessFault_none_of_aligned ha haligned), rfl, fun k hk => ?_⟩
  rw [s.memRead_byte ha size hk, ite_and]
  refine if_ctx_congr Iff.rfl (fun hw => ?_) fun _ => rfl
  rw [s.byteRead_out (Nat.le_trans hout (Nat.le_add_right _ k)) (Size.lt_of_aligned haligned (by decide) hhigh hw),
    Nat.sub_add_comm hout]

/-! ## What a write of InBuf leaves -/

theorem State.byteWrite_frame (s : State) (a : Nat) (b : Byte) :
    (s.byteWrite a b).params = s.params ∧ (s.byteWrite a b).running = s.running := by
  unfold State.byteWrite
  split
  · split <;> exact ⟨rfl, rfl⟩
  all_goals exact ⟨rfl, rfl⟩

theorem State.byteWrite_in {s : State} {a i : Nat} (hr : s.running = false) (h : placeOf s.params a = .inBuf i)
    (b : Byte) : s.byteWrite a b = s.writeInByte i b := by
  simp [State.byteWrite, h, hr]

theorem State.inByte_byteWrite_other {s : State} {a i : Nat} (h : placeOf s.params a ≠ .inBuf i) (b : Byte) :
    (s.byteWrite a b).inByte i = s.inByte i := by
  unfold State.byteWrite
  split
  · next j hj =>
    split
    · rfl
    · rw [State.inByte_writeInByte, if_neg]
      rintro rfl
      exact h hj
  all_goals rfl

/-- Bytes of InBuf where no byte of the write stands are as they were, whatever BUSY is. -/
theorem State.inByte_bytesWrite_other {s : State} {a i : Nat} {bs : List Byte}
    (h : ∀ k, k < bs.length → placeOf s.params (a + k) ≠ .inBuf i) : (s.bytesWrite a bs).inByte i = s.inByte i := by
  induction bs generalizing s a with
  | nil => rfl
  | cons b bs ih =>
    have first : placeOf s.params a ≠ .inBuf i := h 0 (Nat.succ_pos _)
    rw [State.bytesWrite, ih, State.inByte_byteWrite_other first]
    intro k hk
    rw [(s.byteWrite_frame a b).1, Nat.add_assoc, Nat.add_comm 1 k]
    exact h (k + 1) (Nat.succ_lt_succ hk)

/-- While BUSY = 0 a byte of the write that stands in InBuf is there afterwards: no later byte of it stands there too. -/
theorem State.inByte_bytesWrite {s : State} {a i k : Nat} {bs : List Byte} (hr : s.running = false)
    (hk : k < bs.length) (h : placeOf s.params (a + k) = .inBuf i) : (s.bytesWrite a bs).inByte i = byteAt bs k := by
  induction bs generalizing s a k with
  | nil => simp at hk
  | cons b bs ih =>
    obtain ⟨hparams, hrun⟩ := s.byteWrite_frame a b
    rw [State.bytesWrite]
    cases k with
    | zero =>
      have later : ∀ k, k < bs.length → placeOf (s.byteWrite a b).params (a + 1 + k) ≠ .inBuf i := fun k _ hk => by
        rw [hparams] at hk
        have := placeOf_inBuf h
        have := placeOf_inBuf hk
        omega
      rw [Nat.add_zero] at h
      rw [State.inByte_bytesWrite_other later, State.byteWrite_in hr h, State.inByte_writeInByte, if_pos rfl]
      rfl
    | succ k =>
      rw [ih (hrun.trans hr) (Nat.lt_of_succ_lt_succ hk)]
      · rfl
      · rw [hparams, Nat.add_assoc, Nat.add_comm 1 k]
        exact h

theorem byteAt_take {bs : List Byte} {n k : Nat} (hk : k < n) : byteAt (bs.take n) k = byteAt bs k := by
  simp [byteAt, hk]

/-- A write above the register region changes at most bytes of InBuf while BUSY = 0 (R67 to R69). -/
theorem State.busWrite_frame {s : State} (hp : s.rstN = true) (hr : s.running = false) {a : Nat}
    (ha : reservedStart ≤ a) (size : Size) (v : Word) :
    s.busWrite a size v = { s with inBuf := (s.busWrite a size v).inBuf } := by
  rw [State.busWrite_above hp ha]
  rcases s.bytesWrite_cases a ((le32 v).take size.bytes) with h | ⟨hbusy, -⟩ | ⟨-, m, h, -⟩
  · rw [h]
  · exact not_busy_of_idle hr hbusy
  · rw [h]

section write
variable {s : State} {a i k : Nat} {size : Size} {v : Word}

theorem State.inByte_busWrite (hp : s.rstN = true) (hr : s.running = false) (ha : reservedStart ≤ a)
    (hk : k < size.bytes) (h : placeOf s.params (a + k) = .inBuf i) :
    (s.busWrite a size v).inByte i = byteAt (le32 v) k := by
  rw [State.busWrite_above hp ha, State.inByte_bytesWrite hr (by rwa [length_take_le32]) h, byteAt_take hk]

theorem State.inByte_busWrite_other (hp : s.rstN = true) (ha : reservedStart ≤ a)
    (h : ∀ k, k < size.bytes → placeOf s.params (a + k) ≠ .inBuf i) :
    (s.busWrite a size v).inByte i = s.inByte i := by
  rw [State.busWrite_above hp ha]
  exact State.inByte_bytesWrite_other fun k hk => h k (length_take_le32 v size ▸ hk)

/-- An aligned write that begins in the InBuf range stands there as far as InBuf reaches (R63, R66). -/
theorem State.inByte_busWrite_aligned (hp : s.rstN = true) (hr : s.running = false) (haligned : a % size.bytes = 0)
    (hin : inStart ≤ a) (hout : a < outStart) (hk : k < size.bytes) (hcap : a - inStart + k < s.params.inCap) :
    (s.busWrite a size v).inByte (a - inStart + k) = byteAt (le32 v) k := by
  have hplace : placeOf s.params (a + k) = .inBuf (a - inStart + k) := by
    rw [placeOf_in (Nat.le_trans hin (Nat.le_add_right a k)) (Size.lt_of_aligned haligned (by decide) hout hk),
      Nat.sub_add_comm hin, if_pos hcap]
  exact State.inByte_busWrite hp hr (Nat.le_trans (by decide) hin) hk hplace

/-- The HOST then reads each byte of the value back, and 0 past the end of InBuf (R63, R67). -/
theorem State.byteRead_busWrite_aligned (hp : s.rstN = true) (hr : s.running = false)
    (haligned : a % size.bytes = 0) (hin : inStart ≤ a) (hout : a < outStart) (hk : k < size.bytes) :
    (s.busWrite a size v).byteRead (a + k) = if a - inStart + k < s.params.inCap then byteAt (le32 v) k else 0 := by
  rw [State.byteRead_in _ (Nat.le_trans hin (Nat.le_add_right a k)) (Size.lt_of_aligned haligned (by decide) hout hk),
    Nat.sub_add_comm hin, State.busWrite_params]
  exact if_ctx_congr Iff.rfl (State.inByte_busWrite_aligned hp hr haligned hin hout hk) fun _ => rfl

end write

/-- Settles O45: byte by byte, what an aligned write leaves in InBuf and elsewhere, and what a read then composes. -/
theorem inBufWritesThenReads : Obligations.InBufWritesThenReads := by
  refine ⟨fun s offset size v hp hr haligned hin hcap hout => ?_, fun s offset size haligned hin hout => ?_⟩
  all_goals have ha : reservedStart ≤ offset.toNat := Nat.le_trans (by decide) hin
  · refine ⟨_, State.busAccess_write_legal (accessFault_none_of_aligned ha haligned) v,
      fun k hk => State.inByte_busWrite_aligned hp hr haligned hin hout hk,
      fun i hi => State.inByte_busWrite_other hp ha fun k hk hplace => ?_, State.busWrite_frame hp hr ha size v,
      fun k hk => ?_, fun k hk => ?_⟩
    · have := placeOf_inBuf hplace
      omega
    · rw [State.memRead_byte _ ha size hk, ite_and]
      exact if_ctx_congr Iff.rfl (State.byteRead_busWrite_aligned hp hr haligned hin hout) fun _ => rfl
    · rw [State.memRead_one _ (Nat.le_trans ha (Nat.le_add_right _ k)),
        State.byteRead_busWrite_aligned hp hr haligned hin hout hk]
  · refine ⟨_, _, State.busAccess_read_legal (accessFault_none_of_aligned ha haligned), rfl, fun k hk => ?_⟩
    rw [s.memRead_byte ha size hk, ite_and]
    refine if_ctx_congr Iff.rfl (fun hw => ?_) fun _ => rfl
    rw [s.byteRead_in (Nat.le_trans hin (Nat.le_add_right _ k)) (Size.lt_of_aligned haligned (by decide) hout hw),
      Nat.sub_add_comm hin]

/-! ## What changes InBuf -/

theorem State.inByte_writeReg (s : State) (r : Reg) (v : Word) (i : Nat) : (s.writeReg r v).inByte i = s.inByte i := by
  have busy {t : State} (h : t.inByte i = s.inByte i) : (if s.running then s.noteWbusy else t).inByte i = s.inByte i := by
    split
    · rfl
    · exact h
  cases r with
  | ctrl =>
    show (if v.getLsbD 1 then s.softReset else { s with ie := v.getLsbD 0 }).inByte i = s.inByte i
    split <;> rfl
  | cmd | inLen | lzWindow | lzMinMatch | lzMaxMatch | lzHashLimit => exact busy rfl
  | status | maxver | outLen | result | frhdr | frlen | frcrc | calccrc | incap | outcap => rfl

/-- A HOST write that changes byte `i` of InBuf is made while BUSY = 0, and one of its bytes stands there (R68, R70). -/
theorem State.busWrite_changes_inByte {s : State} {a i : Nat} {size : Size} {v : Word}
    (h : (s.busWrite a size v).inByte i ≠ s.inByte i) :
    s.running = false ∧ ∃ k, k < size.bytes ∧ placeOf s.params (a + k) = .inBuf i ∧
      (s.busWrite a size v).inByte i = byteAt (le32 v) k := by
  rcases s.busWrite_cases a size v with heq | ⟨-, r, -, -, heq⟩ | ⟨hp, ha, heq⟩
  · exact absurd (by rw [heq]) h
  · exact absurd (by rw [heq, State.inByte_writeReg]) h
  · have reaches : ∃ k, k < size.bytes ∧ placeOf s.params (a + k) = .inBuf i := by
      by_contra hnone
      exact h (State.inByte_busWrite_other hp ha fun k hk hplace => hnone ⟨k, hk, hplace⟩)
    have hr : s.running = false := by
      rcases s.bytesWrite_cases a ((le32 v).take size.bytes) with hsame | ⟨-, hnoted⟩ | ⟨hr, -⟩
      · exact absurd (by rw [heq, hsame]) h
      · exact absurd (by rw [heq, hnoted]; rfl) h
      · exact hr
    obtain ⟨k, hk, hplace⟩ := reaches
    exact ⟨hr, k, hk, hplace, State.inByte_busWrite hp hr ha hk hplace⟩

theorem EngineEffect.inByte {s t : State} (e : EngineEffect s (.next t)) (i : Nat) : t.inByte i = s.inByte i := by
  cases e <;> rfl

/-- Settles O58: of all a turn can do, only a HOST write and `rst_n` driven low change a byte of InBuf. -/
theorem inBufChangesOnlyByHostWrites : Obligations.InBufChangesOnlyByHostWrites := by
  intro s t i hstep hne
  obtain ⟨turn, s', hturn, he⟩ := step_effect s
  obtain ⟨turns, hs'⟩ := s.takeTurn_state
  rw [hturn] at hs'
  subst hs'
  rw [hstep] at he
  rcases he with ⟨rfl, e⟩ | e
  · refine ⟨_, hturn, ?_⟩
    cases e with
    | reads => exact absurd rfl hne
    | writes hhost =>
      obtain ⟨hr, k, hk, hplace, hbyte⟩ := State.busWrite_changes_inByte hne
      exact .inl ⟨hr, _, _, _, _, k, hhost, hk, hplace, hbyte⟩
    | @drives level rest hhost =>
      cases level with
      | true => exact absurd rfl hne
      | false => exact .inr ⟨rest, hhost⟩
  · exact absurd (e.inByte i) hne

/-! ## copyout -/

/-- A step that succeeds comes off the count of a run. -/
theorem run_succ {s t : State} (h : step s = .next t) (m : Nat) :
    Host.Core.run core (m + 1) s = Host.Core.run core m t := by
  have hcore : core.step s = .next t := h
  simp [Host.Core.run, hcore]

/-- With nothing running and no turn given, the HOST moves (log 1). -/
theorem step_idle {s : State} (hr : s.running = false) (hturns : s.turns = []) : step s = s.hostTurn := by
  have hturn : s.takeTurn = (.host, s) := by simp [State.takeTurn, hturns, hr]
  rw [step, hturn]

/-- The lowest byte of a byte on the data bus (R62, R63). -/
theorem take_le32_byte (b : Byte) : (le32 (b.setWidth 32)).take Size.one.bytes = [b] := by
  have h := byteAt_le32_composeLe [b] (k := 0) (by decide)
  simpa [le32, Size.bytes, byteAt, composeLe] using h

/-- The HOST's accesses follow one another, and both buffers have the bytes 0 to `n - 1`, inside their ranges of the
window (R61, R72). -/
structure State.CanCopy (s : State) (n : Nat) : Prop where
  pin : s.rstN = true
  idle : s.running = false
  turns : s.turns = []
  in_fits : n ≤ s.params.inCap
  out_fits : n ≤ s.params.outCap
  in_range : n ≤ 0x100000

section copy
variable {s : State} {k n : Nat} {rest : List HostOp}

/-- `sb k, b` while BUSY = 0 (R68, R111). -/
theorem State.CanCopy.step_sbOp (h : s.CanCopy n) (hk : k < n) {b : Byte} (hhost : s.host = .bus (sbOp k b) :: rest) :
    step s = .next { s.writeInByte k b with host := rest } := by
  obtain ⟨hp, hr, hturns, hin, -, hrange⟩ := h
  have hoffset : (BitVec.ofNat 22 (inStart + k)).toNat = inStart + k := by
    rw [BitVec.toNat_ofNat, Nat.mod_eq_of_lt]
    unfold inStart
    omega
  have ha : reservedStart ≤ inStart + k := Nat.le_trans (by decide) (Nat.le_add_right _ _)
  have hlegal : accessFault s.params (BitVec.ofNat 22 (inStart + k)).toNat .one = none := by
    rw [hoffset]
    exact accessFault_none_of_aligned ha (Nat.mod_one _)
  have hplace : placeOf s.params (inStart + k) = .inBuf k := by
    rw [placeOf_in (Nat.le_add_right _ _) (by unfold inStart outStart; omega), Nat.add_sub_cancel_left,
      if_pos (Nat.lt_of_lt_of_le hk hin)]
  rw [step_idle hr hturns, State.hostTurn, hhost]
  dsimp only
  rw [sbOp, State.busAccess_write_legal (s := { s with host := rest }) hlegal, hoffset,
    State.busWrite_above (s := { s with host := rest }) hp ha, take_le32_byte, State.bytesWrite,
    State.byteWrite_in (s := { s with host := rest }) hr hplace]
  rfl

/-- One byte of `copyout` reads OutBuf, and has the byte stored in InBuf next (R112). -/
theorem State.CanCopy.step_copyFrom (h : s.CanCopy n) (hk : k < n) (hhost : s.host = .copyFrom k n :: rest) :
    ∃ w, step s = .next { s with
      rdata := some w, host := .bus (sbOp k (s.outByte k)) :: (copyNext (k + 1) n ++ rest) } := by
  obtain ⟨-, hr, hturns, -, hout, hrange⟩ := h
  have hbyte : s.byteRead (outStart + k) = s.outByte k := by
    rw [State.byteRead_out _ (Nat.le_add_right _ _) (by unfold outStart highStart; omega), Nat.add_sub_cancel_left,
      if_pos (Nat.lt_of_lt_of_le hk hout), if_neg (by simp [hr])]
  refine ⟨s.memRead (outStart + k) .one, ?_⟩
  rw [step_idle hr hturns, State.hostTurn, hhost]
  simp only [State.busRead_idle hr, hbyte]

/-- `copyout` ends with the write of IN_LEN (R112). -/
theorem State.CanCopy.step_wrOp (h : s.CanCopy n) {v : Word} (hhost : s.host = .bus (wrOp .inLen v) :: rest) :
    step s = .next { s with inLen := v, host := rest } := by
  obtain ⟨hp, hr, hturns, -, -, -⟩ := h
  have hidle (w t : State) : (if s.running then w else t) = t := if_neg (by simp [hr])
  rw [step_idle hr hturns, State.hostTurn, hhost]
  dsimp only
  rw [State.busAccess_wrOp (s := { s with host := rest }) hp]
  exact congrArg _ (hidle _ _)

/-- From byte `k` on, `copyout` takes two steps a byte and one for IN_LEN; it stores the rest of OutBuf's `n` bytes. -/
theorem State.CanCopy.run_copy (h : s.CanCopy n) {m : Nat} (hm : k + m = n) (hhost : s.host = copyNext k n ++ rest) :
    ∃ t, Host.Core.run core (2 * m + 1) s = .next t ∧ t.host = rest ∧ t.inLen = BitVec.ofNat 32 n ∧
      ∀ i, t.inByte i = if k ≤ i ∧ i < n then s.outByte i else s.inByte i := by
  induction m generalizing s k with
  | zero =>
    rw [copyNext, if_neg (by omega)] at hhost
    refine ⟨_, run_succ (h.step_wrOp hhost) 0, rfl, rfl, fun i => ?_⟩
    rw [if_neg (by omega)]
    rfl
  | succ m ih =>
    have hk : k < n := by omega
    rw [copyNext, if_pos hk] at hhost
    obtain ⟨w, hread⟩ := h.step_copyFrom hk hhost
    have hnext : ({ s with rdata := some w, host := .bus (sbOp k (s.outByte k)) :: (copyNext (k + 1) n ++ rest) } :
        State).CanCopy n := { h with }
    have hstore := hnext.step_sbOp hk rfl
    obtain ⟨t, hrun, hthost, htlen, hbytes⟩ := ih (k := k + 1) (s := { s.writeInByte k (s.outByte k) with
      rdata := some w, host := copyNext (k + 1) n ++ rest }) { h with } (by omega) rfl
    refine ⟨t, ((run_succ hread (2 * m + 2)).trans (run_succ hstore (2 * m + 1))).trans hrun, hthost, htlen, fun i => ?_⟩
    have hstored : (s.writeInByte k (s.outByte k)).inByte i = if i = k then s.outByte k else s.inByte i :=
      s.inByte_writeInByte k i _
    refine (hbytes i).trans ?_
    show (if k + 1 ≤ i ∧ i < n then s.outByte i else (s.writeInByte k (s.outByte k)).inByte i) = _
    rw [hstored]
    rcases Nat.lt_trichotomy i k with hlt | rfl | hgt
    · rw [if_neg (by omega), if_neg (by omega), if_neg (by omega)]
    · rw [if_neg (by omega), if_pos rfl, if_pos ⟨le_rfl, hk⟩]
    · rw [if_neg (Nat.ne_of_gt hgt)]
      exact if_congr (by omega) rfl rfl

end copy

/-- Settles O56: one step reads OUT_LEN, and the rest is the copy from byte 0 on. -/
theorem copyoutMovesTheOutput : Obligations.CopyoutMovesTheOutput := by
  intro s hparams hp hr hturns hhost hin hout
  obtain ⟨-, -, hcap, -⟩ := hparams
  have hread : step s = .next { s with
      rdata := some (s.memRead Reg.outLen.offset .four), host := copyNext 0 s.outLen.toNat ++ [] } := by
    rw [step_idle hr hturns, State.hostTurn, hhost]
    simp only [State.busRead_idle hr]
  have hcopy : ({ s with rdata := some (s.memRead Reg.outLen.offset .four), host := copyNext 0 s.outLen.toNat ++ [] } :
      State).CanCopy s.outLen.toNat := ⟨hp, hr, hturns, hin, hout, Nat.le_trans hin hcap⟩
  obtain ⟨t, hrun, hthost, htlen, hbytes⟩ := hcopy.run_copy (Nat.zero_add _) rfl
  refine ⟨t, (run_succ hread _).trans hrun, hthost, htlen.trans (by simp), fun k hk => ?_, fun k hk => ?_⟩
  · exact (hbytes k).trans (if_pos ⟨Nat.zero_le k, hk⟩)
  · exact (hbytes k).trans (if_neg fun hlt => Nat.not_lt.mpr hk hlt.2)

end Sys2Proof.Machine

/-! ## The fields of a command word -/

namespace Sys2Proof

/-- A word is its three fields side by side (R90). -/
theorem commandWord_fields (w : Word) : commandWord (opcodeField w) (codecField w) (rsvdField w) = w := by
  refine BitVec.eq_of_getLsbD_eq fun i hi => ?_
  simp only [commandWord, opcodeField, codecField, rsvdField, BitVec.getLsbD_or, BitVec.getLsbD_shiftLeft,
    BitVec.getLsbD_setWidth, BitVec.getLsbD_extractLsb']
  rcases (by omega : i < 8 ∨ 8 ≤ i ∧ i < 16 ∨ 16 ≤ i) with h | ⟨h1, h2⟩ | h
  · simp [h, hi, show i < 16 by omega]
  · simp [hi, h2, show ¬ i < 8 by omega, show i - 8 < 8 by omega, show i - 8 < 32 by omega,
      show 8 + (i - 8) = i by omega]
  · simp [hi, show ¬ i < 8 by omega, show ¬ i < 16 by omega, show ¬ i - 8 < 8 by omega, show i - 16 < 16 by omega,
      show i - 16 < 32 by omega, show 16 + (i - 16) = i by omega]

theorem word_eq_iff {w v : Word} :
    w = v ↔ opcodeField w = opcodeField v ∧ codecField w = codecField v ∧ rsvdField w = rsvdField v := by
  refine ⟨fun h => h ▸ ⟨rfl, rfl, rfl⟩, fun ⟨ho, hc, hr⟩ => ?_⟩
  rw [← commandWord_fields w, ho, hc, hr, commandWord_fields]

/-- The mask of the `frame.fmt` row hides the CODEC field and no other (R93). -/
theorem mask_format_iff {w : Word} : w &&& 0xFFFF00FF = 0x30 ↔ opcodeField w = 0x30 ∧ rsvdField w = 0 := by
  have hopcode : opcodeField (w &&& 0xFFFF00FF) = opcodeField w :=
    BitVec.extractLsb'_and.trans BitVec.and_allOnes
  have hcodec : codecField (w &&& 0xFFFF00FF) = 0 := BitVec.extractLsb'_and.trans BitVec.and_zero
  have hrsvd : rsvdField (w &&& 0xFFFF00FF) = rsvdField w := BitVec.extractLsb'_and.trans BitVec.and_allOnes
  rw [word_eq_iff, hopcode, hcodec, hrsvd]
  exact ⟨fun ⟨ho, _, hr⟩ => ⟨ho, hr⟩, fun ⟨ho, hr⟩ => ⟨ho, rfl, hr⟩⟩

/-! ## Legal and illegal words -/

/-- Above its low byte an opcode word is 0. -/
theorem extractLsb'_setWidth_of_le (o : Byte) {start : Nat} (h : 8 ≤ start) (len : Nat) :
    (o.setWidth 32).extractLsb' start len = 0 :=
  BitVec.eq_of_getLsbD_eq fun i _ => by simp [BitVec.getLsbD_of_ge o (start + i) (by omega)]

/-- The words without an operand, by their fields (R92). -/
theorem eq_setWidth_iff {w : Word} {o : Byte} :
    w = o.setWidth 32 ↔ opcodeField w = o ∧ codecField w = 0 ∧ rsvdField w = 0 := by
  have hopcode : opcodeField (o.setWidth 32) = o :=
    BitVec.eq_of_getLsbD_eq fun i hi => by simp [opcodeField, hi, show i < 32 by omega]
  have hcodec : codecField (o.setWidth 32) = 0 := extractLsb'_setWidth_of_le o (by decide) 8
  have hrsvd : rsvdField (o.setWidth 32) = 0 := extractLsb'_setWidth_of_le o (by decide) 16
  rw [word_eq_iff, hopcode, hcodec, hrsvd]

/-- R92 and R94: the legal words are those of the `frame.fmt` row, and the opcodes that take no operand. -/
theorem legalFields_iff {w : Word} :
    legalFields (opcodeField w) (codecField w) (rsvdField w) = true ↔
      w &&& 0xFFFF00FF = 0x30 ∨ ∃ o ∈ plainOpcodes, w = o.setWidth 32 := by
  simp only [mask_format_iff, eq_setWidth_iff, legalFields, Bool.and_eq_true, Bool.or_eq_true, beq_iff_eq,
    List.contains_iff_mem]
  constructor
  · rintro ⟨hr, ho | ⟨hc, ho⟩⟩
    · exact .inl ⟨ho, hr⟩
    · exact .inr ⟨_, ho, rfl, hc, hr⟩
  · rintro (⟨ho, hr⟩ | ⟨_, ho, rfl, hc, hr⟩)
    · exact ⟨hr, .inl ho⟩
    · exact ⟨hr, .inr ⟨hc, ho⟩⟩

/-- A word of the `frame.fmt` row is none of the rows before it (R93, R97). -/
theorem decodeWord_of_format {w : Word} (h : w &&& 0xFFFF00FF = 0x30) : decodeWord w = .frameFmt (codecField w) := by
  have hne (v : Word) (hv : v &&& 0xFFFF00FF ≠ 0x30) : w ≠ v := fun heq => hv (heq ▸ h)
  rw [decodeWord_eq, if_neg (hne _ (by decide)), if_neg (hne _ (by decide)), if_neg (hne _ (by decide)),
    if_neg (hne _ (by decide)), if_neg (hne _ (by decide)), if_neg (hne _ (by decide)), if_pos h]

/-- A legal word decodes to a command, and encodes back to the word. -/
theorem decodeWord_of_legal {w : Word} (h : legalFields (opcodeField w) (codecField w) (rsvdField w) = true) :
    Machine.isCommand (decodeWord w) = true ∧ encodeWord (decodeWord w) = some w := by
  rcases legalFields_iff.mp h with hformat | ⟨o, hplain, rfl⟩
  · obtain ⟨hopcode, hrsvd⟩ := mask_format_iff.mp hformat
    have hword : commandWord 0x30 (codecField w) 0 = w := hopcode ▸ hrsvd ▸ commandWord_fields w
    rw [decodeWord_of_format hformat]
    exact ⟨rfl, congrArg some hword⟩
  · have each : ∀ o ∈ plainOpcodes, Machine.isCommand (decodeWord (o.setWidth 32)) = true ∧
        encodeWord (decodeWord (o.setWidth 32)) = some (o.setWidth 32) := by decide
    exact each o hplain

/-- R95: a word whose fields are not legal matches no row of a command. -/
theorem decodeWord_of_illegal {w : Word} (h : legalFields (opcodeField w) (codecField w) (rsvdField w) = false) :
    decodeWord w = .illegal (opcodeField w) (codecField w) (rsvdField w) := by
  have hnone := mt legalFields_iff.mpr (Bool.eq_false_iff.mp h)
  simp only [not_or, not_exists, not_and] at hnone
  obtain ⟨hformat, hplain⟩ := hnone
  obtain ⟨h1, h2, h3, h4, h5, h6, h7⟩ : w ≠ 0x01 ∧ w ≠ 0x02 ∧ w ≠ 0x10 ∧ w ≠ 0x11 ∧ w ≠ 0x20 ∧ w ≠ 0x21 ∧ w ≠ 0x31 := by
    simpa [plainOpcodes] using hplain
  rw [decodeWord_eq, if_neg h1, if_neg h2, if_neg h3, if_neg h4, if_neg h5, if_neg h6, if_neg hformat, if_neg h7]
  rfl

/-- Settles O2: the fields are legal or they are not. -/
theorem everyWordIsLegalOrIllegal : Obligations.EveryWordIsLegalOrIllegal := by
  intro w
  cases h : legalFields (opcodeField w) (codecField w) (rsvdField w) with
  | true =>
    obtain ⟨hcommand, hencode⟩ := decodeWord_of_legal h
    exact .inl ⟨hcommand, hencode, rfl⟩
  | false => exact .inr ⟨decodeWord_of_illegal h, rfl⟩

/-- Settles O4: each word by evaluation of the table search. -/
theorem wordsOfTheTableDecode : Obligations.WordsOfTheTableDecode := by
  unfold Obligations.WordsOfTheTableDecode
  decide

/-- Settles O3: only a two-byte string is a unit, and the fields of a token are quotients and remainders of its code. -/
theorem firstByteTellsLiteralFromMatch : Obligations.FirstByteTellsLiteralFromMatch := by
  refine ⟨fun bs i h => ?_, fun g => rfl, fun f g hf => ⟨tokenLen f, tokenDist f g, ?_, ?_, ?_⟩⟩
  · match bs with
    | [] | [_] | _ :: _ :: _ :: _ => exact nomatch h
    | [_, _] => rfl
  · rw [decodeBytes, decodeLzss, if_neg hf]
  · have hg := g.isLt
    rw [tokenLen_toNat]
    omega
  · have hg := g.isLt
    rw [tokenDist_toNat]
    omega

end Sys2Proof

/-! ## Completions without work: an illegal word, an unknown codec -/

namespace Sys2Proof.Machine

/-- A field out of R92's and R94's ranges makes the word illegal. -/
theorem legalFields_false {opcode codec : Byte} {rsvd : BitVec 16}
    (h : rsvd ≠ 0 ∨ (codec ≠ 0 ∧ opcode ≠ 0x30) ∨ opcode ∉ [0x01, 0x02, 0x10, 0x11, 0x20, 0x21, 0x30, 0x31]) :
    legalFields opcode codec rsvd = false := by
  refine Bool.eq_false_iff.mpr fun hlegal => ?_
  simp only [legalFields, Bool.and_eq_true, Bool.or_eq_true, beq_iff_eq, List.contains_iff_mem] at hlegal
  obtain ⟨hr, hop⟩ := hlegal
  have hlisted : opcode ∈ [0x01, 0x02, 0x10, 0x11, 0x20, 0x21, 0x30, 0x31] := by
    rcases hop with rfl | ⟨-, ho⟩
    · decide
    · exact (by decide : plainOpcodes ⊆ [0x01, 0x02, 0x10, 0x11, 0x20, 0x21, 0x30, 0x31]) ho
  rcases h with hrsvd | ⟨hcodec, hopcode⟩ | hopcode
  · exact hrsvd hr
  · exact hop.elim hopcode fun ⟨hc, _⟩ => hcodec hc
  · exact hopcode hlisted

/-- Settles O14: the word decodes to the illegal instruction, which completes at once; acceptance has cleared the registers. -/
theorem illegalWordsCompleteWithIllegalCommand : Obligations.IllegalWordsCompleteWithIllegalCommand := by
  intro s w h
  rw [decodeWord_of_illegal (legalFields_false h)]
  exact ⟨_, rfl, (s.accept w).raise_completes .illegalCommand, rfl, rfl, rfl, rfl, rfl, rfl, rfl⟩

/-- Only 0, 1 and 2 are codec ids with an encoder (R107, R210). -/
theorem codecStop_some {codec : Byte} (h : 3 ≤ codec.toNat) : codecStop codec = some .unknownCodec := by
  have hunknown : knownCodec codec = false := by
    refine Bool.eq_false_iff.mpr fun hknown => ?_
    simp only [knownCodec, Bool.or_eq_true, beq_iff_eq] at hknown
    rcases hknown with (rfl | rfl) | rfl
    all_goals exact absurd h (by decide)
  simp [codecStop, hunknown]

/-- Settles O19: the checks before the codec's find nothing (R210). -/
theorem unknownCodecIsReported : Obligations.UnknownCodecIsReported := by
  intro s codec hrange hinput hcodec
  have hstop : s.formatStop codec = some .unknownCodec := by
    simp [State.formatStop, State.rangeStop_none hrange, State.emptyStop_none hinput, codecStop_some hcodec]
  have hexec : exec (.frameFmt codec) s = .next (s.raise .unknownCodec) := by
    simp [exec, execFrameFmt, hstop]
  exact ⟨_, hexec, s.raise_completes _⟩

end Sys2Proof.Machine

/-! ## Data units -/

namespace Sys2Proof.Machine

theorem byteAt_append_left {a : List Byte} {i : Nat} (h : i < a.length) (b : List Byte) :
    byteAt (a ++ b) i = byteAt a i :=
  List.getD_append _ _ _ _ h

theorem byteAt_append_add (a b : List Byte) (k : Nat) : byteAt (a ++ b) (a.length + k) = byteAt b k := by
  rw [byteAt, List.getD_append_right _ _ _ _ (Nat.le_add_right _ _), Nat.add_sub_cancel_left]
  rfl

/-- Each byte copied is the one `d` before its own place, which the copy itself may have written (R183). -/
theorem byteAt_copyBack {d n k : Nat} {out : List Byte} (hd : 0 < d) (hle : d ≤ out.length) (hk : k < n) :
    byteAt (copyBack d n out) (out.length + k) = byteAt (copyBack d n out) (out.length + k - d) := by
  induction n generalizing out k with
  | zero => omega
  | succ n ih =>
    rw [copyBack]
    cases k with
    | zero =>
      obtain ⟨more, hmore⟩ := copyBack_prefix d n (out ++ [byteAt out (out.length - d)])
      rw [hmore, List.append_assoc, byteAt_append_add, Nat.add_zero, byteAt_append_left (a := out) (by omega)]
      rfl
    | succ k =>
      have hnext := ih (out := out ++ [byteAt out (out.length - d)]) (k := k)
        (Nat.le_trans hle (by simp)) (Nat.lt_of_succ_lt_succ hk)
      rwa [List.length_append, List.length_singleton, Nat.add_assoc, Nat.add_comm 1 k] at hnext

section dataUnit
variable {s : State} {pos : Nat} {out : List Byte} {flags : SoftFlags} (hw : s.work = .decoding pos out flags)
include hw

theorem State.decoded_of_decoding (out' : List Byte) (more : SoftFlags) :
    s.decoded out' more = { s with work := .decoding (pos + 2) out' (flags.union more) } := by
  rw [State.decoded, State.decodeWork_of_decoding hw]

theorem State.exec_rlePair (count value : Byte) : exec (.rlePair count value) s =
    .next { s with work := .decoding (pos + 2) (out ++ List.replicate count.toNat value) flags } := by
  show Host.Outcome.next (s.decoded (rleUnit (s.decodeWork 0).2.1 count value) SoftFlags.none) = _
  rw [State.decodeWork_of_decoding hw, State.decoded_of_decoding hw, SoftFlags.union_none]
  rfl

theorem State.exec_lzssLiteral (b : Byte) : exec (.lzssLiteral b) s =
    .next { s with work := .decoding (pos + 2) (out ++ [b]) flags } := by
  show Host.Outcome.next (s.decoded ((s.decodeWork 0).2.1 ++ [b]) SoftFlags.none) = _
  rw [State.decodeWork_of_decoding hw, State.decoded_of_decoding hw, SoftFlags.union_none]

theorem State.exec_lzssMatch_within {len : BitVec 4} {dist : BitVec 12} (h : dist.toNat + 1 ≤ out.length) :
    exec (.lzssMatch len dist) s = .next { s with
      work := .decoding (pos + 2) (copyBack (dist.toNat + 1) (len.toNat + s.minMatch) out) flags } := by
  have hunit : matchUnit s.minMatch out len dist = some (copyBack (dist.toNat + 1) (len.toNat + s.minMatch) out) :=
    if_neg (Nat.not_lt.mpr h)
  show execLzssMatch len dist s = _
  simp only [execLzssMatch, State.decodeWork_of_decoding hw, hunit, State.decoded_of_decoding hw, SoftFlags.union_none]

theorem State.exec_lzssMatch_before {len : BitVec 4} {dist : BitVec 12} (h : out.length < dist.toNat + 1) :
    exec (.lzssMatch len dist) s =
      .next { s with work := .decoding (pos + 2) out { flags with badref := true } } := by
  have hunit : matchUnit s.minMatch out len dist = none := if_pos h
  show execLzssMatch len dist s = _
  simp only [execLzssMatch, State.decodeWork_of_decoding hw, hunit, State.decoded_of_decoding hw]
  simp [SoftFlags.union, SoftFlags.badReference]

end dataUnit

/-- Settles O15: each unit by its own lemma; what a match appends is what the copy added to the output. -/
theorem dataUnitsExtendTheDecodedOutput : Obligations.DataUnitsExtendTheDecodedOutput := by
  intro s pos out flags hw
  refine ⟨State.exec_rlePair hw, State.exec_lzssLiteral hw, fun len dist h => ?_,
    fun len dist h => State.exec_lzssMatch_before hw h⟩
  obtain ⟨copied, hcopied⟩ := copyBack_prefix (dist.toNat + 1) (len.toNat + s.minMatch) out
  have hlen : copied.length = len.toNat + s.minMatch := by
    have hlength := copyBack_length (dist.toNat + 1) (len.toNat + s.minMatch) out
    rw [hcopied, List.length_append] at hlength
    omega
  refine ⟨copied, hcopied ▸ State.exec_lzssMatch_within hw h, hlen, fun k hk => ?_⟩
  rw [← byteAt_append_add out copied k, ← hcopied]
  exact byteAt_copyBack (Nat.succ_pos _) h (hlen ▸ hk)

end Sys2Proof.Machine

/-! ## HOST program statements -/

namespace Sys2Proof.Machine

theorem ofNat_of_toNat {n m : Nat} {a : BitVec m} (h : a.toNat = n) : BitVec.ofNat m n = a := by
  rw [← h, BitVec.ofNat_toNat, BitVec.setWidth_eq]

/-- The stores of `load` from byte `k` on are the `sb` of each byte (R112). -/
theorem loadOps_eq (k : Nat) (bytes : List Byte) :
    loadOps k bytes = (List.range bytes.length).flatMap fun j => HostStmt.expand (.sb (k + j) (byteAt bytes j)) := by
  induction bytes generalizing k with
  | nil => rfl
  | cons b bs ih =>
    rw [loadOps, ih, List.length_cons, List.range_succ_eq_map, List.flatMap_cons, List.flatMap_map]
    simp [HostStmt.expand, byteAt, Nat.add_assoc, Nat.add_comm 1]

/-- A read of a register reaches no byte of OutBuf, so it makes no draw (R71). -/
theorem State.busRead_offset (s : State) (r : Reg) :
    s.busRead r.offset .four = { s with rdata := some (s.readReg r) } := by
  have hplace : ∀ k, k < Size.four.bytes → placeOf s.params (r.offset + k) = .register := fun k hk =>
    placeOf_register_iff.mpr (Size.lt_of_aligned (size := .four) r.offset_aligned (by decide) r.offset_lt hk)
  have hdraws : s.readDraws r.offset .four = 0 := by
    rw [State.readDraws, if_neg]
    simp only [Bool.and_eq_true, List.any_eq_true, List.mem_range, not_and, not_exists]
    intro _ k hk
    rw [hplace k hk]
    decide
  rw [State.busRead, hdraws, State.memRead_offset]
  rfl

/-- One HOST turn of `wait` (R112). -/
theorem State.hostTurn_poll {s : State} {rest : List HostOp} (h : s.host = .poll :: rest) :
    s.hostTurn = .next { s with rdata := some s.status, host := if s.running then s.host else rest } := by
  simp only [State.hostTurn, h, State.busRead_offset]
  rfl

/-- Settles O50: the statements by unfolding, `load` store by store, and the turn of `wait`. -/
theorem hostStatementsAreBusAccesses : Obligations.HostStatementsAreBusAccesses := by
  have hformat (codec : Byte) : commandWord 0x30 codec 0 = 0x00000030 ||| (codec.setWidth 32 <<< 8) := by
    simp [commandWord]
  refine ⟨fun r a v ha => ?_, fun off a ha => ?_, fun off a ha => ?_, rfl, rfl, rfl, rfl, rfl, rfl, fun codec => ?_,
    rfl, rfl, fun bytes => ?_, rfl, rfl, rfl, rfl, rfl, rfl, rfl, fun stmt program => ?_, fun s rest => State.hostTurn_poll⟩
  · simp only [HostStmt.expand, wrOp, rdOp, ofNat_of_toNat ha, and_self]
  · simp [HostStmt.expand, sbOp, swOp, inStart, ofNat_of_toNat ha]
  · simp [HostStmt.expand, lbOp, lwOp, outStart, ofNat_of_toNat ha]
  · simp only [HostStmt.expand, encodeWord, hformat]
    rfl
  · rw [HostStmt.expand, loadOps_eq]
    simp only [Nat.zero_add]
    rfl
  · exact List.flatMap_cons

end Sys2Proof.Machine

/-! ## A step runs what is decoded -/

namespace Sys2Proof.Machine

/-- A command word as the bus moves it decodes as the word (R62, R90). -/
theorem decodeBytes_le32 (w : Word) : decodeBytes .command (le32 w) = .ok (decodeWord w) :=
  congrArg (fun v => Except.ok (decodeWord v)) (composeLe_le32 w)

section step
variable {s : State} {rest : List Turn}

theorem step_host (h : s.turns = .host :: rest) : step s = ({ s with turns := rest } : State).hostTurn := by
  simp [step, State.takeTurn, h]

theorem step_engine (h : s.turns = .engine :: rest) : step s = ({ s with turns := rest } : State).engineTurn := by
  simp [step, State.takeTurn, h]

theorem step_engineUnit (h : s.turns = .engineUnit :: rest) : step s = ({ s with turns := rest } : State).unitTurn := by
  simp [step, State.takeTurn, h]

/-- Where nothing says whose turn it is, a running command's has come (log 1). -/
theorem step_busy (hr : s.running = true) (h : s.turns = []) : step s = s.engineTurn := by
  simp [step, State.takeTurn, h, hr]

end step

theorem State.engineTurn_of_latched {s : State} {l : Latched} {i : Instr} (hr : s.running = true)
    (hl : s.latched = some l) (hi : decodeBytes .command (le32 l.word) = .ok i) : s.engineTurn = exec i s := by
  have hcurrent : s.currentInstr = i := by
    rw [State.currentInstr, State.operands_of_latched hl]
    exact Except.ok.inj ((decodeBytes_le32 l.word).symm.trans hi)
  rw [State.engineTurn, if_pos hr, hcurrent]

theorem State.unitTurn_of_stream {s : State} {ctx : Context} {start pos : Nat} {out : List Byte} {flags : SoftFlags}
    {i : Instr} (hr : s.running = true) (hc : s.codedStream = some (ctx, start))
    (hw : s.work = .decoding pos out flags) (hb : flags.badref = false)
    (hi : decodeBytes ctx ((s.input.drop pos).take 2) = .ok i) : s.unitTurn = exec i s := by
  have hunit : s.nextUnit = some i := by
    simp [State.nextUnit, hc, hw, hb, hi, Except.toOption]
  rw [State.unitTurn, if_pos hr, hunit]

theorem State.hostTurn_bus {s : State} {op : BusOp} {rest : List HostOp} (h : s.host = .bus op :: rest) :
    s.hostTurn = ({ s with host := rest } : State).busAccess op := by
  rw [State.hostTurn, h]

/-- Settles O53: whose turn it is, then what that turn does. -/
theorem stepRunsTheDecodedInstruction : Obligations.StepRunsTheDecodedInstruction := by
  refine ⟨fun s l i hr hl hi => ⟨fun rest hturns => ?_, fun hturns => ?_⟩,
    fun s rest ctx start pos out flags i hr hturns hc hw hb hi => ?_,
    fun s op rest hhost => ⟨fun turns hturns => ?_, fun hr hturns => ?_⟩, fun s hr hturns hhost => ?_⟩
  · exact (step_engine hturns).trans (State.engineTurn_of_latched hr hl hi)
  · exact (step_busy hr hturns).trans (State.engineTurn_of_latched hr hl hi)
  · exact (step_engineUnit hturns).trans (State.unitTurn_of_stream hr hc hw hb hi)
  · exact (step_host hturns).trans (State.hostTurn_bus hhost)
  · exact (step_idle hr hturns).trans (State.hostTurn_bus hhost)
  · rw [step_idle hr hturns, State.hostTurn, hhost]

end Sys2Proof.Machine

/-! ## The hashes -/

namespace Sys2Proof.Machine

/-! ### A hash command from its beginning -/

theorem State.hashWork_of_fresh {s : State} (h : s.work = .fresh) (init : Word) : s.hashWork init = (0, init) := by
  rw [State.hashWork, h]

/-- With no iteration done before it, the completion delivers the CRC-32 of all of IN (R133). -/
theorem State.exec_crc32_of_fresh {s : State} (hw : s.work = .fresh) (hs : s.hashStop = none) :
    exec .crc32 s = .next (s.finish .ok [] SoftFlags.none { result := some (crc32 s.input) }) := by
  show execCrc32 s = _
  rw [execCrc32, hs, State.hashWork_of_fresh hw]
  rfl

/-- With no iteration done before it, the completion delivers the FNV-1a hash of all of IN (R135). -/
theorem State.exec_fnv32_of_fresh {s : State} (hw : s.work = .fresh) (hs : s.hashStop = none) :
    exec .fnv32 s = .next (s.finish .ok [] SoftFlags.none { result := some (fnv32 s.input) }) := by
  show execFnv32 s = _
  rw [execFnv32, hs, State.hashWork_of_fresh hw]
  rfl

/-! ### The hash functions as folds -/

/-- Taking the low byte of a word masks it already, so the mask of R131 can go. -/
theorem setWidth_and32_mask (x : Word) : (and32 x 0xFF).setWidth 8 = x.setWidth 8 := by
  show (x &&& 0xFF).setWidth 8 = _
  rw [BitVec.setWidth_and]
  exact BitVec.and_allOnes

theorem crcStep_eq (c : Word) (b : Byte) :
    crcStep c b = crcTable ((c ^^^ b.setWidth 32).setWidth 8) ^^^ (c >>> 8) := by
  rw [crcStep, setWidth_and32_mask]
  rfl

theorem crc32_eq_foldl (l : List Byte) :
    crc32 l = l.foldl (fun (c : Word) (b : Byte) => crcTable ((c ^^^ b.setWidth 32).setWidth 8) ^^^ (c >>> 8))
      (0xFFFFFFFF : Word) ^^^ 0xFFFFFFFF := by
  simp only [← crcStep_eq]
  rfl

theorem fnv32_eq_foldl (l : List Byte) :
    fnv32 l = l.foldl (fun (h : Word) (b : Byte) => (h ^^^ b.setWidth 32) * 0x01000193) (0x811C9DC5 : Word) :=
  rfl

/-- Settles O5: the range check finds nothing, the loop begins at byte 0, and its step is R131's without the mask. -/
theorem crc32CommandReturnsTheCrc : Obligations.Crc32CommandReturnsTheCrc := by
  intro s hw hrange
  rw [← crc32_eq_foldl]
  exact ⟨_, State.exec_crc32_of_fresh hw (State.rangeStop_none hrange), s.finish_completes _ _ _ _⟩

/-- Settles O7: the range check finds nothing, and the loop begins at byte 0. -/
theorem fnv32CommandReturnsTheHash : Obligations.Fnv32CommandReturnsTheHash := by
  intro s hw hrange
  rw [← fnv32_eq_foldl]
  exact ⟨_, State.exec_fnv32_of_fresh hw (State.rangeStop_none hrange), s.finish_completes _ _ _ _⟩

/-! ### The CRC table in bands of 32 entries -/

/-- The first `n` entries of `CRC_TABLE` (R130). -/
def crcEntries (n : Nat) : List Word := (List.range n).map fun i => crcTable (BitVec.ofNat 8 i)

/-- The 32 entries from index `start` on (R130): as many as one evaluation takes. -/
def crcBand (start : Nat) : List Word := (List.range 32).map fun j => crcTable (BitVec.ofNat 8 (start + j))

theorem crcEntries_add_band (n : Nat) : crcEntries (n + 32) = crcEntries n ++ crcBand n := by
  rw [crcEntries, List.range_add, List.map_append, List.map_map]
  rfl

theorem crcEntries_256 : crcEntries 256 =
    crcBand 0 ++ crcBand 32 ++ crcBand 64 ++ crcBand 96 ++ crcBand 128 ++ crcBand 160 ++ crcBand 192 ++ crcBand 224 := by
  have first : crcBand 0 = crcEntries 32 := (crcEntries_add_band 0).symm
  simp only [first, ← crcEntries_add_band, Nat.reduceAdd]

/-- Settles O6: the table is cut where the printed one is, and each band of 32 entries is evaluated. -/
theorem crcTableIsThePrintedTable : Obligations.CrcTableIsThePrintedTable := by
  refine crcEntries_256.trans ?_
  iterate 7 refine congrArg₂ (· ++ ·) ?_ ?_
  all_goals decide

end Sys2Proof.Machine

/-! ## The RLE codec -/

namespace Sys2Proof.Machine

/-! ### The encoder, run by run -/

@[simp] theorem rleEnc_nil : rleEnc [] = [] := rfl

/-- One pair takes at most 255 bytes of a run that ends after `n + 1` (R150). -/
theorem rleEnc_replicate_succ_append {b : Byte} {rest : List Byte} (h : rest.head? ≠ some b) (n : Nat) :
    rleEnc (List.replicate (n + 1) b ++ rest) =
      BitVec.ofNat 8 (min 254 n + 1) :: b :: rleEnc (List.replicate (n - 254) b ++ rest) := by
  have hdrop : (List.replicate n b ++ rest).drop (min 254 n) = List.replicate (n - 254) b ++ rest := by
    rw [List.drop_append_of_le_length (by simp), List.drop_replicate, show n - min 254 n = n - 254 by omega]
  rw [List.replicate_succ, List.cons_append, rleEnc_cons, runLength_replicate h, hdrop]

/-- The full pairs of a maximal run come first, then the pair of the remainder, if there is one. -/
theorem rleEnc_maximalRun {b : Byte} {rest : List Byte} (h : rest.head? ≠ some b) (full : Nat) {left : Nat}
    (hleft : left < 255) :
    rleEnc (List.replicate (255 * full + left) b ++ rest) =
      (List.replicate full [(255 : Byte), b]).flatten ++
        (if left = 0 then [] else [BitVec.ofNat 8 left, b]) ++ rleEnc rest := by
  induction full with
  | zero =>
    cases left with
    | zero => simp
    | succ left =>
      rw [Nat.mul_zero, Nat.zero_add, rleEnc_replicate_succ_append h, Nat.min_eq_right (by omega),
        Nat.sub_eq_zero_of_le (by omega)]
      simp
  | succ full ih =>
    rw [show 255 * (full + 1) + left = (255 * full + left + 254) + 1 by omega, rleEnc_replicate_succ_append h,
      Nat.min_eq_left (by omega), Nat.add_sub_cancel, ih]
    simp [List.replicate_succ]

/-- Settles O21: the run's length is 255 times its quotient plus its remainder. -/
theorem rleEncodesMaximalRuns : Obligations.RleEncodesMaximalRuns := by
  refine ⟨rleEnc_nil, fun b runLen rest _ hrest => ?_⟩
  rw [← rleEnc_maximalRun hrest (runLen / 255) (Nat.mod_lt runLen (by decide)), Nat.div_add_mod]

/-- A byte string is nothing, or the bytes of its encoding's first pair and a rest. -/
theorem rleEnc_induction {motive : List Byte → Prop} (nil : motive [])
    (pair : ∀ b n rest, n < 255 →
      rleEnc (List.replicate (n + 1) b ++ rest) = BitVec.ofNat 8 (n + 1) :: b :: rleEnc rest →
        motive rest → motive (List.replicate (n + 1) b ++ rest)) (s : List Byte) : motive s := by
  induction hlen : s.length using Nat.strong_induction_on generalizing s with
  | _ len ih =>
    subst hlen
    cases s with
    | nil => exact nil
    | cons b l =>
      have hsplit : b :: l = List.replicate (runLength b 254 l + 1) b ++ l.drop (runLength b 254 l) := by
        rw [List.replicate_succ, List.cons_append, ← runLength_split]
      rw [hsplit]
      refine pair b _ _ (Nat.lt_succ_of_le (runLength_le b 254 l).1) ?_ (ih _ ?_ _ rfl)
      · rw [← hsplit, rleEnc_cons]
      · simp only [List.length_drop, List.length_cons]
        omega

/-! ### The decoder, pair by pair -/

@[simp] theorem rleDec_nil : rleDec [] = ([], SoftFlags.none) := rfl

@[simp] theorem rleDec_singleton (b : Byte) : rleDec [b] = ([], SoftFlags.truncated) := rfl

/-- The output so far is only carried along. -/
theorem rleDecFrom_out (out s : List Byte) : rleDecFrom out s = (out ++ (rleDec s).1, (rleDec s).2) := by
  induction s using List.twoStepInduction generalizing out with
  | nil | singleton => simp [rleDecFrom]
  | cons_cons count value s ih _ =>
    show rleDecFrom (rleUnit out count value) s =
      (out ++ (rleDecFrom (rleUnit [] count value) s).1, (rleDecFrom (rleUnit [] count value) s).2)
    rw [ih, ih]
    simp [rleUnit]

/-- One pair, then the decoding of what is left (R151). -/
theorem rleDec_cons_cons (count value : Byte) (s : List Byte) :
    rleDec (count :: value :: s) = (List.replicate count.toNat value ++ (rleDec s).1, (rleDec s).2) :=
  rleDecFrom_out _ s

theorem rleDec_rleEnc (s : List Byte) : rleDec (rleEnc s) = (s, SoftFlags.none) := by
  induction s using rleEnc_induction with
  | nil => rfl
  | pair b n rest hn henc ih =>
    have hcount : (BitVec.ofNat 8 (n + 1)).toNat = n + 1 := by
      rw [BitVec.toNat_ofNat, Nat.mod_eq_of_lt (by omega)]
    rw [henc, rleDec_cons_cons, ih, hcount]

/-- TRUNC on an odd length, and no flag otherwise. -/
theorem rleDec_flags (s : List Byte) :
    (rleDec s).2 = if s.length % 2 = 1 then SoftFlags.truncated else SoftFlags.none := by
  induction s using List.twoStepInduction with
  | nil | singleton => rfl
  | cons_cons count value s ih _ =>
    rw [rleDec_cons_cons, ih, show (count :: value :: s).length % 2 = s.length % 2 from Nat.add_mod_right s.length 2]

/-- A count byte with no value byte gives no byte. -/
theorem rleDec_append_singleton (s : List Byte) (b : Byte) (h : s.length % 2 = 0) :
    (rleDec (s ++ [b])).1 = (rleDec s).1 := by
  induction s using List.twoStepInduction with
  | nil => rfl
  | singleton => cases h
  | cons_cons count value s ih _ =>
    have heven : s.length % 2 = 0 := (Nat.add_mod_right s.length 2).symm.trans h
    rw [List.cons_append, List.cons_append, rleDec_cons_cons, rleDec_cons_cons, ih heven]

/-- Settles O22: the round trip pair by pair of the encoding, the rest pair by pair of the string. -/
theorem rleDecoderInvertsAndReportsTruncation : Obligations.RleDecoderInvertsAndReportsTruncation := fun s =>
  ⟨rleDec_rleEnc s, fun count value => rleDec_cons_cons count value s, rleDec_flags s, rleDec_append_singleton s⟩

/-! ### The size bounds -/

theorem rleEnc_length_le (s : List Byte) : (rleEnc s).length ≤ 2 * s.length := by
  induction s using rleEnc_induction with
  | nil => simp
  | pair b n rest _ henc ih =>
    rw [henc]
    simp only [List.length_cons, List.length_append, List.length_replicate]
    omega

/-- With no two adjacent bytes equal, every byte is a run of its own. -/
theorem rleEnc_length_of_adjacent_ne {s : List Byte}
    (h : ∀ i, i + 1 < s.length → byteAt s i ≠ byteAt s (i + 1)) : (rleEnc s).length = 2 * s.length := by
  induction s with
  | nil => rfl
  | cons b l ih =>
    have hhead : l.head? ≠ some b := by
      cases l with
      | nil => simp
      | cons x xs => simpa [byteAt, eq_comm] using h 0 (by simp)
    have htail : ∀ i, i + 1 < l.length → byteAt l i ≠ byteAt l (i + 1) :=
      fun i hi => h (i + 1) (Nat.succ_lt_succ hi)
    have henc : rleEnc (b :: l) = 1 :: b :: rleEnc l := rleEnc_replicate_succ_append hhead 0
    rw [henc, List.length_cons, List.length_cons, ih htail, List.length_cons]
    omega

/-- A pair stands for at most 255 bytes, so there are as many pairs as it takes to cover the string. -/
theorem le_rleEnc_length (s : List Byte) : 2 * ((s.length + 254) / 255) ≤ (rleEnc s).length := by
  induction s using rleEnc_induction with
  | nil => simp
  | pair b n rest hn henc ih =>
    rw [henc]
    simp only [List.length_cons, List.length_append, List.length_replicate]
    omega

theorem rleDec_length_le (s : List Byte) : (rleDec s).1.length ≤ 255 * (s.length / 2) := by
  induction s using List.twoStepInduction with
  | nil | singleton => simp
  | cons_cons count value s ih _ =>
    have hcount := count.isLt
    simp only [rleDec_cons_cons, List.length_append, List.length_replicate, List.length_cons]
    omega

/-- Settles O23: the bounds on the encoding by its pairs or its bytes, the one on the decoding by the pairs read. -/
theorem rleSizeBounds : Obligations.RleSizeBounds := fun s =>
  ⟨rleEnc_length_le s, rleEnc_length_of_adjacent_ne, fun _ => le_rleEnc_length s, rleDec_length_le s⟩

/-! ### An RLE command from its beginning -/

theorem State.rleEncWork_of_fresh {s : State} (h : s.work = .fresh) : s.rleEncWork = (0, []) := by
  rw [State.rleEncWork, h]

theorem State.decodeWork_of_fresh {s : State} (h : s.work = .fresh) (start : Nat) :
    s.decodeWork start = (start, [], SoftFlags.none) := by
  rw [State.decodeWork, h]

/-- An IN in range and not empty passes the checks (R266). -/
theorem State.rleStop_none {s : State} (hrange : s.operands.inLen.toNat ≤ s.params.inCap) (hin : s.input ≠ []) :
    s.rleStop = none := by
  rw [State.rleStop, State.rangeStop_none hrange, State.emptyStop_none hin]
  rfl

/-- With no iteration done before it, the completion delivers the encoding of all of IN (R153). -/
theorem State.exec_rleEnc_of_fresh {s : State} (hw : s.work = .fresh) (hs : s.rleStop = none) :
    exec .rleEnc s = .next (s.deliver (rleEnc s.input) SoftFlags.none ResultRegs.none ResultRegs.none) := by
  show execRleEnc s = _
  rw [execRleEnc, hs, State.rleEncResult, State.rleEncWork_of_fresh hw]
  rfl

/-- With no unit read before it, the decoder's result is the decoding of all that follows its start. -/
theorem State.rleDecResult_of_fresh {s : State} (h : s.work = .fresh) (start : Nat) :
    s.rleDecResult start = rleDec (s.input.drop start) := by
  rw [State.rleDecResult, State.decodeWork_of_fresh h]
  simp only [SoftFlags.none_union]
  rfl

/-- With no unit read before it, the completion delivers the decoding of all of IN and its flags (R154). -/
theorem State.exec_rleDec_of_fresh {s : State} (hw : s.work = .fresh) (hs : s.rleStop = none) :
    exec .rleDec s =
      .next (s.deliver (rleDec s.input).1 (rleDec s.input).2 ResultRegs.none ResultRegs.none) := by
  show execRleDec s = _
  rw [execRleDec, hs, State.rleDecResult_of_fresh hw]
  rfl

theorem SoftFlags.any_eq_false_iff (f : SoftFlags) : f.any = false ↔ f = SoftFlags.none := by
  cases f
  simp [SoftFlags.any, SoftFlags.none, and_assoc]

/-- R263 by the flag set: OK with the empty one, PARTIAL with any other. -/
theorem codeOfFlags_eq (f : SoftFlags) : codeOfFlags f = if f = SoftFlags.none then .ok else .partialData := by
  simp only [codeOfFlags, ← SoftFlags.any_eq_false_iff]
  cases f.any <;> rfl

/-- Settles O8: the checks find nothing, and the encoding fits. -/
theorem rleEncodeCommandDelivers : Obligations.RleEncodeCommandDelivers := by
  intro s hw hrange hin hfits
  rw [State.exec_rleEnc_of_fresh hw (State.rleStop_none hrange hin), State.deliver_fits hfits, codeOfFlags_none]
  exact ⟨_, rfl, s.finish_completes _ _ _ _⟩

/-- Settles O9: the checks find nothing, the decoding fits, and its flags give the code. -/
theorem rleDecodeCommandDelivers : Obligations.RleDecodeCommandDelivers := by
  intro s hw hrange hin hfits
  rw [State.exec_rleDec_of_fresh hw (State.rleStop_none hrange hin), State.deliver_fits hfits, ← codeOfFlags_eq]
  exact ⟨_, rfl, s.finish_completes _ _ _ _⟩

end Sys2Proof.Machine

/-! ## The LZSS codec -/

namespace Sys2Proof.Machine

theorem byteAt_drop (s : List Byte) (c i : Nat) : byteAt (s.drop c) i = byteAt s (c + i) := by
  simp [byteAt]

theorem take_append_byteAt {s : List Byte} {p : Nat} (hp : p < s.length) :
    s.take p ++ [byteAt s p] = s.take (p + 1) := by
  rw [List.take_add_one, List.getElem?_eq_getElem hp, byteAt, List.getD_eq_getElem _ _ hp]
  rfl

/-! ### The token at a position -/

/-- The first byte of a match token is 0x00 exactly at the shortest length with a distance of at most 256 (R178). -/
theorem emitsMatch_iff (minMatch : Nat) (best : Nat × Nat) :
    emitsMatch minMatch best = true ↔ minMatch ≤ best.1 ∧ ¬(best.1 = minMatch ∧ best.2 ≤ 256) := by
  simp only [emitsMatch, Bool.and_eq_true, decide_eq_true_eq, bne_iff_ne, ne_eq, Nat.or_eq_zero_iff,
    Nat.shiftLeft_eq, Nat.shiftRight_eq_div_pow]
  omega

/-- The bytes the match at a candidate covers are those at the current position (R177). -/
theorem byteAt_of_lt_matchLength {k c i : Nat} {s : List Byte} {p : Nat}
    (h : i < matchLength k (s.drop c) (s.drop p)) : byteAt s (c + i) = byteAt s (p + i) := by
  rw [← byteAt_drop, ← byteAt_drop]
  simp only [byteAt, List.getD_eq_getElem?_getD, matchLength_agrees k _ _ h]

/-- A match stays within the input (R177). -/
theorem bestMatch_le_length {s : List Byte} {p : Nat} (hp : p < s.length) (cfg : LzConfig) (table : HashTable) :
    p + (bestMatch cfg s p table).1 ≤ s.length := by
  rcases bestMatch_cases cfg s p table with h | ⟨c, -, -, h⟩
  · rw [h]
    exact hp.le
  · have hle := (matchLength_le cfg.maxMatch.toNat (s.drop c) (s.drop p)).2.2
    rw [List.length_drop] at hle
    rw [h]
    dsimp only
    omega

section legal
variable {cfg : LzConfig} {limit : Nat} (hl : cfg.legal limit = true) (s : List Byte) (p : Nat) (table : HashTable)
include hl

/-- The fields of a match token hold the best match under a legal configuration (R101, R170). -/
theorem bestMatch_fits :
    (bestMatch cfg s p table).1 - cfg.minMatch.toNat < 16 ∧ (bestMatch cfg s p table).2 - 1 < 4096 := by
  obtain ⟨⟨-, hwindow⟩, ⟨-, -, hmax⟩, -⟩ := (cfg.legal_iff limit).mp hl
  rcases bestMatch_cases cfg s p table with h | ⟨c, -, hdist, h⟩
  · rw [h]
    exact ⟨by omega, by decide⟩
  · have hle := (matchLength_le cfg.maxMatch.toNat (s.drop c) (s.drop p)).1
    rw [h]
    dsimp only
    omega

/-- R178, the match branch: the token's first byte and its number. -/
theorem tokenAt_match (hemit : emitsMatch cfg.minMatch.toNat (bestMatch cfg s p table) = true) :
    ∃ f g : Byte, tokenAt cfg s p table = ([f, g], (bestMatch cfg s p table).1) ∧ f ≠ 0x00 ∧
      f.toNat * 256 + g.toNat =
        ((bestMatch cfg s p table).1 - cfg.minMatch.toNat) * 4096 + ((bestMatch cfg s p table).2 - 1) := by
  obtain ⟨hlen, hdist⟩ := bestMatch_fits hl s p table
  have hlong := (emitsMatch_iff _ _).mp hemit
  have hbytes := matchBytes_toNat (BitVec.ofNat 4 ((bestMatch cfg s p table).1 - cfg.minMatch.toNat))
    (BitVec.ofNat 12 ((bestMatch cfg s p table).2 - 1))
  rw [BitVec.toNat_ofNat, BitVec.toNat_ofNat, Nat.mod_eq_of_lt hlen, Nat.mod_eq_of_lt hdist] at hbytes
  obtain ⟨hf, hg⟩ := List.cons_eq_cons.mp hbytes
  refine ⟨_, _, if_pos hemit, fun hzero => ?_, ?_⟩
  · rw [hzero] at hf
    have : (0x00 : Byte).toNat = 0 := rfl
    omega
  · rw [hf, (List.cons_eq_cons.mp hg).1]
    omega

end legal

/-- R178, the literal branch. -/
theorem tokenAt_literal {cfg : LzConfig} {s : List Byte} {p : Nat} {table : HashTable}
    (hemit : emitsMatch cfg.minMatch.toNat (bestMatch cfg s p table) ≠ true) :
    tokenAt cfg s p table = ([0x00, byteAt s p], 1) :=
  if_neg hemit

/-- Settles O25: the condition is that of `emitsMatch`, whose branches are the token's. -/
theorem tokenChoiceAvoidsAZeroFirstByte : Obligations.TokenChoiceAvoidsAZeroFirstByte := by
  intro cfg limit s p table hl
  dsimp only
  split
  · next hlong => exact tokenAt_match hl s p table ((emitsMatch_iff _ _).mpr hlong)
  · next hlong => exact tokenAt_literal fun hemit => hlong ((emitsMatch_iff _ _).mp hemit)

/-- A token does not go past the end of the input (R172, R177). -/
theorem tokenAt_le_length {s : List Byte} {p : Nat} (hp : p < s.length) (cfg : LzConfig) (table : HashTable) :
    p + (tokenAt cfg s p table).2 ≤ s.length := by
  by_cases hemit : emitsMatch cfg.minMatch.toNat (bestMatch cfg s p table) = true
  · have htoken : (tokenAt cfg s p table).2 = (bestMatch cfg s p table).1 := congrArg Prod.snd (if_pos hemit)
    exact htoken ▸ bestMatch_le_length hp cfg table
  · rw [tokenAt_literal hemit]
    exact hp

/-! ### The decoder, token by token -/

/-- LEN and DIST are the quotient and the remainder of the token's number (R101). -/
theorem tokenLen_eq_div (f g : Byte) : (tokenLen f).toNat = (f.toNat * 256 + g.toNat) / 4096 := by
  have hg := g.isLt
  rw [tokenLen_toNat]
  omega

theorem tokenDist_eq_mod (f g : Byte) : (tokenDist f g).toNat = (f.toNat * 256 + g.toNat) % 4096 := by
  have hg := g.isLt
  rw [tokenDist_toNat]
  omega

section decoder
variable {minMatch : Nat} {out : List Byte} {f g : Byte}

/-- A stream that decodes without a flag leaves its output to what follows it. -/
theorem lzssDecFrom_append {tokens out' : List Byte}
    (h : lzssDecFrom minMatch out tokens = (out', SoftFlags.none)) (rest : List Byte) :
    lzssDecFrom minMatch out (tokens ++ rest) = lzssDecFrom minMatch out' rest := by
  induction tokens using List.twoStepInduction generalizing out with
  | nil =>
    cases h
    rfl
  | singleton => cases h
  | cons_cons f g tokens ih _ =>
    rw [List.cons_append, List.cons_append, lzssDecFrom]
    rw [lzssDecFrom] at h
    split at h
    · next hf =>
      rw [if_pos hf]
      exact ih h
    · next hf =>
      rw [if_neg hf]
      split at h
      · exact ih h
      · cases h

theorem lzssDecFrom_literal (g : Byte) (rest : List Byte) :
    lzssDecFrom minMatch out (0x00 :: g :: rest) = lzssDecFrom minMatch (out ++ [g]) rest :=
  if_pos rfl

/-- A match whose distance is within the output is copied (R181, R183). -/
theorem lzssDecFrom_match_within (hf : f ≠ 0x00) (h : (f.toNat * 256 + g.toNat) % 4096 + 1 ≤ out.length)
    (rest : List Byte) :
    lzssDecFrom minMatch out (f :: g :: rest) =
      lzssDecFrom minMatch (copyBack ((f.toNat * 256 + g.toNat) % 4096 + 1)
        ((f.toNat * 256 + g.toNat) / 4096 + minMatch) out) rest := by
  rw [lzssDecFrom, if_neg hf, matchUnit, tokenDist_eq_mod, tokenLen_eq_div f g, if_neg (Nat.not_lt.mpr h)]

/-- A match whose distance exceeds the output ends the decoding (R182). -/
theorem lzssDecFrom_match_before (hf : f ≠ 0x00) (h : out.length < (f.toNat * 256 + g.toNat) % 4096 + 1)
    (rest : List Byte) : lzssDecFrom minMatch out (f :: g :: rest) = (out, SoftFlags.badReference) := by
  rw [lzssDecFrom, if_neg hf, matchUnit, tokenDist_eq_mod, if_pos h]

end decoder

/-- What the overlapping copy adds: each byte is the one `d` before its own place (R183). -/
theorem copyBack_appends {d : Nat} {out : List Byte} (hd : 0 < d) (hle : d ≤ out.length) (n : Nat) :
    ∃ copied : List Byte, copyBack d n out = out ++ copied ∧ copied.length = n ∧
      ∀ k, k < copied.length → byteAt copied k = byteAt (out ++ copied) (out.length + k - d) := by
  obtain ⟨copied, hcopied⟩ := copyBack_prefix d n out
  have hlen : copied.length = n := by
    have hlength := copyBack_length d n out
    rw [hcopied, List.length_append] at hlength
    omega
  refine ⟨copied, hcopied, hlen, fun k hk => ?_⟩
  rw [← byteAt_append_add out copied k, ← hcopied]
  exact byteAt_copyBack hd hle (hlen ▸ hk)

/-- Settles O28: the stream so far leaves its output to the next unit, which has a lemma of its own. -/
theorem lzssDecoderReadsTokens : Obligations.LzssDecoderReadsTokens := by
  refine ⟨fun _ => rfl, fun minMatch tokens out h => ?_⟩
  have next (rest : List Byte) : lzssDec minMatch (tokens ++ rest) = lzssDecFrom minMatch out rest :=
    lzssDecFrom_append h rest
  refine ⟨fun g => ?_, fun f g hf hdist => ?_, fun f g rest hf hdist => ?_, fun f => next [f]⟩
  · rw [next, lzssDecFrom_literal, lzssDecFrom]
  · obtain ⟨copied, hcopied, hlen, hbytes⟩ :=
      copyBack_appends (Nat.succ_pos _) hdist ((f.toNat * 256 + g.toNat) / 4096 + minMatch)
    refine ⟨copied, ?_, hlen, hbytes⟩
    rw [next, lzssDecFrom_match_within hf hdist, hcopied, lzssDecFrom]
  · rw [next, lzssDecFrom_match_before hf hdist]

/-! ### The encoder's walk through its tokens -/

/-- The encoder's way through the input from a position and a table (R172): where each of its tokens begins, and the
table there. -/
inductive LzssWalk (cfg : LzConfig) (s : List Byte) : Nat → HashTable → List (Nat × HashTable) → Prop where
  | done {p table} (hp : s.length ≤ p) : LzssWalk cfg s p table []
  | token {p table walk} (hp : p < s.length)
      (tail : LzssWalk cfg s (p + (tokenAt cfg s p table).2) (tableAfter cfg s p table) walk) :
      LzssWalk cfg s p table ((p, table) :: walk)

/-- The bytes of a walk's tokens, one token after the other. -/
def walkBytes (cfg : LzConfig) (s : List Byte) (walk : List (Nat × HashTable)) : List Byte :=
  (walk.map (fun w => (tokenAt cfg s w.1 w.2).1)).flatten

@[simp] theorem walkBytes_nil (cfg : LzConfig) (s : List Byte) : walkBytes cfg s [] = [] := rfl

@[simp] theorem walkBytes_cons (cfg : LzConfig) (s : List Byte) (p : Nat) (table : HashTable)
    (walk : List (Nat × HashTable)) :
    walkBytes cfg s ((p, table) :: walk) = (tokenAt cfg s p table).1 ++ walkBytes cfg s walk := rfl

/-- The encoder's loop is a walk under a legal configuration: every token consumes a byte, so the fuel is enough. -/
theorem lzssEncLoop_walk {cfg : LzConfig} {limit : Nat} (hl : cfg.legal limit = true) {s : List Byte} {fuel p : Nat}
    (hfuel : s.length ≤ p + fuel) (table : HashTable) :
    ∃ walk, LzssWalk cfg s p table walk ∧ lzssEncLoop cfg s fuel p [] table = walkBytes cfg s walk := by
  induction fuel generalizing p table with
  | zero => exact ⟨[], .done hfuel, rfl⟩
  | succ fuel ih =>
    rw [lzssEncLoop]
    split
    · next hp =>
      have hc := tokenAt_consumes hl s p table
      obtain ⟨walk, htail, hbytes⟩ :=
        ih (p := p + (tokenAt cfg s p table).2) (by omega) (tableAfter cfg s p table)
      refine ⟨_, .token hp htail, ?_⟩
      rw [lzssEncLoop_out, hbytes, walkBytes_cons, List.nil_append]
    · next hp => exact ⟨[], .done (Nat.not_lt.mp hp), rfl⟩

theorem lzssEnc_walk {cfg : LzConfig} {limit : Nat} (hl : cfg.legal limit = true) (s : List Byte) :
    ∃ walk, LzssWalk cfg s 0 [] walk ∧ lzssEnc cfg s = walkBytes cfg s walk :=
  lzssEncLoop_walk hl (by omega) []

/-! ### The round trip -/

/-- The overlapping copy goes on with the input as far as the input agrees with itself `d` bytes before (R183). -/
theorem copyBack_take {s : List Byte} {d n p : Nat} (hd : 0 < d) (hle : d ≤ p) (hend : p + n ≤ s.length)
    (h : ∀ i, i < n → byteAt s (p - d + i) = byteAt s (p + i)) : copyBack d n (s.take p) = s.take (p + n) := by
  induction n generalizing p with
  | zero => rfl
  | succ n ih =>
    have hlen : (s.take p).length = p := List.length_take_of_le (by omega)
    have hbyte : byteAt (s.take p) (p - d) = byteAt s p := by
      rw [byteAt_take (by omega)]
      exact h 0 (Nat.succ_pos n)
    rw [copyBack, hlen, hbyte, take_append_byteAt (by omega), ih (by omega) (by omega) fun i hi => ?_,
      Nat.add_assoc, Nat.add_comm 1 n]
    have hnext := h (i + 1) (by omega)
    rwa [show p - d + (i + 1) = p + 1 - d + i by omega, show p + (i + 1) = p + 1 + i by omega] at hnext

/-- Copied behind the input up to its position, the best match continues the input (R175, R177, R183). -/
theorem copyBack_bestMatch {cfg : LzConfig} {s : List Byte} {p : Nat} {table : HashTable} (hp : p < s.length)
    (hpos : 0 < (bestMatch cfg s p table).1) :
    (1 ≤ (bestMatch cfg s p table).2 ∧ (bestMatch cfg s p table).2 ≤ p) ∧
      copyBack (bestMatch cfg s p table).2 (bestMatch cfg s p table).1 (s.take p) =
        s.take (p + (bestMatch cfg s p table).1) := by
  have hend := bestMatch_le_length hp cfg table
  rcases bestMatch_cases cfg s p table with hbest | ⟨c, hback, -, hbest⟩
  · rw [hbest] at hpos
    exact absurd hpos (Nat.lt_irrefl 0)
  · rw [hbest] at hend ⊢
    refine ⟨⟨hback, Nat.sub_le p c⟩, copyBack_take hback (Nat.sub_le p c) hend fun i hi => ?_⟩
    rw [show p - (p - c) = c by omega]
    exact byteAt_of_lt_matchLength hi

/-- Read where the decoder has the input up to the token's position, a token gives the bytes it consumed (R185). -/
theorem lzssDecFrom_tokenAt {cfg : LzConfig} {limit : Nat} (hl : cfg.legal limit = true) {s : List Byte} {p : Nat}
    (hp : p < s.length) (table : HashTable) (rest : List Byte) :
    lzssDecFrom cfg.minMatch.toNat (s.take p) ((tokenAt cfg s p table).1 ++ rest) =
      lzssDecFrom cfg.minMatch.toNat (s.take (p + (tokenAt cfg s p table).2)) rest := by
  by_cases hemit : emitsMatch cfg.minMatch.toNat (bestMatch cfg s p table) = true
  · obtain ⟨f, g, htoken, hf, hcode⟩ := tokenAt_match hl s p table hemit
    obtain ⟨hlen, hdist⟩ := bestMatch_fits hl s p table
    have hlong := ((emitsMatch_iff _ _).mp hemit).1
    have hmin := ((cfg.legal_iff limit).mp hl).2.1.1
    obtain ⟨⟨hback, hback_le⟩, hcopy⟩ := copyBack_bestMatch (table := table) hp (hmin.trans hlong)
    have hd : (f.toNat * 256 + g.toNat) % 4096 + 1 = (bestMatch cfg s p table).2 := by omega
    have hn : (f.toNat * 256 + g.toNat) / 4096 + cfg.minMatch.toNat = (bestMatch cfg s p table).1 := by omega
    have hwithin : (f.toNat * 256 + g.toNat) % 4096 + 1 ≤ (s.take p).length := by
      rwa [List.length_take_of_le hp.le, hd]
    rw [htoken, List.cons_append, List.cons_append, List.nil_append, lzssDecFrom_match_within hf hwithin, hd, hn,
      hcopy]
  · rw [tokenAt_literal hemit]
    exact (lzssDecFrom_literal _ _).trans (congrArg (lzssDecFrom _ · rest) (take_append_byteAt hp))

/-- From the input up to a walk's first position, the walk's bytes decode to all of the input. -/
theorem LzssWalk.decodes {cfg : LzConfig} {limit : Nat} (hl : cfg.legal limit = true) {s : List Byte} {p : Nat}
    {table : HashTable} {walk : List (Nat × HashTable)} (h : LzssWalk cfg s p table walk) :
    lzssDecFrom cfg.minMatch.toNat (s.take p) (walkBytes cfg s walk) = (s, SoftFlags.none) := by
  induction h with
  | done hp => rw [walkBytes_nil, lzssDecFrom, List.take_of_length_le hp]
  | token hp _ ih => rw [walkBytes_cons, lzssDecFrom_tokenAt hl hp, ih]

/-- A token is two bytes, and one whose first byte is 0x00 consumes one byte (R178). -/
theorem tokenAt_bytes {cfg : LzConfig} {limit : Nat} (hl : cfg.legal limit = true) (s : List Byte) (p : Nat)
    (table : HashTable) :
    ∃ f g : Byte, (tokenAt cfg s p table).1 = [f, g] ∧ (f = 0x00 → (tokenAt cfg s p table).2 = 1) := by
  by_cases hemit : emitsMatch cfg.minMatch.toNat (bestMatch cfg s p table) = true
  · obtain ⟨f, g, htoken, hf, -⟩ := tokenAt_match hl s p table hemit
    exact ⟨f, g, congrArg Prod.fst htoken, fun h => absurd h hf⟩
  · rw [tokenAt_literal hemit]
    exact ⟨_, _, rfl, fun _ => rfl⟩

/-- Each token is two bytes and consumes at least one (R185). -/
theorem LzssWalk.length_le {cfg : LzConfig} {limit : Nat} (hl : cfg.legal limit = true) {s : List Byte} {p : Nat}
    {table : HashTable} {walk : List (Nat × HashTable)} (h : LzssWalk cfg s p table walk) :
    (walkBytes cfg s walk).length ≤ 2 * (s.length - p) := by
  induction h with
  | done => exact Nat.zero_le _
  | @token p table walk hp _ ih =>
    obtain ⟨f, g, hbytes, -⟩ := tokenAt_bytes hl s p table
    have hc := tokenAt_consumes hl s p table
    rw [walkBytes_cons, hbytes, List.length_append, List.length_cons, List.length_singleton]
    omega

/-- With no match token, every token consumes one byte (R185). -/
theorem LzssWalk.length_of_literals {cfg : LzConfig} {limit : Nat} (hl : cfg.legal limit = true) {s : List Byte}
    {p : Nat} {table : HashTable} {walk : List (Nat × HashTable)} (h : LzssWalk cfg s p table walk)
    (hzero : ∀ k, 2 * k < (walkBytes cfg s walk).length → byteAt (walkBytes cfg s walk) (2 * k) = 0x00) :
    (walkBytes cfg s walk).length = 2 * (s.length - p) := by
  induction h with
  | done hp => rw [walkBytes_nil, Nat.sub_eq_zero_of_le hp, List.length_nil]
  | @token p table walk hp _ ih =>
    obtain ⟨f, g, hbytes, hliteral⟩ := tokenAt_bytes hl s p table
    have hcons : walkBytes cfg s ((p, table) :: walk) = f :: g :: walkBytes cfg s walk := by
      rw [walkBytes_cons, hbytes, List.cons_append, List.cons_append, List.nil_append]
    rw [hcons] at hzero ⊢
    rw [hliteral (hzero 0 (Nat.succ_pos _))] at ih
    have htail := ih fun k hk => hzero (k + 1) (Nat.add_lt_add_right hk 2)
    rw [List.length_cons, List.length_cons, htail]
    omega

/-- Settles O24: the encoder's walk from position 0 decodes to the input, and its tokens bound the length. -/
theorem lzssRoundTrip : Obligations.LzssRoundTrip := by
  intro cfg limit s hl
  obtain ⟨walk, hwalk, hbytes⟩ := lzssEnc_walk hl s
  rw [hbytes]
  exact ⟨hwalk.decodes hl, hwalk.length_le hl, hwalk.length_of_literals hl⟩

/-! ### The candidates' scan -/

/-- The best of the candidates scanned so far: none is longer, and it is the first of its length. -/
def FirstLongest (len dist : Nat → Nat) (cands : List Nat) (best : Nat × Nat) : Prop :=
  (∀ c ∈ cands, len c ≤ best.1) ∧
    (0 < best.1 → ∃ before c after, cands = before ++ c :: after ∧ best = (len c, dist c) ∧
      ∀ c' ∈ before, len c' < len c)

section firstLongest
variable {len dist : Nat → Nat} {cands : List Nat} {best : Nat × Nat} {c : Nat} (h : FirstLongest len dist cands best)
include h

/-- A strictly longer candidate becomes the best. -/
theorem FirstLongest.longer (hc : best.1 < len c) : FirstLongest len dist (cands ++ [c]) (len c, dist c) := by
  have hbefore : ∀ c' ∈ cands, len c' < len c := fun c' hmem => (h.1 c' hmem).trans_lt hc
  refine ⟨fun c' hmem => ?_, fun _ => ⟨cands, c, [], rfl, rfl, hbefore⟩⟩
  rcases List.mem_append.mp hmem with hmem | hmem
  · exact (hbefore c' hmem).le
  · rw [List.mem_singleton.mp hmem]

/-- Any other candidate leaves the best as it is: among equals the oldest stays. -/
theorem FirstLongest.notLonger (hc : ¬ best.1 < len c) : FirstLongest len dist (cands ++ [c]) best := by
  refine ⟨fun c' hmem => ?_, fun hpos => ?_⟩
  · rcases List.mem_append.mp hmem with hmem | hmem
    · exact h.1 c' hmem
    · rw [List.mem_singleton.mp hmem]
      exact Nat.not_lt.mp hc
  · obtain ⟨before, c', after, hsplit, hbest, hbefore⟩ := h.2 hpos
    exact ⟨before, c', after ++ [c], by rw [hsplit, List.append_assoc, List.cons_append], hbest, hbefore⟩

end firstLongest

/-- The scan of a bucket finds the first longest of its candidates inside the window (R175, R176). -/
theorem scan_firstLongest (cfg : LzConfig) (s : List Byte) (p : Nat) (bucket : List Nat) :
    FirstLongest (fun c => matchLength cfg.maxMatch.toNat (s.drop c) (s.drop p)) (p - ·)
      (bucket.filter (fun c => decide (1 ≤ p - c ∧ p - c ≤ cfg.window.toNat)))
      (bucket.foldl (scanCandidate cfg s p) (0, 0)) := by
  induction bucket using List.reverseRecOn with
  | nil => exact ⟨fun _ hmem => absurd hmem List.not_mem_nil, fun hpos => absurd hpos (Nat.lt_irrefl 0)⟩
  | append_singleton bucket c ih =>
    rw [List.foldl_append, List.filter_append, List.foldl_cons, List.foldl_nil, scanCandidate, List.filter_singleton]
    by_cases hwindow : 1 ≤ p - c ∧ p - c ≤ cfg.window.toNat
    · rw [decide_eq_true hwindow, cond_true]
      split
      · next hc => exact ih.longer hc.2.2
      · next hc => exact ih.notLonger fun hlonger => hc ⟨hwindow.1, hwindow.2, hlonger⟩
    · rw [decide_eq_false hwindow, cond_false, List.append_nil, if_neg fun hc => hwindow ⟨hc.1, hc.2.1⟩]
      exact ih

theorem bestMatch_of_key {s : List Byte} {p : Nat} (hp : p + 1 < s.length) (cfg : LzConfig) (table : HashTable) :
    bestMatch cfg s p table =
      (table.bucket (byteAt s p, byteAt s (p + 1))).foldl (scanCandidate cfg s p) (0, 0) := by
  rw [bestMatch, hashKey, if_pos hp]

theorem bestMatch_of_end {s : List Byte} {p : Nat} (hp : s.length ≤ p + 1) (cfg : LzConfig) (table : HashTable) :
    bestMatch cfg s p table = (0, 0) := by
  rw [bestMatch, hashKey, if_neg (Nat.not_lt.mpr hp)]

/-- Settles O26: the match length by its bounds and its maximality, the best match by the scan of the key's bucket. -/
theorem longestMatchOldestFirst : Obligations.LongestMatchOldestFirst := by
  intro cfg s p table
  dsimp only
  refine ⟨fun c hc hp => ?_, fun hp => ?_, fun hp => bestMatch_of_end hp cfg table⟩
  · obtain ⟨hmax, -, hend⟩ := matchLength_le cfg.maxMatch.toNat (s.drop c) (s.drop p)
    have hstop := matchLength_maximal cfg.maxMatch.toNat (s.drop c) (s.drop p)
      (by rw [List.length_drop, List.length_drop]; omega)
    rw [byteAt_drop, byteAt_drop] at hstop
    rw [List.length_drop] at hend hstop
    refine ⟨hmax, by omega, fun i hi => byteAt_of_lt_matchLength hi, ?_⟩
    rcases hstop with hstop | hstop | hstop
    · exact .inl hstop
    · exact .inr (.inl (by omega))
    · exact .inr (.inr hstop)
  · rw [bestMatch_of_key hp]
    exact scan_firstLongest cfg s p _

/-! ### The hash-chain table -/

/-- A bucket that was within the limit still is after its prune (R174). -/
theorem length_pruned_le {limit : Nat} {bucket : List Nat} (h : bucket.length ≤ limit) (p : Nat) :
    (pruned limit (bucket ++ [p])).length ≤ limit := by
  rw [pruned]
  split
  · rw [List.length_drop, List.length_append, List.length_singleton]
    exact h
  · next hle => exact Nat.not_lt.mp hle

theorem HashTable.length_bucket_le {limit : Nat} {table : HashTable} (h : ∀ entry ∈ table, entry.2.length ≤ limit)
    (key : Byte × Byte) : (table.bucket key).length ≤ limit := by
  induction table with
  | nil => exact Nat.zero_le limit
  | cons entry rest ih =>
    obtain ⟨hentry, hrest⟩ := List.forall_mem_cons.mp h
    rw [HashTable.bucket]
    split
    · exact hentry
    · exact ih hrest

theorem HashTable.length_entry_insert_le {limit : Nat} {table : HashTable}
    (h : ∀ entry ∈ table, entry.2.length ≤ limit) (key : Byte × Byte) (p : Nat) :
    ∀ entry ∈ table.insert limit key p, entry.2.length ≤ limit := by
  induction table with
  | nil => exact List.forall_mem_singleton.mpr (length_pruned_le (bucket := []) (Nat.zero_le limit) p)
  | cons entry rest ih =>
    obtain ⟨hentry, hrest⟩ := List.forall_mem_cons.mp h
    rw [HashTable.insert]
    split
    · exact List.forall_mem_cons.mpr ⟨length_pruned_le hentry p, hrest⟩
    · exact List.forall_mem_cons.mpr ⟨hentry, ih hrest⟩

/-- An insertion adds its key at the end if it is a new one, and no other. -/
theorem HashTable.keys_insert (limit : Nat) (table : HashTable) (key : Byte × Byte) (p : Nat) :
    (table.insert limit key p).map Prod.fst =
      if key ∈ table.map Prod.fst then table.map Prod.fst else table.map Prod.fst ++ [key] := by
  induction table with
  | nil => rfl
  | cons entry rest ih =>
    rw [HashTable.insert, List.map_cons]
    by_cases hk : entry.1 = key
    · rw [if_pos hk, if_pos (hk ▸ List.mem_cons_self), List.map_cons]
    · simp only [if_neg hk, List.map_cons, ih, List.mem_cons, Ne.symm hk, false_or]
      split <;> rfl

theorem HashTable.nodup_keys_insert {table : HashTable} (h : (table.map Prod.fst).Nodup) (limit : Nat)
    (key : Byte × Byte) (p : Nat) : ((table.insert limit key p).map Prod.fst).Nodup := by
  rw [HashTable.keys_insert]
  split
  · exact h
  · next hnew => exact List.nodup_append_comm.mp (List.nodup_cons.mpr ⟨hnew, h⟩)

/-- The prune of a bucket within the limit drops its oldest exactly when it was full (R174). -/
theorem pruned_append_of_le {limit : Nat} (hlimit : 1 ≤ limit) {bucket : List Nat} (h : bucket.length ≤ limit)
    (p : Nat) :
    pruned limit (bucket ++ [p]) =
      if bucket = [] then [p] else if bucket.length < limit then bucket ++ [p] else bucket.drop 1 ++ [p] := by
  rw [pruned, List.length_append, List.length_singleton]
  by_cases hfull : bucket.length < limit
  · rw [if_neg (by omega), if_pos hfull]
    split
    · next hempty => rw [hempty, List.nil_append]
    · rfl
  · rw [if_pos (by omega), if_neg (by rintro rfl; exact hfull hlimit), if_neg hfull,
      List.drop_append_of_le_length (by omega)]

/-- The newest positions of a list, at most `limit` of them. -/
def newest (limit : Nat) (l : List Nat) : List Nat := l.drop (l.length - limit)

/-- One more position and the prune keep the newest ones (R174). -/
theorem pruned_newest_append (limit : Nat) (l : List Nat) (p : Nat) :
    pruned limit (newest limit l ++ [p]) = newest limit (l ++ [p]) := by
  rw [pruned, newest, newest, ← List.drop_append_of_le_length (Nat.sub_le _ _), List.length_drop, List.length_append,
    List.length_singleton, List.drop_drop]
  split
  · congr 1
    omega
  · congr 1
    omega

/-- The positions among `l` that have the key (R173). -/
def keyStarts (s : List Byte) (key : Byte × Byte) (l : List Nat) : List Nat :=
  l.filter (fun q => decide (q + 1 < s.length ∧ (byteAt s q, byteAt s (q + 1)) = key))

theorem keyStarts_append_singleton (s : List Byte) (key : Byte × Byte) (l : List Nat) (p : Nat) :
    keyStarts s key (l ++ [p]) =
      if p + 1 < s.length ∧ (byteAt s p, byteAt s (p + 1)) = key then keyStarts s key l ++ [p]
      else keyStarts s key l := by
  rw [keyStarts, List.filter_append, List.filter_singleton]
  split
  · next h => rw [decide_eq_true h, cond_true, keyStarts]
  · next h => rw [decide_eq_false h, cond_false, List.append_nil, keyStarts]

theorem tableAfter_eq (cfg : LzConfig) (s : List Byte) (p : Nat) (table : HashTable) :
    tableAfter cfg s p table =
      if p + 1 < s.length then table.insert cfg.hashLimit.toNat (byteAt s p, byteAt s (p + 1)) p else table := by
  rw [tableAfter, hashKey]
  split_ifs <;> rfl

/-- A bucket that holds the newest starts of its key still does after one more token. -/
theorem bucket_tableAfter {cfg : LzConfig} {s : List Byte} {table : HashTable} {key : Byte × Byte} {before : List Nat}
    (h : table.bucket key = newest cfg.hashLimit.toNat (keyStarts s key before)) (p : Nat) :
    (tableAfter cfg s p table).bucket key = newest cfg.hashLimit.toNat (keyStarts s key (before ++ [p])) := by
  rw [tableAfter_eq, keyStarts_append_singleton]
  by_cases hp : p + 1 < s.length
  · rw [if_pos hp, HashTable.bucket_insert]
    by_cases hkey : key = (byteAt s p, byteAt s (p + 1))
    · rw [if_pos hkey, if_pos ⟨hp, hkey.symm⟩, ← hkey, h, pruned_newest_append]
    · rw [if_neg hkey, if_neg fun hc => hkey hc.2.symm, h]
  · rw [if_neg hp, if_neg fun hc => hp hc.1, h]

section walk
variable {cfg : LzConfig} {s : List Byte} {p : Nat} {table : HashTable} {walk : List (Nat × HashTable)}
  (h : LzssWalk cfg s p table walk)
include h

theorem LzssWalk.getElem?_zero : walk[0]? = if p < s.length then some (p, table) else none := by
  cases h with
  | done hp => rw [if_neg (Nat.not_lt.mpr hp)]; rfl
  | token hp _ => rw [if_pos hp]; rfl

/-- After a token the walk goes on where the token's bytes end, until the input is used up. -/
theorem LzssWalk.getElem?_succ {k q : Nat} {t : HashTable} (hk : walk[k]? = some (q, t)) :
    q < s.length ∧ walk[k + 1]? =
      if q + (tokenAt cfg s q t).2 < s.length then some (q + (tokenAt cfg s q t).2, tableAfter cfg s q t)
      else none := by
  induction h generalizing k with
  | done => cases hk
  | token hp tail ih =>
    rw [List.getElem?_cons_succ]
    cases k with
    | zero =>
      cases hk
      exact ⟨hp, tail.getElem?_zero⟩
    | succ k => exact ih hk

/-- Before each token a bucket holds the newest starts of its key among the earlier tokens' (R172, R174). -/
theorem LzssWalk.bucket {before : List Nat}
    (hbefore : ∀ key, table.bucket key = newest cfg.hashLimit.toNat (keyStarts s key before)) {k q : Nat}
    {t : HashTable} (hk : walk[k]? = some (q, t)) (key : Byte × Byte) :
    t.bucket key = newest cfg.hashLimit.toNat (keyStarts s key (before ++ (walk.take k).map Prod.fst)) := by
  induction h generalizing k before with
  | done => cases hk
  | @token p table walk _ _ ih =>
    cases k with
    | zero =>
      cases hk
      rw [List.take_zero, List.map_nil, List.append_nil, hbefore]
    | succ k =>
      rw [ih (fun key => bucket_tableAfter (hbefore key) p) hk, List.take_succ_cons, List.map_cons,
        List.append_assoc, List.singleton_append]

end walk

/-- Settles O27: an insertion by what it does to the entries, the keys and the buckets, and the encoder by its walk. -/
theorem bucketsStayWithinHashLimit : Obligations.BucketsStayWithinHashLimit := by
  refine ⟨fun limit table key p hlimit hlen hnodup => ⟨HashTable.length_entry_insert_le hlen key p,
    HashTable.nodup_keys_insert hnodup limit key p, ?_, fun other hother => ?_⟩, fun cfg limit s hl => ?_⟩
  · rw [HashTable.bucket_insert, if_pos rfl]
    exact pruned_append_of_le hlimit (HashTable.length_bucket_le hlen key) p
  · rw [HashTable.bucket_insert, if_neg hother]
  · obtain ⟨walk, hwalk, hbytes⟩ := lzssEnc_walk hl s
    refine ⟨walk, hbytes, ?_, fun k p table hk => ?_⟩
    · rw [hwalk.getElem?_zero]
      simp only [List.length_pos_iff, ite_not]
    · obtain ⟨hp, hnext⟩ := hwalk.getElem?_succ hk
      rw [← tableAfter_eq]
      exact ⟨hp, tokenAt_le_length hp cfg table, hnext, hwalk.bucket (before := []) (fun _ => List.drop_nil.symm) hk⟩

/-! ### The LZSS commands -/

/-- The configuration check comes right after the range check (R266). -/
theorem State.lzssStop_badConfig {s : State} (hrange : s.operands.inLen.toNat ≤ s.params.inCap)
    (hlegal : s.lzLegal = false) : s.lzssStop = some .badConfig := by
  rw [State.lzssStop, State.rangeStop_none hrange, State.configStop_some hlegal]
  rfl

/-- With IN not empty, codec 2 has its configuration checked (R215, R266). -/
theorem State.formatStop_badConfig {s : State} (hrange : s.operands.inLen.toNat ≤ s.params.inCap)
    (hlegal : s.lzLegal = false) (hin : s.input ≠ []) : s.formatStop 2 = some .badConfig := by
  rw [State.formatStop, State.rangeStop_none hrange, State.emptyStop_none hin, if_pos rfl,
    State.configStop_some hlegal]
  rfl

/-- Settles O18: the bounds broken are those of `LzConfig.legal`, and each command's check stops it. -/
theorem illegalConfigurationIsReported : Obligations.IllegalConfigurationIsReported := by
  intro i s hrange hbounds hi
  have hlegal : s.lzLegal = false :=
    Bool.eq_false_iff.mpr fun hl => hbounds ((s.operands.lz.legal_iff s.params.hashLimitMax).mp hl)
  have hexec : exec i s = .next (s.raise .badConfig) := by
    rcases hi with rfl | rfl | ⟨rfl, hin⟩
    · show execLzssEnc s = _
      rw [execLzssEnc, State.lzssStop_badConfig hrange hlegal]
    · show execLzssDec s = _
      rw [execLzssDec, State.lzssStop_badConfig hrange hlegal]
    · show execFrameFmt 2 s = _
      rw [execFrameFmt, State.formatStop_badConfig hrange hlegal hin]
  exact ⟨_, hexec, s.raise_completes _⟩

/-- An IN in range and not empty passes the checks under a legal configuration (R266). -/
theorem State.lzssStop_none {s : State} (hrange : s.operands.inLen.toNat ≤ s.params.inCap) (hlegal : s.lzLegal = true)
    (hin : s.input ≠ []) : s.lzssStop = none := by
  rw [State.lzssStop, State.rangeStop_none hrange, State.configStop_none hlegal, State.emptyStop_none hin]
  rfl

theorem State.lzssEncWork_of_fresh {s : State} (h : s.work = .fresh) : s.lzssEncWork = (0, [], []) := by
  rw [State.lzssEncWork, h]

/-- With no iteration done before it, the completion delivers the encoding of all of IN (R186). -/
theorem State.exec_lzssEnc_of_fresh {s : State} (hw : s.work = .fresh) (hs : s.lzssStop = none) :
    exec .lzssEnc s =
      .next (s.deliver (lzssEnc s.operands.lz s.input) SoftFlags.none ResultRegs.none ResultRegs.none) := by
  show execLzssEnc s = _
  rw [execLzssEnc, hs, State.lzssEncResult, State.lzssEncWork_of_fresh hw]
  rfl

/-- With no unit read before it, the decoder's result is the decoding of all that follows its start. -/
theorem State.lzssDecResult_of_fresh {s : State} (h : s.work = .fresh) (start : Nat) :
    s.lzssDecResult start = lzssDec s.minMatch (s.input.drop start) := by
  rw [State.lzssDecResult, State.decodeWork_of_fresh h]
  simp only [SoftFlags.none_union]
  rfl

/-- With no unit read before it, the completion delivers the decoding of all of IN and its flags (R187). -/
theorem State.exec_lzssDec_of_fresh {s : State} (hw : s.work = .fresh) (hs : s.lzssStop = none) :
    exec .lzssDec s = .next (s.deliver (lzssDec s.minMatch s.input).1 (lzssDec s.minMatch s.input).2
      ResultRegs.none ResultRegs.none) := by
  show execLzssDec s = _
  rw [execLzssDec, hs, State.lzssDecResult_of_fresh hw]
  rfl

/-- Settles O10: the checks find nothing, and the encoding fits. -/
theorem lzssEncodeCommandDelivers : Obligations.LzssEncodeCommandDelivers := by
  intro s hw hrange hlegal hin hfits
  rw [State.exec_lzssEnc_of_fresh hw (State.lzssStop_none hrange hlegal hin), State.deliver_fits hfits,
    codeOfFlags_none]
  exact ⟨_, rfl, s.finish_completes _ _ _ _⟩

/-- Settles O11: the checks find nothing, the decoding fits, and its flags give the code. -/
theorem lzssDecodeCommandDelivers : Obligations.LzssDecodeCommandDelivers := by
  intro s hw hrange hlegal hin hfits
  rw [State.exec_lzssDec_of_fresh hw (State.lzssStop_none hrange hlegal hin), State.deliver_fits hfits,
    ← codeOfFlags_eq]
  exact ⟨_, rfl, s.finish_completes _ _ _ _⟩

end Sys2Proof.Machine

/-! ## The formatter and the parser -/

namespace Sys2Proof.Machine

/-! ### Payloads and the length of a frame -/

@[simp] theorem payloadOf_zero (cfg : LzConfig) (s : List Byte) : payloadOf cfg 0 s = s := rfl

@[simp] theorem payloadOf_one (cfg : LzConfig) (s : List Byte) : payloadOf cfg 1 s = rleEnc s := rfl

@[simp] theorem payloadOf_two (cfg : LzConfig) (s : List Byte) : payloadOf cfg 2 s = lzssEnc cfg s := rfl

@[simp] theorem decodePayload_zero (minMatch : Nat) (payload : List Byte) :
    decodePayload minMatch 0 payload = (payload, SoftFlags.none) := rfl

@[simp] theorem decodePayload_one (minMatch : Nat) (payload : List Byte) :
    decodePayload minMatch 1 payload = rleDec payload := rfl

@[simp] theorem decodePayload_two (minMatch : Nat) (payload : List Byte) :
    decodePayload minMatch 2 payload = lzssDec minMatch payload := rfl

theorem lzssEnc_length_le {cfg : LzConfig} {limit : Nat} (hl : cfg.legal limit = true) (s : List Byte) :
    (lzssEnc cfg s).length ≤ 2 * s.length :=
  (lzssRoundTrip cfg limit s hl).2.1

section legal
variable {cfg : LzConfig} {limit : Nat} (hl : cfg.legal limit = true) {codec : Byte}
  (hcodec : codec = 0 ∨ codec = 1 ∨ codec = 2) (s : List Byte)
include hl hcodec

/-- No codec more than doubles its input (R152, R185, R211). -/
theorem payloadOf_length_le : (payloadOf cfg codec s).length ≤ 2 * s.length := by
  rcases hcodec with rfl | rfl | rfl
  · rw [payloadOf_zero]
    omega
  · exact rleEnc_length_le s
  · exact lzssEnc_length_le hl s

/-- Each codec's decoder gives back what its encoder was given (R151, R185). -/
theorem decodePayload_payloadOf :
    decodePayload cfg.minMatch.toNat codec (payloadOf cfg codec s) = (s, SoftFlags.none) := by
  rcases hcodec with rfl | rfl | rfl
  · rfl
  · exact rleDec_rleEnc s
  · exact (lzssRoundTrip cfg limit s hl).1

end legal

/-- Settles O29: the header has 13 bytes, and each codec bounds its payload. -/
theorem frameLengthBounds : Obligations.FrameLengthBounds := by
  intro cfg codec s
  rw [frameBytes_length]
  refine ⟨rfl, ?_, ?_, fun limit hcodec hl => ?_⟩
  · rintro rfl
    rfl
  · rintro rfl
    exact Nat.add_le_add_left (rleEnc_length_le s) 13
  · subst hcodec
    exact Nat.add_le_add_left (lzssEnc_length_le hl s) 13

/-! ### The blobs without a header -/

/-- The first bytes of a current or a legacy frame, and those of a wrapped one (R104 to R106). -/
def magicOf (legacy : Bool) : List Byte := if legacy then magicLegacy else magicCurrent
def prefixOf (legacy : Bool) : List Byte := if legacy then prefixLegacy else prefixCurrent

theorem magicOf_injective : Function.Injective magicOf := by decide

theorem prefixOf_take_three (legacy : Bool) : (prefixOf legacy).take 3 = magicOf legacy := by
  cases legacy <;> rfl

/-- The check of R230 steps 4 to 6 on a header that was read. -/
def headerStop (lzLegal : Bool) (hdr : FrameHeader) : Option Code :=
  if hdr.ver = 0 ∨ Config.maxVersion < hdr.ver then some .unsupportedVersion
  else if knownCodec hdr.cid = false then some .unknownCodec
  else if hdr.cid = 2 ∧ lzLegal = false then some .badConfig
  else none

theorem frameParse_of_error {lzLegal : Bool} {b : List Byte} {code : Code} {hdr : Option FrameHeader}
    (h : frameHead lzLegal b = .error (code, hdr)) (minMatch : Nat) :
    frameParse lzLegal minMatch b = ⟨code, [], SoftFlags.none, hdr⟩ := by
  rw [frameParse, h]

theorem take_three_of_take_four {b p : List Byte} (h : b.take 4 = p) : b.take 3 = p.take 3 := by
  rw [← h, List.take_take]
  rfl

theorem frameHead_wrapped (lzLegal : Bool) {b : List Byte} (hlen : 4 ≤ b.length)
    (h : b.take 4 = prefixCurrent ∨ b.take 4 = prefixLegacy) : frameHead lzLegal b = .error (.wrapped, none) := by
  have hne : b ≠ [] := List.ne_nil_of_length_pos (by omega)
  rw [frameHead, if_neg hne, if_pos ⟨hlen, h⟩]

theorem frameHead_badMagic (lzLegal : Bool) {b : List Byte} (hne : b ≠ [])
    (h : b.length < 3 ∨ (b.take 3 ≠ magicCurrent ∧ b.take 3 ≠ magicLegacy)) :
    frameHead lzLegal b = .error (.badMagic, none) := by
  have hwrap : ¬(4 ≤ b.length ∧ (b.take 4 = prefixCurrent ∨ b.take 4 = prefixLegacy)) := by
    rintro ⟨hlen, hp⟩
    rcases h with h | ⟨hcurrent, hlegacy⟩
    · omega
    · rcases hp with hp | hp
      · exact hcurrent (take_three_of_take_four hp)
      · exact hlegacy (take_three_of_take_four hp)
  rw [frameHead, if_neg hne, if_neg hwrap, if_pos h]

/-- A blob with a magic that is no wrapped one is read as far as its header (R238 to R241). -/
theorem frameHead_of_magic (lzLegal : Bool) {legacy : Bool} {b : List Byte} (hmagic : b.take 3 = magicOf legacy)
    (hprefix : b.take 4 ≠ prefixOf legacy) :
    frameHead lzLegal b =
      if b.length < headerLength legacy then .error (.truncatedHeader, none)
      else
        match headerStop lzLegal (readHeader legacy b) with
        | some code => .error (code, some (readHeader legacy b))
        | none => .ok (readHeader legacy b) := by
  have hlen : 3 ≤ b.length := by
    have hthree : (b.take 3).length = 3 := by
      rw [hmagic]
      cases legacy <;> rfl
    rw [List.length_take] at hthree
    omega
  have hne : b ≠ [] := List.ne_nil_of_length_pos (by omega)
  have hwrap : ¬(4 ≤ b.length ∧ (b.take 4 = prefixCurrent ∨ b.take 4 = prefixLegacy)) := by
    rintro ⟨-, hp⟩
    obtain ⟨l, hl⟩ : ∃ l, b.take 4 = prefixOf l := hp.elim (⟨false, ·⟩) (⟨true, ·⟩)
    have hl3 : magicOf l = magicOf legacy := by
      rw [← hmagic, take_three_of_take_four hl, prefixOf_take_three]
    exact hprefix (magicOf_injective hl3 ▸ hl)
  have hknown : ¬(b.length < 3 ∨ (b.take 3 ≠ magicCurrent ∧ b.take 3 ≠ magicLegacy)) := by
    rintro (hshort | ⟨hcurrent, hold⟩)
    · omega
    · cases legacy with
      | false => exact hcurrent hmagic
      | true => exact hold hmagic
  have hlegacy : decide (b.take 3 = magicLegacy) = legacy := by
    rw [hmagic]
    cases legacy <;> rfl
  rw [frameHead, if_neg hne, if_neg hwrap, if_neg hknown, hlegacy]
  simp only [headerStop]
  split_ifs <;> rfl

theorem frameHead_truncated (lzLegal : Bool) {legacy : Bool} {b : List Byte} (hmagic : b.take 3 = magicOf legacy)
    (hprefix : b.take 4 ≠ prefixOf legacy) (hlen : b.length < headerLength legacy) :
    frameHead lzLegal b = .error (.truncatedHeader, none) := by
  rw [frameHead_of_magic lzLegal hmagic hprefix, if_pos hlen]

/-- Settles O30: each blob is stopped by its own check of R230. -/
theorem parserRejectsBlobsWithoutAHeader : Obligations.ParserRejectsBlobsWithoutAHeader := by
  intro lzLegal minMatch b
  exact ⟨fun hlen h => frameParse_of_error (frameHead_wrapped lzLegal hlen h) minMatch,
    fun hne h => frameParse_of_error (frameHead_badMagic lzLegal hne h) minMatch,
    fun hm hp hlen => frameParse_of_error (frameHead_truncated lzLegal (legacy := false) hm hp hlen) minMatch,
    fun hm hp hlen => frameParse_of_error (frameHead_truncated lzLegal (legacy := true) hm hp hlen) minMatch⟩

/-! ### A frame whose header is whole -/

/-- An accepted frame's payload decoded and verified (R242, R245). -/
def verifiedResult (minMatch : Nat) (hdr : FrameHeader) (payload : List Byte) : ParseResult :=
  let (dec, flags) := decodePayload minMatch hdr.cid payload
  let all := flags.union (verifyFlags hdr dec)
  ⟨codeOfFlags all, dec, all, some hdr⟩

/-- The parser's result for a header that was read and the bytes behind it (R240 to R245). -/
def resultOfHeader (lzLegal : Bool) (minMatch : Nat) (hdr : FrameHeader) (payload : List Byte) : ParseResult :=
  match headerStop lzLegal hdr with
  | some code => ⟨code, [], SoftFlags.none, some hdr⟩
  | none => verifiedResult minMatch hdr payload

theorem frameParse_of_ok {lzLegal : Bool} {b : List Byte} {hdr : FrameHeader} (h : frameHead lzLegal b = .ok hdr)
    (minMatch : Nat) :
    frameParse lzLegal minMatch b = verifiedResult minMatch hdr (b.drop (headerLength hdr.legacy)) := by
  rw [frameParse, h]
  rfl

theorem frameParse_of_header (lzLegal : Bool) (minMatch : Nat) {legacy : Bool} {b : List Byte}
    (hmagic : b.take 3 = magicOf legacy) (hprefix : b.take 4 ≠ prefixOf legacy)
    (hlen : headerLength legacy ≤ b.length) :
    frameParse lzLegal minMatch b =
      resultOfHeader lzLegal minMatch (readHeader legacy b) (b.drop (headerLength legacy)) := by
  have hhead := frameHead_of_magic lzLegal hmagic hprefix
  rw [if_neg (Nat.not_lt.mpr hlen)] at hhead
  cases hstop : headerStop lzLegal (readHeader legacy b) with
  | some code =>
    rw [hstop] at hhead
    rw [frameParse_of_error hhead, resultOfHeader, hstop]
  | none =>
    rw [hstop] at hhead
    rw [frameParse_of_ok hhead, resultOfHeader, hstop]
    cases legacy <;> rfl

section frame
variable (lzLegal : Bool) (minMatch : Nat) (olen ocrc : Word) (payload : List Byte)

theorem frameParse_currentFrame {ver : Byte} (hver : ver ≠ 0x42) (cid : Byte) :
    frameParse lzLegal minMatch (currentFrame ver cid olen ocrc payload) =
      resultOfHeader lzLegal minMatch ⟨ver, cid, false, olen, ocrc⟩ payload := by
  have hprefix : (currentFrame ver cid olen ocrc payload).take 4 ≠ prefixOf false := by
    simpa [currentFrame, prefixOf, prefixCurrent] using hver
  have hread : readHeader false (currentFrame ver cid olen ocrc payload) =
      ⟨ver, cid, false, composeLe (le32 olen), composeLe (le32 ocrc)⟩ := rfl
  rw [composeLe_le32, composeLe_le32] at hread
  have hlen : headerLength false ≤ (currentFrame ver cid olen ocrc payload).length := by
    simp [currentFrame, headerLength, le32]
  rw [frameParse_of_header lzLegal minMatch rfl hprefix hlen, hread]
  rfl

theorem frameParse_legacyFrame {cid : Byte} (hcid : cid ≠ 0x42) :
    frameParse lzLegal minMatch (legacyFrame cid olen ocrc payload) =
      resultOfHeader lzLegal minMatch ⟨1, cid, true, olen, ocrc⟩ payload := by
  have hprefix : (legacyFrame cid olen ocrc payload).take 4 ≠ prefixOf true := by
    simpa [legacyFrame, prefixOf, prefixLegacy] using hcid
  have hread : readHeader true (legacyFrame cid olen ocrc payload) =
      ⟨1, cid, true, composeLe (le32 olen), composeLe (le32 ocrc)⟩ := rfl
  rw [composeLe_le32, composeLe_le32] at hread
  have hlen : headerLength true ≤ (legacyFrame cid olen ocrc payload).length := by
    simp [legacyFrame, headerLength, le32]
  rw [frameParse_of_header lzLegal minMatch rfl hprefix hlen, hread]
  rfl

end frame

/-! ### The checks on the header (R240, R241) -/

theorem headerStop_version (lzLegal : Bool) {hdr : FrameHeader} (h : hdr.ver = 0 ∨ 2 < hdr.ver.toNat) :
    headerStop lzLegal hdr = some .unsupportedVersion :=
  if_pos h

/-- Versions 1 and 2 pass, so the codec decides. -/
theorem headerStop_of_version (lzLegal : Bool) {hdr : FrameHeader} (h : hdr.ver = 1 ∨ hdr.ver = 2) :
    headerStop lzLegal hdr =
      (codecStop hdr.cid).or (if hdr.cid = 2 ∧ lzLegal = false then some .badConfig else none) := by
  have hver : ¬(hdr.ver = 0 ∨ Config.maxVersion < hdr.ver) := by
    rcases h with h | h <;> rw [h] <;> decide
  rw [headerStop, if_neg hver, codecStop]
  cases knownCodec hdr.cid <;> rfl

/-- Settles O31: the checks on the header in their order. -/
theorem parserRejectsAfterTheHeader : Obligations.ParserRejectsAfterTheHeader := by
  intro lzLegal minMatch ver cid olen ocrc payload
  have hreached (h : ver = 1 ∨ ver = 2) : ver ≠ 0x42 := by
    rcases h with rfl | rfl <;> decide
  refine ⟨fun hwrap hver => ?_, fun hver hcid => ?_, fun hver => ?_⟩
  · rw [frameParse_currentFrame _ _ _ _ _ hwrap, resultOfHeader, headerStop_version lzLegal hver]
  · rw [frameParse_currentFrame _ _ _ _ _ (hreached hver), resultOfHeader, headerStop_of_version lzLegal hver,
      codecStop_some hcid]
    rfl
  · rw [frameParse_currentFrame _ _ _ _ _ (hreached hver), resultOfHeader, headerStop_of_version false hver]
    rfl

/-- Settles O33: versions 1 and 2 both pass, and what follows does not read the version or the legacy bit. -/
theorem legacyFramesDecodeLikeCurrentOnes : Obligations.LegacyFramesDecodeLikeCurrentOnes := by
  intro lzLegal minMatch cid olen ocrc payload hcid
  have hsame : headerStop lzLegal ⟨1, cid, true, olen, ocrc⟩ = headerStop lzLegal ⟨2, cid, false, olen, ocrc⟩ := by
    rw [headerStop_of_version lzLegal (.inl rfl), headerStop_of_version lzLegal (.inr rfl)]
  dsimp only
  rw [frameParse_legacyFrame _ _ _ _ _ hcid, frameParse_currentFrame _ _ _ _ _ (by decide), resultOfHeader,
    resultOfHeader, hsame]
  cases headerStop lzLegal ⟨2, cid, false, olen, ocrc⟩ with
  | some code => exact ⟨rfl, rfl, rfl, rfl, rfl⟩
  | none => exact ⟨rfl, rfl, rfl, rfl, rfl⟩

/-! ### Decoding and verification (R242 to R245) -/

/-- The RLE decoder makes neither check of R245. -/
theorem rleDec_checks (s : List Byte) : (rleDec s).2.lenmis = false ∧ (rleDec s).2.crcmis = false := by
  rw [rleDec_flags]
  split <;> exact ⟨rfl, rfl⟩

/-- The LZSS decoder makes neither check of R245. -/
theorem lzssDecFrom_checks (minMatch : Nat) (out s : List Byte) :
    (lzssDecFrom minMatch out s).2.lenmis = false ∧ (lzssDecFrom minMatch out s).2.crcmis = false := by
  induction s using List.twoStepInduction generalizing out with
  | nil | singleton => exact ⟨rfl, rfl⟩
  | cons_cons f g rest ih _ =>
    rw [lzssDecFrom]
    split
    · exact ih _
    · split
      · exact ih _
      · exact ⟨rfl, rfl⟩

theorem decodePayload_checks (minMatch : Nat) (codec : Byte) (payload : List Byte) :
    (decodePayload minMatch codec payload).2.lenmis = false ∧
      (decodePayload minMatch codec payload).2.crcmis = false := by
  unfold decodePayload
  split
  · exact ⟨rfl, rfl⟩
  · split
    · exact rleDec_checks payload
    · exact lzssDecFrom_checks minMatch [] payload

/-- The decoder's flags are kept, and each check of R245 gives its own. -/
theorem verifiedResult_eq {minMatch : Nat} {hdr : FrameHeader} {payload dec : List Byte} {flags : SoftFlags}
    (h : decodePayload minMatch hdr.cid payload = (dec, flags)) :
    verifiedResult minMatch hdr payload =
      (let all : SoftFlags :=
        ⟨flags.trunc, flags.badref, decide (dec.length ≠ hdr.olen.toNat), decide (crc32 dec ≠ hdr.ocrc)⟩
      ⟨if all = SoftFlags.none then .ok else .partialData, dec, all, some hdr⟩) := by
  have hchecks := decodePayload_checks minMatch hdr.cid payload
  rw [h] at hchecks
  obtain ⟨hlen, hcrc⟩ := hchecks
  dsimp only at hlen hcrc
  simp only [verifiedResult, h, codeOfFlags_eq, SoftFlags.union, verifyFlags, hlen, hcrc, Bool.or_false, Bool.false_or]

/-- The version and codec of an accepted frame stop nothing. -/
theorem headerStop_accepted {lzLegal : Bool} {hdr : FrameHeader} (hver : hdr.ver = 1 ∨ hdr.ver = 2)
    (hcid : hdr.cid = 0 ∨ hdr.cid = 1 ∨ (hdr.cid = 2 ∧ lzLegal = true)) : headerStop lzLegal hdr = none := by
  rw [headerStop_of_version lzLegal hver]
  rcases hcid with h | h | ⟨h, rfl⟩
  all_goals
    rw [h]
    rfl

/-- Settles O32: an accepted header, current or legacy, leads to its payload's decoding, which is verified. -/
theorem parserDecodesAndVerifies : Obligations.ParserDecodesAndVerifies := by
  intro lzLegal minMatch legacy ver cid olen ocrc payload dec flags hver hcodec
  have hdec : decodePayload minMatch cid payload = (dec, flags) := by
    rcases hcodec with ⟨rfl, h⟩ | ⟨rfl, h⟩ | ⟨rfl, -, h⟩
    all_goals exact h.symm
  have hcid : cid = 0 ∨ cid = 1 ∨ (cid = 2 ∧ lzLegal = true) :=
    hcodec.imp And.left (Or.imp And.left fun ⟨h, hl, _⟩ => ⟨h, hl⟩)
  have haccepted : headerStop lzLegal ⟨ver, cid, legacy, olen, ocrc⟩ = none :=
    headerStop_accepted (hver.imp_right And.left) hcid
  dsimp only
  rw [← verifiedResult_eq (hdr := ⟨ver, cid, legacy, olen, ocrc⟩) hdec]
  cases legacy with
  | false =>
    have hreached : ver ≠ 0x42 := by
      rcases hver with rfl | ⟨rfl, -⟩ <;> decide
    rw [if_neg Bool.false_ne_true, frameParse_currentFrame _ _ _ _ _ hreached, resultOfHeader, haccepted]
  | true =>
    have hone : ver = 1 := hver.resolve_right fun ⟨_, h⟩ => nomatch h
    subst hone
    have hreached : cid ≠ 0x42 := by
      rcases hcid with rfl | rfl | ⟨rfl, -⟩ <;> decide
    rw [if_pos rfl, frameParse_legacyFrame _ _ _ _ _ hreached, resultOfHeader, haccepted]

end Sys2Proof.Machine

/-! ## The frame commands -/

namespace Sys2Proof.Machine

/-! ### FRAME_FMT from its beginning -/

theorem codecStop_none {codec : Byte} (h : codec = 0 ∨ codec = 1 ∨ codec = 2) : codecStop codec = none := by
  rcases h with rfl | rfl | rfl <;> rfl

/-- An IN in range and not empty passes the checks, with a known codec and a configuration legal for codec 2 (R266). -/
theorem State.formatStop_none {s : State} {codec : Byte} (hrange : s.operands.inLen.toNat ≤ s.params.inCap)
    (hin : s.input ≠ []) (hcodec : codec = 0 ∨ codec = 1 ∨ codec = 2 ∧ s.lzLegal = true) :
    s.formatStop codec = none := by
  have hconfig : (if codec = 2 then s.configStop else none) = none := by
    rcases hcodec with rfl | rfl | ⟨rfl, hlegal⟩
    · rfl
    · rfl
    · exact State.configStop_none hlegal
  rw [State.formatStop, State.rangeStop_none hrange, State.emptyStop_none hin,
    codecStop_none (hcodec.imp_right (Or.imp_right And.left)), hconfig]
  rfl

/-- With no iteration done before it, the payload is that of all of IN (R211). -/
theorem State.payloadResult_of_fresh {s : State} (hw : s.work = .fresh) (codec : Byte) :
    s.payloadResult codec = payloadOf s.operands.lz codec s.input := by
  rw [State.payloadResult, State.rleEncResult, State.rleEncWork_of_fresh hw, State.lzssEncResult,
    State.lzssEncWork_of_fresh hw]
  rfl

theorem State.exec_frameFmt_of_fresh {s : State} {codec : Byte} (hw : s.work = .fresh)
    (hs : s.formatStop codec = none) :
    exec (.frameFmt codec) s =
      .next (s.deliver (frameBytes codec s.input (payloadOf s.operands.lz codec s.input)) SoftFlags.none
        ResultRegs.none (formatRegs codec s.input)) := by
  show execFrameFmt codec s = _
  rw [execFrameFmt, hs, State.payloadResult_of_fresh hw]

/-- FRHDR of a frame the formatter writes (R32, R213). -/
theorem frhdrWord_format (codec : Byte) :
    frhdrWord false codec Config.maxVersion = (codec.setWidth 32 <<< 8) ||| 0x00000002 :=
  congrArg (· ||| _) (BitVec.zero_or)

/-- Settles O12: the checks find nothing, and the frame fits. -/
theorem frameFormatCommandDelivers : Obligations.FrameFormatCommandDelivers := by
  intro s codec payload hw hrange hin hcodec hfits
  have hknown : codec = 0 ∨ codec = 1 ∨ codec = 2 ∧ s.lzLegal = true :=
    hcodec.imp And.left (Or.imp And.left fun ⟨h, hl, _⟩ => ⟨h, hl⟩)
  have hpayload : payload = payloadOf s.operands.lz codec s.input := by
    rcases hcodec with ⟨rfl, h⟩ | ⟨rfl, h⟩ | ⟨rfl, -, h⟩
    all_goals exact h
  subst hpayload
  rw [← frameBytes_length codec s.input] at hfits
  rw [State.exec_frameFmt_of_fresh hw (State.formatStop_none hrange hin hknown), State.deliver_fits hfits,
    codeOfFlags_none, ← frhdrWord_format]
  exact ⟨_, rfl, s.finish_completes _ _ _ _⟩

/-! ### FRAME_PARSE from its beginning -/

/-- The parser stops before decoding with a code of its own (R230 steps 1 to 6). -/
theorem frameHead_ne_ok {lzLegal : Bool} {b : List Byte} {code : Code} {hdr : Option FrameHeader}
    (h : frameHead lzLegal b = .error (code, hdr)) : code ≠ .ok := by
  unfold frameHead at h
  dsimp only at h
  split_ifs at h
  all_goals cases h
  all_goals decide

/-- With no unit read before it, the decoder's result is the decoding of the whole payload (R242). -/
theorem State.decodeResult_of_fresh {s : State} (hw : s.work = .fresh) (hdr : FrameHeader) :
    s.decodeResult hdr = decodePayload s.minMatch hdr.cid (s.input.drop (headerLength hdr.legacy)) := by
  rw [State.decodeResult, State.rleDecResult_of_fresh hw, State.lzssDecResult_of_fresh hw]
  rfl

/-- A blob the parser stops at completes with its code and the header, if one was read (R246). -/
theorem State.exec_frameParse_of_error {s : State} {code : Code} {hdr : Option FrameHeader} (hs : s.rangeStop = none)
    (h : frameHead s.lzLegal s.input = .error (code, hdr)) :
    exec .frameParse s = .next (s.finish code [] SoftFlags.none (headerRegsOf hdr)) := by
  show execFrameParse s = _
  rw [execFrameParse, hs, h]

/-- An accepted frame, with no unit read before it, has its decoding delivered (R247). -/
theorem State.exec_frameParse_of_ok {s : State} {hdr : FrameHeader} (hw : s.work = .fresh) (hs : s.rangeStop = none)
    (h : frameHead s.lzLegal s.input = .ok hdr) :
    exec .frameParse s =
      (let r := verifiedResult s.minMatch hdr (s.input.drop (headerLength hdr.legacy))
      .next (s.deliver r.dec r.flags (headerRegs hdr) { headerRegs hdr with calccrc := some (crc32 r.dec) })) := by
  show execFrameParse s = _
  rw [execFrameParse, hs, h]
  simp only [State.decodeResult_of_fresh hw]
  rfl

/-- An accepted frame's code is OK or PARTIAL (R245). -/
theorem verifiedResult_code (minMatch : Nat) (hdr : FrameHeader) (payload : List Byte) :
    ¬((verifiedResult minMatch hdr payload).code ≠ .ok ∧
      (verifiedResult minMatch hdr payload).code ≠ .partialData) := by
  simp only [verifiedResult, codeOfFlags]
  split <;> simp

/-- Settles O13: the parser stops with a code of its own, or its decoding is delivered. -/
theorem frameParseCommandDelivers : Obligations.FrameParseCommandDelivers := by
  intro s hw hrange
  have hs := State.rangeStop_none hrange
  cases hhead : frameHead s.lzLegal s.input with
  | error stopped =>
    obtain ⟨code, hdr⟩ := stopped
    rw [State.exec_frameParse_of_error hs hhead, frameParse_of_error hhead]
    refine ⟨_, rfl, ?_⟩
    dsimp only
    rw [if_pos ⟨frameHead_ne_ok hhead, frameHead_ne_partial hhead⟩]
    exact s.finish_completes _ _ _ _
  | ok hdr =>
    rw [State.exec_frameParse_of_ok hw hs hhead, frameParse_of_ok hhead]
    refine ⟨_, rfl, ?_⟩
    dsimp only
    rw [if_neg (verifiedResult_code _ _ _)]
    split
    · next hover =>
      rw [State.deliver_overflows hover]
      exact s.finish_completes _ _ _ _
    · next hfits =>
      rw [State.deliver_fits (Nat.not_lt.mp hfits)]
      exact s.finish_completes _ _ _ _

/-! ### The round trip (R248) -/

/-- What the HOST reads after a completion is the completion's output (R69, R72). -/
theorem Completes.outBytes_eq {s t : State} {code : Code} {out : List Byte} {flags : SoftFlags} {regs : ResultRegs}
    (h : Completes s t code out flags regs) (hlen : out.length < 2 ^ 32) : t.outBytes = out := by
  have hout : t.outLen.toNat = out.length := by
    rw [h.out_len, BitVec.toNat_ofNat, Nat.mod_eq_of_lt hlen]
  rw [State.outBytes, hout]
  refine List.ext_getElem (by simp) fun i _ hi => ?_
  rw [List.getElem_map, List.getElem_range, h.out_bytes i hi, byteAt, List.getD_eq_getElem _ _ hi]

/-- The parser accepts what the formatter wrote, with no flag (R248). -/
theorem frameParse_payloadOf {cfg : LzConfig} {limit : Nat} (hl : cfg.legal limit = true) {codec : Byte}
    (hcodec : codec = 0 ∨ codec = 1 ∨ codec = 2) {s : List Byte} (hlen : s.length < 2 ^ 32) :
    frameParse true cfg.minMatch.toNat
        (currentFrame 2 codec (BitVec.ofNat 32 s.length) (crc32 s) (payloadOf cfg codec s)) =
      ⟨.ok, s, SoftFlags.none, some ⟨2, codec, false, BitVec.ofNat 32 s.length, crc32 s⟩⟩ := by
  have haccepted : headerStop true ⟨2, codec, false, BitVec.ofNat 32 s.length, crc32 s⟩ = none :=
    headerStop_accepted (.inr rfl) (hcodec.imp_right (Or.imp_right fun h => ⟨h, rfl⟩))
  have hlength : (BitVec.ofNat 32 s.length).toNat = s.length := by
    rw [BitVec.toNat_ofNat, Nat.mod_eq_of_lt hlen]
  rw [frameParse_currentFrame _ _ _ _ _ (by decide), resultOfHeader, haccepted,
    verifiedResult_eq (decodePayload_payloadOf hl hcodec s)]
  simp [hlength, SoftFlags.none]

/-- Settles O34: FRAME_FMT leaves the frame in OutBuf, and FRAME_PARSE of it delivers the parser's result. -/
theorem frameRoundTrip : Obligations.FrameRoundTrip := by
  intro s t codec hws hwt hin hlegal hparams htp htlz hranges hranget hcodec hcap
  have hpayload := payloadOf_length_le hlegal hcodec s.input
  have hcap_le : s.params.outCap ≤ 0x100000 := hparams.2.2.2.2.1
  have hlen : s.input.length < 2 ^ 32 := by omega
  have hknown : codec = 0 ∧ payloadOf s.operands.lz codec s.input = s.input ∨
      codec = 1 ∧ payloadOf s.operands.lz codec s.input = rleEnc s.input ∨
      codec = 2 ∧ s.lzLegal = true ∧ payloadOf s.operands.lz codec s.input = lzssEnc s.operands.lz s.input := by
    rcases hcodec with rfl | rfl | rfl
    · exact .inl ⟨rfl, rfl⟩
    · exact .inr (.inl ⟨rfl, rfl⟩)
    · exact .inr (.inr ⟨rfl, hlegal, rfl⟩)
  obtain ⟨s', hs', hformat⟩ := frameFormatCommandDelivers s codec _ hws hranges hin hknown (by omega)
  refine ⟨s', hs', hformat.code, fun hframe => ?_⟩
  rw [hformat.outBytes_eq ((frameBytes_length codec s.input _).trans_lt (by omega))] at hframe
  obtain ⟨hdr, hparse⟩ : ∃ hdr, frameParse t.lzLegal t.minMatch t.input = ⟨.ok, s.input, SoftFlags.none, hdr⟩ := by
    have htlegal : t.lzLegal = true := by
      rw [State.lzLegal, htlz, htp]
      exact hlegal
    rw [htlegal, State.minMatch, htlz, hframe]
    exact ⟨_, frameParse_payloadOf hlegal hcodec hlen⟩
  obtain ⟨t', ht', hdelivers⟩ := frameParseCommandDelivers t hwt hranget
  rw [hparse] at hdelivers
  dsimp only at hdelivers
  rw [if_neg (by simp), if_neg (by rw [htp]; omega)] at hdelivers
  exact ⟨t', ht', hdelivers.code, hdelivers.soft, hdelivers.outBytes_eq hlen⟩

end Sys2Proof.Machine

/-! ## A changed payload byte -/

namespace Sys2Proof.Machine

/-! ### The CRC tells two bytes apart (R250, G4) -/

/-- A bit step is a shift, with the polynomial added when the bit shifted out is set (R130). -/
theorem crcBit_eq (x : Word) : crcBit x = (x >>> 1) ^^^ (if x.getLsbD 0 then 0xEDB88320 else 0) := by
  unfold crcBit
  split
  · rfl
  · exact BitVec.xor_zero.symm

theorem crcBit_xor (x y : Word) : crcBit (x ^^^ y) = crcBit x ^^^ crcBit y := by
  have hpoly : (if (x ^^^ y).getLsbD 0 then 0xEDB88320 else 0 : Word) =
      (if x.getLsbD 0 then 0xEDB88320 else 0) ^^^ (if y.getLsbD 0 then 0xEDB88320 else 0) := by
    rw [BitVec.getLsbD_xor]
    cases x.getLsbD 0 <;> cases y.getLsbD 0 <;> rfl
  rw [crcBit_eq, crcBit_eq, crcBit_eq, hpoly, BitVec.ushiftRight_xor_distrib]
  ac_rfl

theorem crcBits_xor (k : Nat) (x y : Word) : crcBits k (x ^^^ y) = crcBits k x ^^^ crcBits k y := by
  induction k generalizing x y with
  | zero => rfl
  | succ k ih => rw [crcBits, crcBit_xor, ih, crcBits, crcBits]

theorem crcBit_of_even {x : Word} (h : x.getLsbD 0 = false) : crcBit x = x >>> 1 := by
  rw [crcBit_eq, h]
  exact BitVec.xor_zero

/-- Zeros shifted out add no polynomial. -/
theorem crcBits_of_low_zero {k : Nat} {x : Word} (h : ∀ i, i < k → x.getLsbD i = false) : crcBits k x = x >>> k := by
  induction k generalizing x with
  | zero => rfl
  | succ k ih =>
    have hnext : ∀ i, i < k → (x >>> 1).getLsbD i = false := fun i hi => by
      rw [BitVec.getLsbD_ushiftRight]
      exact h _ (by omega)
    rw [crcBits, crcBit_of_even (h 0 (Nat.succ_pos k)), ih hnext, ← BitVec.shiftRight_add, Nat.add_comm]

/-- The table step of R131 is eight bit steps of R130 on the whole accumulator. -/
theorem crcStep_eq_crcBits (c : Word) (b : Byte) : crcStep c b = crcBits 8 (c ^^^ b.setWidth 32) := by
  have hlow (w : Word) (i : Nat) (hi : i < 8) : (w ^^^ (w.setWidth 8).setWidth 32).getLsbD i = false := by
    simp [hi, show i < 32 by omega]
  have hhigh (v : Word) (a : Byte) : (v ^^^ a.setWidth 32) >>> 8 = v >>> 8 :=
    BitVec.eq_of_getLsbD_eq fun i _ => by simp
  have hxor := crcBits_xor 8 (c ^^^ b.setWidth 32) (((c ^^^ b.setWidth 32).setWidth 8).setWidth 32)
  rw [crcBits_of_low_zero (hlow _), hhigh, hhigh] at hxor
  rw [crcStep_eq, hxor, crcTable, BitVec.xor_comm, BitVec.xor_assoc, BitVec.xor_self, BitVec.xor_zero]

/-- The polynomial's top bit tells which bit was shifted out. -/
theorem crcBit_getLsbD_31 (x : Word) : (crcBit x).getLsbD 31 = x.getLsbD 0 := by
  rw [crcBit_eq, BitVec.getLsbD_xor, BitVec.getLsbD_ushiftRight, BitVec.getLsbD_of_ge x (1 + 31) (by decide)]
  cases x.getLsbD 0 <;> rfl

theorem eq_zero_of_crcBit {x : Word} (h : crcBit x = 0) : x = 0 := by
  have hfirst : x.getLsbD 0 = false := by
    rw [← crcBit_getLsbD_31, h]
    rfl
  rw [crcBit_of_even hfirst] at h
  refine BitVec.eq_of_getLsbD_eq fun i _ => ?_
  cases i with
  | zero => exact hfirst
  | succ i => simpa [Nat.add_comm] using congrArg (BitVec.getLsbD · i) h

theorem crcBit_injective : Function.Injective crcBit := by
  intro x y h
  refine BitVec.xor_eq_zero_iff.mp (eq_zero_of_crcBit ?_)
  rw [crcBit_xor, h]
  exact BitVec.xor_self

theorem crcBits_injective (k : Nat) : Function.Injective (crcBits k) := by
  induction k with
  | zero => exact Function.injective_id
  | succ k ih => exact ih.comp crcBit_injective

theorem crcStep_left_injective (b : Byte) : Function.Injective (crcStep · b) := by
  intro c d h
  simp only [crcStep_eq_crcBits] at h
  exact (BitVec.xor_left_inj _).mp (crcBits_injective 8 h)

theorem crcStep_right_injective (c : Word) : Function.Injective (crcStep c) := by
  intro x y h
  rw [crcStep_eq_crcBits, crcStep_eq_crcBits] at h
  have hword := (BitVec.xor_right_inj c).mp (crcBits_injective 8 h)
  simpa using congrArg (BitVec.setWidth 8) hword

theorem foldl_crcStep_injective (l : List Byte) : Function.Injective (List.foldl crcStep · l) := by
  induction l with
  | nil => exact Function.injective_id
  | cons b l ih => exact ih.comp (crcStep_left_injective b)

/-- A byte string with one byte changed has another CRC-32. -/
theorem crc32_ne_of_changed (before after : List Byte) {x y : Byte} (h : x ≠ y) :
    crc32 (before ++ y :: after) ≠ crc32 (before ++ x :: after) := by
  intro heq
  have hfold := (BitVec.xor_left_inj _).mp heq
  rw [List.foldl_append, List.foldl_append] at hfold
  exact h (crcStep_right_injective _ (foldl_crcStep_injective after hfold)).symm

/-- A changed byte of a codec 0 payload sets CRCMIS and no other flag. -/
theorem frameParse_changed_byte (lzLegal : Bool) (minMatch : Nat) (before after : List Byte) {x y : Byte} (h : x ≠ y)
    (hlen : (before ++ x :: after).length < 2 ^ 32) :
    frameParse lzLegal minMatch (currentFrame 2 0 (BitVec.ofNat 32 (before ++ x :: after).length)
        (crc32 (before ++ x :: after)) (before ++ y :: after)) =
      ⟨.partialData, before ++ y :: after, ⟨false, false, false, true⟩,
        some ⟨2, 0, false, BitVec.ofNat 32 (before ++ x :: after).length, crc32 (before ++ x :: after)⟩⟩ := by
  have hsame : (before ++ y :: after).length = (BitVec.ofNat 32 (before ++ x :: after).length).toNat := by
    rw [BitVec.toNat_ofNat, Nat.mod_eq_of_lt hlen, List.length_append, List.length_append, List.length_cons,
      List.length_cons]
  have hcrc := crc32_ne_of_changed before after h
  have hresult := parserDecodesAndVerifies lzLegal minMatch false 2 0 (BitVec.ofNat 32 (before ++ x :: after).length)
    (crc32 (before ++ x :: after)) (before ++ y :: after) _ SoftFlags.none (.inr ⟨rfl, rfl⟩) (.inl ⟨rfl, rfl⟩)
  simp only [decide_eq_false (not_not_intro hsame), decide_eq_true hcrc] at hresult
  exact hresult

/-! ### A changed byte of an RLE encoding -/

/-- A pair of the encoding gives its run (R151). -/
theorem rleDec_run_cons {n : Nat} (hn : n < 255) (b : Byte) (s : List Byte) :
    (rleDec (BitVec.ofNat 8 (n + 1) :: b :: s)).1 = List.replicate (n + 1) b ++ (rleDec s).1 := by
  rw [rleDec_cons_cons, BitVec.toNat_ofNat, Nat.mod_eq_of_lt (by omega)]

/-- A changed count gives another length; a changed value gives another byte, because no count of the encoding is 0. -/
theorem rleDec_changed_byte {s before after : List Byte} {x y : Byte} (henc : rleEnc s = before ++ x :: after)
    (h : x ≠ y) : (rleDec (before ++ y :: after)).1 ≠ s := by
  induction s using rleEnc_induction generalizing before with
  | nil => simp at henc
  | pair b n rest hn hpair ih =>
    rw [hpair] at henc
    match before, henc with
    | [], henc =>
      obtain ⟨rfl, rfl⟩ := List.cons_eq_cons.mp henc
      intro heq
      have hcount : y.toNat = n + 1 := by
        have hlen := congrArg List.length heq
        rw [List.nil_append, rleDec_cons_cons, rleDec_rleEnc] at hlen
        simpa using hlen
      exact h (ofNat_of_toNat hcount)
    | [_], henc =>
      obtain ⟨rfl, htail⟩ := List.cons_eq_cons.mp henc
      obtain ⟨rfl, rfl⟩ := List.cons_eq_cons.mp htail
      intro heq
      rw [List.cons_append, List.nil_append, rleDec_run_cons hn, List.replicate_succ, List.replicate_succ] at heq
      exact h (List.cons_eq_cons.mp heq).1.symm
    | _ :: _ :: before, henc =>
      obtain ⟨rfl, htail⟩ := List.cons_eq_cons.mp henc
      obtain ⟨rfl, hrest⟩ := List.cons_eq_cons.mp htail
      intro heq
      rw [List.cons_append, List.cons_append, rleDec_run_cons hn] at heq
      exact ih hrest (List.append_cancel_left heq)

/-- Settles O35: the CRC of the changed payload is another one, and an RLE pair changed decodes to other bytes. -/
theorem changedPayloadByteChangesTheResult : Obligations.ChangedPayloadByteChangesTheResult :=
  ⟨fun lzLegal minMatch before after _ _ h hlen => frameParse_changed_byte lzLegal minMatch before after h hlen,
    fun _ _ _ _ _ henc h => rleDec_changed_byte henc h⟩

end Sys2Proof.Machine

/-! ## Exceptions: empty IN, overflow, acceptance, completion (section 60) -/

namespace Sys2Proof.Machine

/-! ### EMPTY_INPUT -/

section empty
variable {s : State}

/-- The empty-input check comes right after the range check (R264, R266). -/
theorem State.rleStop_emptyInput (hrange : s.operands.inLen.toNat ≤ s.params.inCap) (hin : s.input = []) :
    s.rleStop = some .emptyInput := by
  rw [State.rleStop, State.rangeStop_none hrange, State.emptyStop_some hin]
  rfl

/-- A legal configuration lets the empty-input check be reached (R264, R266). -/
theorem State.lzssStop_emptyInput (hrange : s.operands.inLen.toNat ≤ s.params.inCap) (hlegal : s.lzLegal = true)
    (hin : s.input = []) : s.lzssStop = some .emptyInput := by
  rw [State.lzssStop, State.rangeStop_none hrange, State.configStop_none hlegal, State.emptyStop_some hin]
  rfl

/-- The codec and its configuration are checked only on a non-empty IN (R210, R215, log 23). -/
theorem State.formatStop_emptyInput (hrange : s.operands.inLen.toNat ≤ s.params.inCap) (hin : s.input = [])
    (codec : Byte) : s.formatStop codec = some .emptyInput := by
  rw [State.formatStop, State.rangeStop_none hrange, State.emptyStop_some hin]
  rfl

/-- The parser's first step stops it at an empty blob, with no header read (R230). -/
theorem State.exec_frameParse_of_empty (hrange : s.operands.inLen.toNat ≤ s.params.inCap) (hin : s.input = []) :
    exec .frameParse s = .next (s.raise .emptyInput) := by
  have hhead : frameHead s.lzLegal s.input = .error (.emptyInput, none) := by
    rw [hin]
    rfl
  exact State.exec_frameParse_of_error (State.rangeStop_none hrange) hhead

end empty

/-- Settles O17: the check each command makes of its IN stops it before its work. -/
theorem emptyInputIsReported : Obligations.EmptyInputIsReported := by
  intro i s hrange hin hi
  have hexec : exec i s = .next (s.raise .emptyInput) := by
    rcases hi with rfl | rfl | ⟨rfl | rfl, hlegal⟩ | ⟨codec, rfl⟩ | rfl
    · show execRleEnc s = _
      rw [execRleEnc, State.rleStop_emptyInput hrange hin]
    · show execRleDec s = _
      rw [execRleDec, State.rleStop_emptyInput hrange hin]
    · show execLzssEnc s = _
      rw [execLzssEnc, State.lzssStop_emptyInput hrange hlegal hin]
    · show execLzssDec s = _
      rw [execLzssDec, State.lzssStop_emptyInput hrange hlegal hin]
    · show execFrameFmt codec s = _
      rw [execFrameFmt, State.formatStop_emptyInput hrange hin]
    · exact State.exec_frameParse_of_empty hrange hin
  exact ⟨_, hexec, s.raise_completes _⟩

/-! ### OUT_OVERFLOW -/

/-- An output that does not fit completes with OUT_OVERFLOW and nothing else, unless registers were named before it was
known (R265). -/
theorem State.deliver_overflow_completes {s : State} {out : List Byte} (h : s.params.outCap < out.length)
    (flags : SoftFlags) (late : ResultRegs) :
    Completes s (s.deliver out flags ResultRegs.none late) .outOverflow [] SoftFlags.none ResultRegs.none := by
  rw [State.deliver_overflows h]
  exact s.finish_completes _ _ _ _

/-- A frame is 13 bytes longer than its payload, and delivered as every output is (R213, R265). -/
theorem State.exec_frameFmt_overflows {s : State} {codec : Byte} (hw : s.work = .fresh)
    (hs : s.formatStop codec = none) (h : s.params.outCap < 13 + (payloadOf s.operands.lz codec s.input).length) :
    ∃ t, exec (.frameFmt codec) s = .next t ∧ Completes s t .outOverflow [] SoftFlags.none ResultRegs.none := by
  rw [← frameBytes_length codec s.input] at h
  exact ⟨_, State.exec_frameFmt_of_fresh hw hs, State.deliver_overflow_completes h _ _⟩

/-- Settles O20: the checks find nothing, and what each command delivers does not fit. -/
theorem overflowingOutputIsDiscarded : Obligations.OverflowingOutputIsDiscarded := by
  intro i s hw hrange hin hi
  rcases hi with ⟨rfl, h⟩ | ⟨rfl, h⟩ | ⟨rfl, hlegal, h⟩ | ⟨rfl, hlegal, h⟩ | ⟨rfl, h⟩ | ⟨rfl, h⟩ | ⟨rfl, hlegal, h⟩
  · exact ⟨_, State.exec_rleEnc_of_fresh hw (State.rleStop_none hrange hin), State.deliver_overflow_completes h _ _⟩
  · exact ⟨_, State.exec_rleDec_of_fresh hw (State.rleStop_none hrange hin), State.deliver_overflow_completes h _ _⟩
  · exact ⟨_, State.exec_lzssEnc_of_fresh hw (State.lzssStop_none hrange hlegal hin),
      State.deliver_overflow_completes h _ _⟩
  · exact ⟨_, State.exec_lzssDec_of_fresh hw (State.lzssStop_none hrange hlegal hin),
      State.deliver_overflow_completes h _ _⟩
  · exact State.exec_frameFmt_overflows hw (State.formatStop_none hrange hin (.inl rfl)) h
  · exact State.exec_frameFmt_overflows hw (State.formatStop_none hrange hin (.inr (.inl rfl))) h
  · exact State.exec_frameFmt_overflows hw (State.formatStop_none hrange hin (.inr (.inr ⟨rfl, hlegal⟩))) h

/-! ### Acceptance and completion -/

/-- A write of CMD while BUSY = 0 is the acceptance of its word (R27, R91). -/
theorem State.writeReg_cmd_idle {s : State} (hr : s.running = false) (w : Word) : s.writeReg .cmd w = s.accept w :=
  if_neg (by simp [hr])

/-- Settles O39: the write is the acceptance, field by field. -/
theorem acceptanceClearsAndLatches : Obligations.AcceptanceClearsAndLatches := by
  intro s w hp hr
  have haccept : s.busAccess (wrOp .cmd w) = .next (s.accept w) := by
    rw [State.busAccess_wrOp hp, State.writeReg_cmd_idle hr]
  exact ⟨_, haccept, rfl, rfl, rfl, rfl, rfl, rfl, rfl, rfl, rfl, rfl, rfl, rfl, rfl, rfl, rfl, rfl, rfl, fun _ => rfl⟩

/-- Settles O55: with no turn given the ENGINE completes the command, legally. -/
theorem runningCommandCompletes : Obligations.RunningCommandCompletes := by
  intro s hr hturns
  obtain ⟨code, out, flags, regs, hengine, hlegal⟩ := State.engineTurn_cases hr
  exact ⟨_, code, out, flags, regs, (step_busy hr hturns).trans hengine, s.finish_completes code out flags regs, rfl, rfl,
    hlegal.fits⟩

/-! ### What ends BUSY -/

section busy
variable {s t : State}

/-- Taking a turn leaves BUSY as it is. -/
theorem State.takeTurn_running (s : State) : s.takeTurn.2.running = s.running := by
  obtain ⟨turns, h⟩ := s.takeTurn_state
  rw [h]

/-- Of the registers only CTRL ends a running command, and only with SRST = 1 (R24, R292). -/
theorem State.writeReg_ends_busy {r : Reg} {v : Word} (hr : s.running = true) (h : (s.writeReg r v).running = false) :
    r = .ctrl ∧ v.getLsbD 1 = true := by
  have busy {P : Prop} {u : State} (hu : (if s.running then s.noteWbusy else u).running = false) : P := by
    rw [if_pos hr] at hu
    exact not_busy_of_idle hu hr
  cases r with
  | ctrl =>
    refine ⟨rfl, ?_⟩
    cases hsrst : v.getLsbD 1 with
    | true => rfl
    | false =>
      have hctrl : (s.writeCtrl v).running = false := h
      rw [State.writeCtrl_of_enable hsrst] at hctrl
      exact not_busy_of_idle hctrl hr
  | cmd | inLen | lzWindow | lzMinMatch | lzMaxMatch | lzHashLimit => exact busy h
  | status | maxver | outLen | result | frhdr | frlen | frcrc | calccrc | incap | outcap => exact not_busy_of_idle h hr

/-- Bytes written above the register region leave BUSY as it is (R70). -/
theorem State.bytesWrite_running (s : State) (a : Nat) (bs : List Byte) : (s.bytesWrite a bs).running = s.running := by
  rcases s.bytesWrite_cases a bs with h | ⟨-, h⟩ | ⟨-, m, h, -, -⟩
  all_goals rw [h]
  all_goals rfl

/-- A write that ends a running command is the soft reset: the 4 bytes of CTRL with SRST = 1 (R64, R292). -/
theorem State.busAccess_ends_busy {offset : BitVec 22} {size : Size} {v : Word} (hr : s.running = true)
    (h : s.busAccess (.write offset size v) = .next t) (ht : t.running = false) :
    offset = BitVec.ofNat 22 Reg.ctrl.offset ∧ size = .four ∧ v.getLsbD 1 = true := by
  cases hfault : accessFault s.params offset.toNat size with
  | some f =>
    rw [State.busAccess_write_faults hfault] at h
    cases h
  | none =>
    rw [State.busAccess_write_legal hfault] at h
    cases h
    rcases s.busWrite_cases offset.toNat size v with heq | ⟨-, r, hlow, hreg, heq⟩ | ⟨-, -, heq⟩
    all_goals rw [heq] at ht
    · exact not_busy_of_idle ht hr
    · obtain ⟨rfl, hsrst⟩ := State.writeReg_ends_busy hr ht
      have hword : size = .four := by
        rw [accessFault_register hlow] at hfault
        by_contra hne
        rw [if_neg fun hc => hne hc.1] at hfault
        cases hfault
      exact ⟨(ofNat_of_toNat (Reg.offset_of_regAt hreg).symm).symm, hword, hsrst⟩
    · rw [State.bytesWrite_running] at ht
      exact not_busy_of_idle ht hr

/-- A HOST turn ends a running command by the soft reset or by `rst_n` (R267, R290, R292). -/
theorem State.hostTurn_ends_busy (hr : s.running = true) (h : s.hostTurn = .next t) (ht : t.running = false) :
    (∃ rest offset v, s.host = .bus (.write offset .four v) :: rest ∧ offset = BitVec.ofNat 22 Reg.ctrl.offset ∧
      v.getLsbD 1 = true) ∨ ∃ rest, s.host = .rstPin false :: rest := by
  have e : HostEffect s (.next t) := h ▸ s.hostTurn_effect
  cases e with
  | reads => exact not_busy_of_idle ht hr
  | @writes offset size v rest hhost =>
    rw [State.hostTurn_bus hhost] at h
    obtain ⟨hoffset, rfl, hsrst⟩ := State.busAccess_ends_busy (s := { s with host := rest }) hr h ht
    exact .inl ⟨rest, offset, v, hhost, hoffset, hsrst⟩
  | @drives level rest hhost =>
    cases level with
    | true => exact not_busy_of_idle ht hr
    | false => exact .inr ⟨rest, hhost⟩

/-- One iteration of the loop leaves the command running (R78). -/
theorem State.unitTurn_running (hr : s.running = true) (h : s.unitTurn = .next t) : t.running = true := by
  have hwork : t = { s with work := t.work } := (progressIsInvisible s t hr h).1
  rw [hwork]
  exact hr

end busy

/-- Settles O57: of the three turns, the ENGINE's is a completion, an iteration keeps the command running, and the HOST's
ends it by a reset only. -/
theorem busyEndsByCompletionOrReset : Obligations.BusyEndsByCompletionOrReset := by
  intro s t hstep hr ht
  cases hturn : s.takeTurn with
  | mk turn s' =>
    have hr' : s'.running = true := by
      rw [← hr, ← s.takeTurn_running, hturn]
    rw [step, hturn] at hstep
    cases turn with
    | engine =>
      obtain ⟨code, out, flags, regs, hengine, -⟩ := State.engineTurn_cases hr'
      exact .inl ⟨s', code, out, flags, regs, rfl, Host.Outcome.next.inj (hstep.symm.trans hengine)⟩
    | engineUnit => exact not_busy_of_idle ht (State.unitTurn_running hr' hstep)
    | host =>
      rcases State.hostTurn_ends_busy hr' hstep ht with ⟨rest, offset, v, hwrite⟩ | ⟨rest, hpin⟩
      · exact .inr (.inl ⟨s', rest, offset, v, rfl, hwrite⟩)
      · exact .inr (.inr ⟨s', rest, rfl, hpin⟩)

end Sys2Proof.Machine

/-! ## Resets (section 70) -/

namespace Sys2Proof.Machine

/-- `s` is the reset state of parameters `p` in every register and in the ENGINE. The pin, InBuf, the draws, the HOST's side
and the turns may be any: they are what `resetWith`, `softReset` and `driveReset` differ in. -/
def State.AtReset (s : State) (p : Config.Params) : Prop :=
  s = { State.resetWith p with
    rstN := s.rstN
    inBuf := s.inBuf
    inDraw := s.inDraw
    outDraw := s.outDraw
    draws := s.draws
    host := s.host
    rdata := s.rdata
    turns := s.turns }

/-! ### Which operations leave a reset state -/

theorem State.resetWith_atReset (p : Config.Params) : (State.resetWith p).AtReset p := rfl

theorem State.softReset_atReset (s : State) : s.softReset.AtReset s.params := rfl

theorem State.driveReset_low_atReset (s : State) : (s.driveReset false).AtReset s.params := rfl

/-- The release of `rst_n` leaves the block in the reset state (R290). -/
theorem State.AtReset.driveReset_high {s : State} {p : Config.Params} (h : s.AtReset p) : (s.driveReset true).AtReset p :=
  congrArg (State.driveReset · true) h

/-! ### What a reset state is -/

/-- No bit of STATUS is set at reset (R290). -/
theorem State.resetWith_status (p : Config.Params) : (State.resetWith p).status = 0 := by
  simp [State.status, State.resetWith, SoftFlags.none, flagAt, Code.toByte]

/-- No iteration of a loop without a running command. -/
theorem State.unitTurn_idle {s : State} (h : s.running = false) : s.unitTurn = .next s := by
  simp [State.unitTurn, h]

section atReset
variable {s : State} {p : Config.Params} (h : s.AtReset p)
include h

theorem State.AtReset.readReg_eq (r : Reg) : s.readReg r = (State.resetWith p).readReg r := by
  rw [h]
  cases r <;> rfl

theorem State.AtReset.not_running : s.running = false := congrArg State.running h

theorem State.AtReset.nothing_latched : s.latched = none := congrArg State.latched h

theorem State.AtReset.work_fresh : s.work = .fresh := congrArg State.work h

theorem State.AtReset.not_done : s.done = false := congrArg State.done h

theorem State.AtReset.irq_low : s.irq = false := State.irq_of_not_done h.not_done

theorem State.AtReset.engineTurn_eq : s.engineTurn = .next s := State.engineTurn_idle h.not_running

theorem State.AtReset.unitTurn_eq : s.unitTurn = .next s := State.unitTurn_idle h.not_running

/-- No byte of OutBuf is written, so each is a free byte of OutBuf's draw (I3). -/
theorem State.AtReset.outByte_eq (i : Nat) : s.outByte i = Config.freeByte s.outDraw i := by
  have hbuf : s.outBuf = [] := congrArg State.outBuf h
  rw [State.outByte, hbuf]
  rfl

end atReset

/-! ### Soft reset -/

/-- CTRL with SRST = 1 is the soft reset, whatever IE's bit is (R26, R292). -/
theorem State.writeCtrl_of_srst {s : State} {v : Word} (h : v.getLsbD 1 = true) : s.writeCtrl v = s.softReset :=
  if_pos h

/-- Settles O37: the write is the soft reset, which leaves a reset state and keeps InBuf. -/
theorem softResetAbortsAndResets : Obligations.SoftResetAbortsAndResets := by
  intro s v hp hsrst
  have hwrite : s.busAccess (wrOp .ctrl v) = .next (s.writeCtrl v) := State.busAccess_wrOp hp .ctrl v
  rw [State.writeCtrl_of_srst hsrst] at hwrite
  have hreset : s.softReset.AtReset s.params := s.softReset_atReset
  exact ⟨s.softReset, hwrite, hreset.readReg_eq, hreset.not_running, hreset.nothing_latched, hreset.work_fresh,
    hreset.not_done, hreset.irq_low, hreset.engineTurn_eq, hreset.unitTurn_eq, fun _ => rfl, hreset.outByte_eq⟩

/-! ### Power-on reset -/

/-- What power-on reset leaves beyond the reset state: InBuf unwritten, and the two buffers holding different draws (I2). -/
structure State.PoweredOn (s : State) (p : Config.Params) : Prop where
  atReset : s.AtReset p
  inBuf : s.inBuf = []
  draws : s.inDraw ≠ s.outDraw

theorem State.resetWith_poweredOn (p : Config.Params) : (State.resetWith p).PoweredOn p :=
  ⟨State.resetWith_atReset p, rfl, Nat.zero_ne_one⟩

theorem State.driveReset_low_poweredOn (s : State) : (s.driveReset false).PoweredOn s.params :=
  ⟨s.driveReset_low_atReset, rfl, Nat.ne_of_lt (Nat.lt_succ_self s.draws)⟩

theorem State.PoweredOn.driveReset_high {s : State} {p : Config.Params} (h : s.PoweredOn p) :
    (s.driveReset true).PoweredOn p :=
  ⟨h.atReset.driveReset_high, h.inBuf, h.draws⟩

/-- No byte of InBuf is written, so each is a free byte of InBuf's draw (I2). -/
theorem State.PoweredOn.inByte_eq {s : State} {p : Config.Params} (h : s.PoweredOn p) (i : Nat) :
    s.inByte i = Config.freeByte s.inDraw i := by
  rw [State.inByte, h.inBuf]
  rfl

/-- Settles O36: each of the three states is a powered-on one, and such a state's registers are those of `resetWith`, which
are the listed values. -/
theorem resetLeavesTheListedValues : Obligations.ResetLeavesTheListedValues := by
  intro p s hs
  have hon : s.PoweredOn p := by
    rcases hs with rfl | ⟨s₀, rfl, rfl | rfl⟩
    · exact State.resetWith_poweredOn p
    · exact s₀.driveReset_low_poweredOn
    · exact s₀.driveReset_low_poweredOn.driveReset_high
  have hreset : s.AtReset p := hon.atReset
  have reads : ∀ r, s.readReg r = (State.resetWith p).readReg r := hreset.readReg_eq
  have status : s.readReg .status = 0 := (reads .status).trans (State.resetWith_status p)
  exact ⟨reads .maxver, reads .ctrl, reads .cmd, status, reads .inLen, reads .outLen, reads .result, reads .frhdr,
    reads .frlen, reads .frcrc, reads .calccrc, reads .lzWindow, reads .lzMinMatch, reads .lzMaxMatch,
    reads .lzHashLimit, reads .incap, reads .outcap, hreset.not_running, hreset.nothing_latched, hreset.work_fresh,
    hreset.irq_low, hon.inByte_eq, hreset.outByte_eq, hon.draws, hreset.engineTurn_eq, hreset.unitTurn_eq⟩

end Sys2Proof.Machine

/-! ## Decoding what was encoded -/

namespace Sys2Proof

/-! ### Command words -/

/-- Reading the fields of a word made of three fields gives them back (R90). -/
theorem fields_commandWord (o c : Byte) (r : BitVec 16) :
    opcodeField (commandWord o c r) = o ∧ codecField (commandWord o c r) = c ∧ rsvdField (commandWord o c r) = r := by
  refine ⟨?_, ?_, ?_⟩ <;> refine BitVec.eq_of_getLsbD_eq fun i hi => ?_
  · simp [commandWord, opcodeField, hi, show i < 32 by omega, show i < 16 by omega]
  · simp [commandWord, codecField, hi, show 8 + i < 32 by omega, show 8 + i < 16 by omega]
  · simp [commandWord, rsvdField, hi, show 16 + i < 32 by omega, show 16 + i - 8 = 8 + i by omega,
      BitVec.getLsbD_of_ge o (16 + i) (by omega)]

/-- R93: a word of the `frame.fmt` row gives back the CODEC it was made of. -/
theorem decodeWord_formatWord (codec : Byte) : decodeWord (commandWord 0x30 codec 0) = .frameFmt codec := by
  obtain ⟨hopcode, hcodec, hrsvd⟩ := fields_commandWord 0x30 codec 0
  rw [decodeWord_of_format (mask_format_iff.mpr ⟨hopcode, hrsvd⟩), hcodec]

/-- R95: fields that are no command's are read back from their word. -/
theorem decodeWord_illegalWord {o c : Byte} {r : BitVec 16} (h : legalFields o c r = false) :
    decodeWord (commandWord o c r) = .illegal o c r := by
  obtain ⟨hopcode, hcodec, hrsvd⟩ := fields_commandWord o c r
  rw [decodeWord_of_illegal (by rwa [hopcode, hcodec, hrsvd]), hopcode, hcodec, hrsvd]

/-- The word of a well-formed command decodes to it: without an operand by evaluation of the table search, with operands
by its fields. -/
theorem decodeWord_of_encodeWord {i : Instr} {w : Word} (hwf : i.wf = true) (h : encodeWord i = some w) :
    decodeWord w = i := by
  cases i with
  | crc32 | fnv32 | rleEnc | rleDec | lzssEnc | lzssDec | frameParse =>
    obtain rfl := Option.some.inj h
    decide
  | frameFmt codec =>
    obtain rfl := Option.some.inj h
    exact decodeWord_formatWord codec
  | illegal o c r =>
    obtain rfl := Option.some.inj h
    exact decodeWord_illegalWord (by simpa [Instr.wf] using hwf)
  | lzssLiteral _ | lzssMatch _ _ | rlePair _ _ => exact nomatch h

/-- An instruction with a word is read in the command context, from the word's four bytes (R62, R90). -/
theorem encode_of_encodeWord {i : Instr} {w : Word} (h : encodeWord i = some w) :
    i.context = .command ∧ encode i = le32 w := by
  cases i with
  | lzssLiteral _ | lzssMatch _ _ | rlePair _ _ => exact nomatch h
  | _ => exact ⟨rfl, congrArg (fun o : Option Word => le32 (o.getD 0)) h⟩

/-! ### Match tokens -/

/-- R101 and R102: a token that may be written has a nonzero first byte, so it is read as a match, and LEN and DIST are
the quotients and remainders of its code. -/
theorem decodeBytes_matchBytes {len : BitVec 4} {dist : BitVec 12} (h : matchFirstByteNonzero len dist = true) :
    decodeBytes .lzssStream (matchBytes len dist) = .ok (.lzssMatch len dist) := by
  obtain ⟨f, g, hunit⟩ : ∃ f g, matchBytes len dist = [f, g] := ⟨_, _, rfl⟩
  have hbytes := matchBytes_toNat len dist
  simp only [hunit, List.map_cons, List.map_nil, List.cons.injEq, and_true] at hbytes
  obtain ⟨hf, hg⟩ := hbytes
  have hdist := dist.isLt
  have hnonzero : len.toNat ≠ 0 ∨ 256 ≤ dist.toNat := by
    simpa [matchFirstByteNonzero, ← BitVec.toNat_inj] using h
  have hfirst : f ≠ 0 := mt (congrArg BitVec.toNat) (show f.toNat ≠ 0 by omega)
  have hlen : tokenLen f = len := BitVec.eq_of_toNat_eq (by rw [tokenLen_toNat]; omega)
  have hback : tokenDist f g = dist := BitVec.eq_of_toNat_eq (by rw [tokenDist_toNat]; omega)
  rw [hunit, decodeBytes, decodeLzss, if_neg hfirst, hlen, hback]

/-- Settles O1: a command by its word, a match token by its two bytes; the other units are their operands. -/
theorem decodeOfEncodeIsIdentity : Obligations.DecodeOfEncodeIsIdentity := by
  intro i hwf
  cases hword : encodeWord i with
  | some w =>
    obtain ⟨hcontext, hbytes⟩ := encode_of_encodeWord hword
    rw [hcontext, hbytes, Machine.decodeBytes_le32, decodeWord_of_encodeWord hwf hword]
  | none =>
    cases i with
    | lzssLiteral value => rfl
    | lzssMatch len dist => exact decodeBytes_matchBytes hwf
    | rlePair count value => rfl
    | _ => exact nomatch hword

end Sys2Proof
